-- ==== Sys2Proof/Word.lean ====
section
/-! DEFINITION. The word types of the block: bytes and the 72-bit command word (`00_scope.md` R10, `30_encoding.md` R53). -/

namespace Sys2Proof

/-- A byte is 8 bits (R10). -/
abbrev Byte := BitVec 8

/-- The command word `C`: `OP` C[71:68], `SEL` C[67:64], `V` C[63:0] (R53). -/
abbrev CmdWord := BitVec 72

end Sys2Proof
end

