-- ==== Sys2Proof/Config.lean ====
section
/-! DEFINITION. The parameters of the block (`00_scope.md` R7): those the document or the spec fixes, as constants, and
the one open parameter `HDR_CAP`, which is an argument of the model. -/

namespace Sys2Proof.Config

/-- `ETH_LEN` = 14 bytes (R7). -/
def ethLen : Nat := 14

/-- `IP_HDR_LEN` = 20 bytes (R7). -/
def ipHdrLen : Nat := 20

/-- `IHL_FIXED` = 5, a hardwired constant (R7, R15). -/
def ihlFixed : Nat := 5

/-- `DSCP_ECN_FIXED` = 0x00, a hardwired constant (R7, R15). -/
def dscpEcnFixed : Byte := 0x00#8

/-- `W_OP` = 64 bits, the width of the operand `V` (R7). -/
def wOp : Nat := 64

/-- `W_ACC` = 32 bits, the width of `ACC` (R7). -/
def wAcc : Nat := 32

/-- The open parameter of R7, an argument of every step (`10_state.md` R13). -/
structure Params where
  /-- `HDR_CAP`, the capacity of `BUF` in bytes. -/
  hdrCap : Nat
deriving DecidableEq, Repr

/-- The range R7 gives: 20 ≤ `HDR_CAP` ≤ 65535. -/
abbrev Params.legal (p : Params) : Prop := ipHdrLen ≤ p.hdrCap ∧ p.hdrCap ≤ 65535

/-- The default R7 gives: `HDR_CAP` = 64. -/
def Params.default : Params := ⟨64⟩

end Sys2Proof.Config
end

