-- ==== Sys2Proof/Machine/State.lean ====
section
/-! DEFINITION. The architectural state of the block (`10_state.md` R13 to R35) beside the arguments of a step, the reasons
a step can stop, and the state after reset. -/

namespace Sys2Proof.Machine

/-- The field registers `F[0..10]`, by name (R14). -/
inductive Field where
  | dstMac
  | srcMac
  | etherType
  | version
  | ident
  | flags
  | fragOff
  | ttl
  | proto
  | srcAddr
  | dstAddr
deriving DecidableEq, Repr

/-- The lifecycle phase `PH` (R21). Its 3-bit values 6 and 7 are never taken and have no constructor (DEDUCED from R21 and
U12, log 7). -/
inductive Phase where
  /-- 0: no header built. -/
  | idle
  /-- 1: `ETH` and `BUF` hold the built bytes with zero placeholders. -/
  | built
  /-- 2: totalLength patched. -/
  | lenp
  /-- 3: `CK` holds the checksum of `BUF` with its checksum field zero. -/
  | summed
  /-- 4: checksum patched; the bytes are final. -/
  | done
  /-- 5: the bytes were handed to the collaborator once. -/
  | sent
deriving DecidableEq, Repr

/-- The error latch `ERR` (R22). -/
inductive ErrCode where
  /-- 0. -/
  | none
  /-- 1. -/
  | invalidFieldWidth
  /-- 2. -/
  | transmissionFailure
  /-- 3. -/
  | illegalCommand
deriving DecidableEq, Repr

/-- The sub-cause `ESUB` (R23). -/
inductive SubCause where
  /-- 0. -/
  | none
  /-- 1: reserved encoding. -/
  | reserved
  /-- 2: command not admitted in the current phase. -/
  | phase
  /-- 3: buffer capacity exceeded. -/
  | capacity
deriving DecidableEq, Repr

/-- The collaborator's answer `tx` to a hand-off (`43_control.md` R101): a 32-bit byte count, or the fail bit
(`30_encoding.md` R65). -/
inductive TxResult where
  | sent (n : BitVec 32)
  | fail
deriving DecidableEq, Repr

/-- What the environment drives on the input ports in one step (`30_encoding.md` R65). -/
structure PortSample where
  /-- `RST`. -/
  rst : Bool
  /-- `CMD_VALID`. -/
  cmdValid : Bool
  /-- `CMD`. -/
  cmd : CmdWord
  /-- `TX_RESULT`. -/
  tx : TxResult
deriving DecidableEq, Repr

/-- The two byte spaces (`20_memory.md` R36). -/
inductive Space where
  | eth
  | buf
deriving DecidableEq, Repr

/-- The bytes of one space that hold a value, by rising offset; an offset that is not listed holds no value (R29, R30). -/
abbrev Memory := List Host.Cell

/-- The state. The first nineteen registers and the two byte spaces are the whole architectural state of R13. The last
three fields are not state of the block but the arguments of a step that R13 names; no command writes them. -/
structure State where
  /-- `DST_MAC`, F[0] (R14). -/
  dstMac : BitVec 48
  /-- `SRC_MAC`, F[1] (R14). -/
  srcMac : BitVec 48
  /-- `ETHERTYPE`, F[2] (R14). -/
  etherType : BitVec 16
  /-- `VERSION`, F[3] (R14). -/
  version : BitVec 4
  /-- `IDENT`, F[4] (R14). -/
  ident : BitVec 16
  /-- `FLAGS`, F[5] (R14, R16). -/
  flags : BitVec 3
  /-- `FRAG_OFF`, F[6] (R14, R16). -/
  fragOff : BitVec 13
  /-- `TTL`, F[7] (R14). -/
  ttl : BitVec 8
  /-- `PROTO`, F[8] (R14). -/
  proto : BitVec 8
  /-- `SRC_ADDR`, F[9] (R14). -/
  srcAddr : BitVec 32
  /-- `DST_ADDR`, F[10] (R14). -/
  dstAddr : BitVec 32
  /-- `PH` (R21). -/
  ph : Phase
  /-- `ERR` (R22). -/
  err : ErrCode
  /-- `ESUB` (R23). -/
  esub : SubCause
  /-- `ECMD` (R24). -/
  ecmd : BitVec 8
  /-- `HLEN` (R25). -/
  hlen : BitVec 16
  /-- `FRAME_VALID` (R26). -/
  frameValid : Bool
  /-- `ACC` (R27). -/
  acc : BitVec 32
  /-- `CK` (R28). -/
  ck : BitVec 16
  /-- `ETH` (R29). -/
  eth : Memory
  /-- `BUF` (R30). -/
  buf : Memory
  /-- The parameters of R7, an argument of a step (R13; log 4). -/
  params : Config.Params
  /-- The level last sampled at `TX_RESULT`, an argument of a step (R13, R101): a free input, about which nothing is
  assumed (log 3). -/
  tx : TxResult
  /-- What the environment will drive on the input ports in the coming steps, oldest first (R65, R66; log 1). -/
  inputs : List PortSample
deriving DecidableEq, Repr

/-- The faults of the model. The block's own errors are no stops: they are latched in `ERR` and the machine goes on
(`60_exceptions.md` R112). -/
inductive Fault where
  /-- Raised by a store (`storeBytes`) at an offset the space does not have. Safe: the model stops where the spec gives no
  behaviour (`20_memory.md` R41), in states that no run from reset reaches (log 6). -/
  | outsideSpace (space : Space) (offset : Nat)
deriving DecidableEq, Repr

/-- The refusals of the model. -/
inductive Refusal where
  /-- Raised in `exec` for a command that has no meaning yet. Safe: the model stops. -/
  | notModelled (mnemonic : String)
  /-- Raised by `CKS` when a byte of `BUF` below `HLEN` holds no value. Safe: `93_implementation_defined.md` U8 asks for a
  refusal, in states that no run from reset reaches (log 5). -/
  | unwrittenByte
deriving DecidableEq, Repr

/-- The outcome of one command or one step. -/
abbrev Result := Host.Outcome State Fault Refusal

/-- The state after reset (R35, `70_reset_and_hazards.md` R126). `HDR_CAP` stands at its default (R7, log 4); the free
input `tx` and the empty input list are the model's own choice (log 1, log 3). -/
def State.reset : State where
  dstMac := 0x000000000000#48
  srcMac := 0x000000000000#48
  etherType := 0x0800#16
  version := 4#4
  ident := 0x0000#16
  flags := 0b010#3
  fragOff := 0x0000#13
  ttl := 0x0A#8
  proto := 0x01#8
  srcAddr := 0x7F000001#32
  dstAddr := 0x7F000001#32
  ph := .idle
  err := .none
  esub := .none
  ecmd := 0x00#8
  hlen := 0#16
  frameValid := false
  acc := 0#32
  ck := 0#16
  eth := []
  buf := []
  params := Config.Params.default
  tx := .sent 0#32
  inputs := []

end Sys2Proof.Machine
end

