-- ==== Sys2Proof/Machine/Flags.lean ====
section
/-! DEFINITION. The flags of the block. There are two and no condition codes (`10_state.md` R26, `42_checksum_patch.md`
R136): the error latch `ERR` ≠ 0, which every command but `CLR` tests, and `FRAME_VALID`, which none tests. -/

namespace Sys2Proof.Machine

/-- The block is in its error state (`60_exceptions.md` R113). -/
def State.latched (s : State) : Bool := decide (s.err ≠ .none)

/-- `FRAME_VALID <- 1`, the flag `EMT` sets (`43_control.md` R101). -/
def State.raiseFrameValid (s : State) : State := { s with frameValid := true }

end Sys2Proof.Machine
end

