-- ==== Sys2Proof/Syntax.lean ====
section
/-! DEFINITION. The eighteen commands of `spec/opcode_table.json`, one constructor per row (`30_encoding.md` R56). -/

namespace Sys2Proof

/-- A command as the decoder hands it on (R57). A command of format L or V carries its operand `V`, an unsigned integer
(R55); one of format N carries none, since `V` is not decoded there (R61). The operand is a natural number: the assembler
may be given one that no word can carry, which `Instr.wf` refuses (R63). DESIGN CHOICE, log 13 and log 14. -/
inductive Instr where
  | ldfDmac (v : Nat)
  | ldfSmac (v : Nat)
  | ldfEtype (v : Nat)
  | ldfVer (v : Nat)
  | ldfId (v : Nat)
  | ldfFlags (v : Nat)
  | ldfFrag (v : Nat)
  | ldfTtl (v : Nat)
  | ldfProto (v : Nat)
  | ldfSrc (v : Nat)
  | ldfDst (v : Nat)
  | bld
  | apb (v : Nat)
  | pln
  | cks
  | pck
  | emt
  | clr
deriving DecidableEq, Repr

end Sys2Proof
end

