-- ==== Sys2Proof/WellFormed.lean ====
section
/-! DEFINITION. Which commands a command word can carry: an operand of 2^64 or more cannot be encoded (`30_encoding.md` R63). -/

namespace Sys2Proof

/-- R63: "an operand of 2^64 or more cannot be encoded and is an assembly error; anything below is encoded". -/
def operandFits (v : Nat) : Bool := decide (v < 2 ^ Config.wOp)

/-- A command that some command word carries. -/
def Instr.wf : Instr → Bool
  | .ldfDmac v => operandFits v
  | .ldfSmac v => operandFits v
  | .ldfEtype v => operandFits v
  | .ldfVer v => operandFits v
  | .ldfId v => operandFits v
  | .ldfFlags v => operandFits v
  | .ldfFrag v => operandFits v
  | .ldfTtl v => operandFits v
  | .ldfProto v => operandFits v
  | .ldfSrc v => operandFits v
  | .ldfDst v => operandFits v
  | .bld => true
  | .apb v => operandFits v
  | .pln => true
  | .cks => true
  | .pck => true
  | .emt => true
  | .clr => true

end Sys2Proof
end

