-- ==== Sys2Proof/Decode.lean ====
section
/-! DEFINITION. The decoder, total on all 2^72 command words (`30_encoding.md` R57, R58), and the encoder written from the
same table (R53 to R56). -/

namespace Sys2Proof

/-- `OP` = C[71:68] (R53). -/
def cmdOp (c : CmdWord) : BitVec 4 := c.extractLsb' 68 4

/-- `SEL` = C[67:64] (R53). -/
def cmdSel (c : CmdWord) : BitVec 4 := c.extractLsb' 64 4

/-- `V` = C[63:0] (R53). -/
def cmdOperand (c : CmdWord) : BitVec 64 := c.extractLsb' 0 64

/-- The command byte C[71:64] (R53). -/
def cmdByte (c : CmdWord) : Byte := c.extractLsb' 64 8

/-- The four kinds of reserved encoding (R58). -/
inductive Reserved where
  /-- `OP` = 0x0. -/
  | opZero
  /-- `OP` = 0x9 to 0xF. -/
  | opUnassigned
  /-- `OP` = 0x1 with `SEL` = 11 to 15. -/
  | loadSelector
  /-- `OP` = 0x2 to 0x8 with `SEL` ≠ 0. -/
  | selectorNotZero
deriving DecidableEq, Repr

/-- `OP` = 0x1: the selector names the field register (R54, R57). -/
def decodeLoad (sel : BitVec 4) (v : Nat) : Except Reserved Instr :=
  match sel.toNat with
  | 0 => .ok (.ldfDmac v)
  | 1 => .ok (.ldfSmac v)
  | 2 => .ok (.ldfEtype v)
  | 3 => .ok (.ldfVer v)
  | 4 => .ok (.ldfId v)
  | 5 => .ok (.ldfFlags v)
  | 6 => .ok (.ldfFrag v)
  | 7 => .ok (.ldfTtl v)
  | 8 => .ok (.ldfProto v)
  | 9 => .ok (.ldfSrc v)
  | 10 => .ok (.ldfDst v)
  | _ => .error .loadSelector

/-- Every other opcode: the selector must be 0 (R53, R58). -/
def decodeUnselected (sel : BitVec 4) (i : Instr) : Except Reserved Instr :=
  if sel = 0x0#4 then .ok i else .error .selectorNotZero

/-- The decoder of R57: a command, or the kind of reserved encoding. -/
def decode (c : CmdWord) : Except Reserved Instr :=
  match (cmdOp c).toNat with
  | 0 => .error .opZero
  | 1 => decodeLoad (cmdSel c) (cmdOperand c).toNat
  | 2 => decodeUnselected (cmdSel c) .bld
  | 3 => decodeUnselected (cmdSel c) (.apb (cmdOperand c).toNat)
  | 4 => decodeUnselected (cmdSel c) .pln
  | 5 => decodeUnselected (cmdSel c) .cks
  | 6 => decodeUnselected (cmdSel c) .pck
  | 7 => decodeUnselected (cmdSel c) .emt
  | 8 => decodeUnselected (cmdSel c) .clr
  | _ => .error .opUnassigned

/-- The word a row of the opcode table numbers: bit 0 is the least significant bit of the 72-bit command word, and every
bit from `nbits` up is 0. -/
def tableWord (nbits w : Nat) : CmdWord := BitVec.ofNat 72 (w % 2 ^ nbits)

/-- What the decoder reads from a word numbered as `spec/opcode_table.json` numbers it. -/
def decodeTableWord (nbits w : Nat) : Option Instr :=
  match decode (tableWord nbits w) with
  | .ok i => some i
  | .error _ => none

/-- The three formats of R54. -/
inductive Format where
  | L
  | V
  | N
deriving DecidableEq, Repr

/-- The format column of R54 and R56. -/
def Instr.format : Instr → Format
  | .ldfDmac _ => .L
  | .ldfSmac _ => .L
  | .ldfEtype _ => .L
  | .ldfVer _ => .L
  | .ldfId _ => .L
  | .ldfFlags _ => .L
  | .ldfFrag _ => .L
  | .ldfTtl _ => .L
  | .ldfProto _ => .L
  | .ldfSrc _ => .L
  | .ldfDst _ => .L
  | .bld => .N
  | .apb _ => .V
  | .pln => .N
  | .cks => .N
  | .pck => .N
  | .emt => .N
  | .clr => .N

/-- The command byte of the opcode map (R56). -/
def Instr.commandByte : Instr → Byte
  | .ldfDmac _ => 0x10#8
  | .ldfSmac _ => 0x11#8
  | .ldfEtype _ => 0x12#8
  | .ldfVer _ => 0x13#8
  | .ldfId _ => 0x14#8
  | .ldfFlags _ => 0x15#8
  | .ldfFrag _ => 0x16#8
  | .ldfTtl _ => 0x17#8
  | .ldfProto _ => 0x18#8
  | .ldfSrc _ => 0x19#8
  | .ldfDst _ => 0x1A#8
  | .bld => 0x20#8
  | .apb _ => 0x30#8
  | .pln => 0x40#8
  | .cks => 0x50#8
  | .pck => 0x60#8
  | .emt => 0x70#8
  | .clr => 0x80#8

/-- The operand the command word carries; a command of format N is written with zeros there (R61). -/
def Instr.operand : Instr → Nat
  | .ldfDmac v => v
  | .ldfSmac v => v
  | .ldfEtype v => v
  | .ldfVer v => v
  | .ldfId v => v
  | .ldfFlags v => v
  | .ldfFrag v => v
  | .ldfTtl v => v
  | .ldfProto v => v
  | .ldfSrc v => v
  | .ldfDst v => v
  | .bld => 0
  | .apb v => v
  | .pln => 0
  | .cks => 0
  | .pck => 0
  | .emt => 0
  | .clr => 0

/-- A command word of a command byte and an operand: the command byte stands in the more significant position (R53). -/
def commandWord (b : Byte) (v : BitVec 64) : CmdWord := b ++ v

/-- The command word of a command (R53, R56). -/
def encode (i : Instr) : CmdWord := commandWord i.commandByte (BitVec.ofNat 64 i.operand)

end Sys2Proof
end

