-- ==== Sys2Proof/Machine/Operands.lean ====
section
/-! DEFINITION. The operand forms and the data formats: widths of the destinations and the width check (`30_encoding.md`
R55), register numbering and codes (`10_state.md` R14, R20 to R24), big-endian encoding (`00_scope.md` R10) and the
bit-packing of the sub-byte fields (`41_header_build.md` R80, R82). -/

namespace Sys2Proof.Machine

/-- The width of a field register (R14). -/
def Field.width : Field → Nat
  | .dstMac => 48
  | .srcMac => 48
  | .etherType => 16
  | .version => 4
  | .ident => 16
  | .flags => 3
  | .fragOff => 13
  | .ttl => 8
  | .proto => 8
  | .srcAddr => 32
  | .dstAddr => 32

/-- The number i of `F[i]`, which is the `LDF` selector (R14, R54). -/
def Field.selector : Field → Nat
  | .dstMac => 0
  | .srcMac => 1
  | .etherType => 2
  | .version => 3
  | .ident => 4
  | .flags => 5
  | .fragOff => 6
  | .ttl => 7
  | .proto => 8
  | .srcAddr => 9
  | .dstAddr => 10

/-- The command that loads a field register (R67, R69 to R79). -/
def Field.load (f : Field) (v : Nat) : Instr :=
  match f with
  | .dstMac => .ldfDmac v
  | .srcMac => .ldfSmac v
  | .etherType => .ldfEtype v
  | .version => .ldfVer v
  | .ident => .ldfId v
  | .flags => .ldfFlags v
  | .fragOff => .ldfFrag v
  | .ttl => .ldfTtl v
  | .proto => .ldfProto v
  | .srcAddr => .ldfSrc v
  | .dstAddr => .ldfDst v

/-- The value of `PH` as the port shows it (R21). -/
def Phase.code : Phase → BitVec 3
  | .idle => 0#3
  | .built => 1#3
  | .lenp => 2#3
  | .summed => 3#3
  | .done => 4#3
  | .sent => 5#3

/-- The value of `ERR` (R22). -/
def ErrCode.code : ErrCode → BitVec 2
  | .none => 0#2
  | .invalidFieldWidth => 1#2
  | .transmissionFailure => 2#2
  | .illegalCommand => 3#2

/-- The value of `ESUB` (R23). -/
def SubCause.code : SubCause → BitVec 2
  | .none => 0#2
  | .reserved => 1#2
  | .phase => 2#2
  | .capacity => 3#2

/-- `TX_RESULT` as its fail bit and its byte count (R65, R101). -/
def TxResult.ofPort (failBit : Bool) (count : BitVec 32) : TxResult := if failBit then .fail else .sent count

/-- The width check of R55: the operand is too wide for a destination of `w` bits. -/
def tooWide (w v : Nat) : Bool := decide (v ≥ 2 ^ w)

/-- `BE_n(v)`: byte k is `v[8(n-k)-1 : 8(n-k-1)]` (R10). -/
def beBytes (n v : Nat) : List Byte := (List.range n).map fun k => BitVec.ofNat 8 (v >>> (8 * (n - 1 - k)))

/-- The value `b0 ‖ b1 ‖ …` of a byte sequence, the first byte most significant (R9, R41). -/
def beValue (bs : List Byte) : Nat := bs.foldl (fun acc b => (acc <<< 8) ||| b.toNat) 0

/-- `versionAndIHL = (version << 4) | IHL` (R80, R82). -/
def versionAndIhl (version : BitVec 4) : Byte := BitVec.ofNat 8 ((version.toNat <<< 4) ||| Config.ihlFixed)

/-- `flagsAndFragmentOffset = (flags << 13) | fragmentOffset` (R80, R82). -/
def flagsAndFragmentOffset (flags : BitVec 3) (fragOff : BitVec 13) : Nat := (flags.toNat <<< 13) ||| fragOff.toNat

end Sys2Proof.Machine
end

