-- ==== Sys2Proof/Machine/Ops.lean ====
section
/-! DEFINITION. The named operations over registers and byte spaces that every command's meaning is built from:
`MemRead` and `MemWrite` (`20_memory.md` R41, R42), reads and writes of `F[i]` (`00_scope.md` R11), taking an error and the
way out of it (`60_exceptions.md` R112, R114), and the admission of a command (`30_encoding.md` R60). -/

namespace Sys2Proof.Machine

/-! ### Memory -/

/-- The byte at an offset, or none where it holds no value. -/
def Memory.read (m : Memory) (a : Nat) : Option Byte :=
  match m with
  | [] => none
  | (k, b) :: rest => if k = a then some b else Memory.read rest a

/-- Store one byte, keeping the offsets in rising order. -/
def Memory.write (m : Memory) (a : Nat) (b : Byte) : Memory :=
  match m with
  | [] => [(a, b)]
  | (k, c) :: rest =>
    if a < k then (a, b) :: (k, c) :: rest
    else if a = k then (a, b) :: rest
    else (k, c) :: Memory.write rest a b

/-- Store a byte sequence at the offsets from `a` on. -/
def Memory.writeBytes (m : Memory) (a : Nat) (bs : List Byte) : Memory :=
  match bs with
  | [] => m
  | b :: rest => Memory.writeBytes (Memory.write m a b) (a + 1) rest

/-- The `n` bytes at the offsets from `a` on, where all of them hold a value. -/
def Memory.readBytes (m : Memory) (a n : Nat) : Option (List Byte) :=
  match n with
  | 0 => some []
  | n + 1 =>
    match Memory.read m a, Memory.readBytes m (a + 1) n with
    | some b, some bs => some (b :: bs)
    | _, _ => none

/-- `MemRead(S, a, n)`: the big-endian value of `n` bytes (R41). -/
def Memory.readValue (m : Memory) (a n : Nat) : Option Nat := (Memory.readBytes m a n).map beValue

/-- The canonical form: offsets strictly rising. An unlisted offset holds no value, so no entry equals what an unlisted
offset reads as. -/
def Memory.wf (m : Memory) : Bool :=
  match m with
  | [] => true
  | (k, _) :: rest => rest.all (fun c => decide (k < c.1)) && Memory.wf rest

/-! ### Byte spaces -/

/-- The bytes of a space. -/
def State.space (s : State) : Space → Memory
  | .eth => s.eth
  | .buf => s.buf

/-- Replace the bytes of a space. -/
def State.setSpace (s : State) (sp : Space) (m : Memory) : State :=
  match sp with
  | .eth => { s with eth := m }
  | .buf => { s with buf := m }

/-- How many offsets a space has: 14, or `HDR_CAP` (R36). -/
def State.spaceSize (s : State) : Space → Nat
  | .eth => Config.ethLen
  | .buf => s.params.hdrCap

/-- The byte at an offset of a space, or none where it holds no value. -/
def State.readByte (s : State) (sp : Space) (a : Nat) : Option Byte := Memory.read (s.space sp) a

/-- Store a byte sequence in a space. An offset the space does not have is a fault (log 6). -/
def storeBytes (sp : Space) (a : Nat) (bs : List Byte) (s : State) : Result :=
  if a + bs.length ≤ s.spaceSize sp then .next (s.setSpace sp (Memory.writeBytes (s.space sp) a bs))
  else .fault (.outsideSpace sp a)

/-- `MemWrite(S, a, n, v)`: store `BE_n(v)` (R42). -/
def memWrite (sp : Space) (a n v : Nat) (s : State) : Result := storeBytes sp a (beBytes n v) s

/-- Go on from a next state; a fault or a refusal stays. -/
def andThen (r : Result) (f : State → Result) : Result :=
  match r with
  | .next s => f s
  | .fault e => .fault e
  | .refused e => .refused e

/-! ### Field registers -/

/-- Read `F[i]` as an unsigned integer (R11, R14). -/
def State.readField (s : State) : Field → Nat
  | .dstMac => s.dstMac.toNat
  | .srcMac => s.srcMac.toNat
  | .etherType => s.etherType.toNat
  | .version => s.version.toNat
  | .ident => s.ident.toNat
  | .flags => s.flags.toNat
  | .fragOff => s.fragOff.toNat
  | .ttl => s.ttl.toNat
  | .proto => s.proto.toNat
  | .srcAddr => s.srcAddr.toNat
  | .dstAddr => s.dstAddr.toNat

/-- `F[i] <- V[w-1:0]` (R11, R67). -/
def State.writeField (s : State) (f : Field) (v : Nat) : State :=
  match f with
  | .dstMac => { s with dstMac := BitVec.ofNat 48 v }
  | .srcMac => { s with srcMac := BitVec.ofNat 48 v }
  | .etherType => { s with etherType := BitVec.ofNat 16 v }
  | .version => { s with version := BitVec.ofNat 4 v }
  | .ident => { s with ident := BitVec.ofNat 16 v }
  | .flags => { s with flags := BitVec.ofNat 3 v }
  | .fragOff => { s with fragOff := BitVec.ofNat 13 v }
  | .ttl => { s with ttl := BitVec.ofNat 8 v }
  | .proto => { s with proto := BitVec.ofNat 8 v }
  | .srcAddr => { s with srcAddr := BitVec.ofNat 32 v }
  | .dstAddr => { s with dstAddr := BitVec.ofNat 32 v }

/-! ### Errors -/

/-- `raise E(sub)`: the three latch registers are written and nothing else changes; there is no vector and no saved program
counter (R112). -/
def enterError (e : ErrCode) (sub : SubCause) (commandByte : Byte) (s : State) : State :=
  { s with err := e, esub := sub, ecmd := commandByte }

/-- The way out of the error state, and the end of every packet: the reset state (R102, R114, R125). The arguments of a step
are not part of it (R13). -/
def resetBlock (s : State) : State :=
  { State.reset with params := s.params, tx := s.tx, inputs := s.inputs }

/-- Lines 2 of R60 and R58: a reserved encoding, unless an error is latched already (R113). -/
def rejectReserved (c : CmdWord) (s : State) : State :=
  if s.latched then s else enterError .illegalCommand .reserved (cmdByte c) s

/-- Lines 1 and 3 of R60: nothing happens while an error is latched (R113), and a phase outside `phases` raises
IllegalCommand sub-cause 2 (R59). -/
def whenAdmitted (i : Instr) (phases : List Phase) (s : State) (body : Result) : Result :=
  if s.latched then .next s
  else if s.ph ∈ phases then body
  else .next (enterError .illegalCommand .phase i.commandByte s)

/-- Line 5 of R60: an operand that does not fit its destination raises InvalidFieldWidth (R55, R106). -/
def whenFits (i : Instr) (w v : Nat) (s : State) (body : Result) : Result :=
  if tooWide w v then .next (enterError .invalidFieldWidth .none i.commandByte s) else body

end Sys2Proof.Machine
end

