-- ==== Sys2Proof/Machine/ChecksumPatch.lean ====
section
/-! DEFINITION. The Checksum Engine commands `PLN`, `CKS` and `PCK` (`42_checksum_patch.md` R87 to R99, R136). Sums are
exact natural numbers, which R136 allows since nothing wraps. -/

namespace Sys2Proof.Machine

/-- The offset of totalLength (R88, `20_memory.md` R38). -/
def totalLengthOffset : Nat := 2

/-- The offset of headerChecksum (R93, `20_memory.md` R38). -/
def checksumOffset : Nat := 10

/-- `PLN` (R88). -/
def execPln (s : State) : Result :=
  whenAdmitted .pln [.built] s
    (andThen (memWrite .buf totalLengthOffset 2 s.hlen.toNat s) fun t => .next { t with ph := .lenp })

/-- `NW` = ⌈`HLEN`/2⌉ (R43, R90). -/
def wordCount (hlen : Nat) : Nat := (hlen + 1) / 2

/-- `Word(i)` of a buffer of `hlen` valid bytes; the last byte of an odd length is padded with a zero low byte
(`20_memory.md` R43). None where a byte it needs holds no value. -/
def word (m : Memory) (hlen i : Nat) : Option Nat :=
  if 2 * i + 1 < hlen then Memory.readValue m (2 * i) 2 else (Memory.readValue m (2 * i) 1).map (· <<< 8)

/-- The sum after the first `k` passes of the loop of R90. -/
def sumWords (m : Memory) (hlen k : Nat) : Option Nat :=
  match k with
  | 0 => some 0
  | i + 1 =>
    match sumWords m hlen i, word m hlen i with
    | some S, some w => some (S + w)
    | _, _ => none

/-- `WordSum(BUF, HLEN)` (R90). -/
def wordSum (m : Memory) (hlen : Nat) : Option Nat := sumWords m hlen (wordCount hlen)

/-- One fold: `(s & 0xFFFF) + (s >> 16)` (R91). -/
def foldPass (s : Nat) : Nat := (s &&& 0xFFFF) + (s >>> 16)

/-- The loop of R91, at most `fuel` passes. -/
def foldLoop (fuel s : Nat) : Nat :=
  match fuel with
  | 0 => s
  | n + 1 => if s > 0xFFFF then foldLoop n (foldPass s) else s

/-- `Fold(S)` (R91). Each pass lowers a sum above 0xFFFF, so `S` passes are always enough (DESIGN CHOICE of form, log 16;
`Laws.fold_unfold` shows that this is the loop of R91). -/
def fold (S : Nat) : Nat := foldLoop S S

/-- `(~f) & 0xFFFF` (R92). -/
def complement16 (f : Nat) : BitVec 16 := ~~~(BitVec.ofNat 16 f)

/-- `CKS` (R89). A byte of `BUF` below `HLEN` that holds no value is refused (`93_implementation_defined.md` U8, log 5). -/
def execCks (s : State) : Result :=
  whenAdmitted .cks [.lenp, .done] s
    (match wordSum s.buf s.hlen.toNat with
     | none => .refused .unwrittenByte
     | some S => .next { s with
         acc := BitVec.ofNat 32 (fold S)
         ck := complement16 (fold S)
         ph := if s.ph = .lenp then .summed else s.ph })

/-- `PCK` (R93). -/
def execPck (s : State) : Result :=
  whenAdmitted .pck [.summed] s
    (andThen (memWrite .buf checksumOffset 2 s.ck.toNat s) fun t => .next { t with ph := .done })

end Sys2Proof.Machine
end

