-- ==== Sys2Proof/Machine/Control.lean ====
section
/-! DEFINITION. The hand-off `EMT`, the clear `CLR` (`43_control.md` R100 to R104), and the output ports
(`30_encoding.md` R65, `10_state.md` R31, R32). -/

namespace Sys2Proof.Machine

/-- `EMT` (R101): the hand-off happens whatever the collaborator answers; `Fail` latches TransmissionFailure. It always
completes (`93_implementation_defined.md` U2, log 8), and the bytes are read through `FRAME` alone (log 11). -/
def execEmt (s : State) : Result :=
  whenAdmitted .emt [.done] s
    (match s.tx with
     | .sent _ => .next { s.raiseFrameValid with ph := .sent }
     | .fail => .next (enterError .transmissionFailure .none Instr.emt.commandByte { s.raiseFrameValid with ph := .sent }))

/-- `CLR` (R102): admitted in every phase and while an error is latched. -/
def execClr (s : State) : Result := .next (resetBlock s)

/-- The byte count of `Sent(n)`, which an `EMT` that hands the frame over returns to the host; it is not stored in the block
(R101; log 9). -/
def State.returnedCount (s : State) : Option (BitVec 32) :=
  match s.tx with
  | .sent n => some n
  | .fail => none

/-- `ETH[0..13] ‖ BUF[0..HLEN-1]` (R31). -/
def State.frameBytes (s : State) : Option (List Byte) :=
  match Memory.readBytes s.eth 0 Config.ethLen, Memory.readBytes s.buf 0 s.hlen.toNat with
  | some e, some b => some (e ++ b)
  | _, _ => none

/-- `FRAME`, defined only while `FRAME_VALID` = 1 (R31). -/
def State.frame (s : State) : Option (List Byte) := if s.frameValid then s.frameBytes else none

/-- The output ports (R32, R65). -/
structure Outputs where
  ph : BitVec 3
  err : BitVec 2
  esub : BitVec 2
  ecmd : BitVec 8
  hlen : BitVec 16
  acc : BitVec 32
  ck : BitVec 16
  frameValid : Bool
  frame : Option (List Byte)
deriving DecidableEq, Repr

/-- What the host sees, as levels (R32, R65). -/
def State.outputs (s : State) : Outputs where
  ph := s.ph.code
  err := s.err.code
  esub := s.esub.code
  ecmd := s.ecmd
  hlen := s.hlen
  acc := s.acc
  ck := s.ck
  frameValid := s.frameValid
  frame := s.frame

end Sys2Proof.Machine
end

