-- ==== Sys2Proof/Machine/FieldLoad.lean ====
section
/-! DEFINITION. The field-load commands (`40_field_load.md` R67 to R79). -/

namespace Sys2Proof.Machine

/-- The template of R67: phase check, width check, `F[i] <- V[w-1:0]`. -/
def loadField (i : Instr) (f : Field) (v : Nat) (s : State) : Result :=
  whenAdmitted i [.idle] s (whenFits i f.width v s (.next (s.writeField f v)))

/-- `LDF.DMAC` (R69). -/
def execLdfDmac (v : Nat) (s : State) : Result := loadField (.ldfDmac v) .dstMac v s

/-- `LDF.SMAC` (R70). -/
def execLdfSmac (v : Nat) (s : State) : Result := loadField (.ldfSmac v) .srcMac v s

/-- `LDF.ETYPE` (R71). -/
def execLdfEtype (v : Nat) (s : State) : Result := loadField (.ldfEtype v) .etherType v s

/-- `LDF.VER` (R72). -/
def execLdfVer (v : Nat) (s : State) : Result := loadField (.ldfVer v) .version v s

/-- `LDF.ID` (R73). -/
def execLdfId (v : Nat) (s : State) : Result := loadField (.ldfId v) .ident v s

/-- `LDF.FLAGS` (R74). -/
def execLdfFlags (v : Nat) (s : State) : Result := loadField (.ldfFlags v) .flags v s

/-- `LDF.FRAG` (R75). -/
def execLdfFrag (v : Nat) (s : State) : Result := loadField (.ldfFrag v) .fragOff v s

/-- `LDF.TTL` (R76). -/
def execLdfTtl (v : Nat) (s : State) : Result := loadField (.ldfTtl v) .ttl v s

/-- `LDF.PROTO` (R77). -/
def execLdfProto (v : Nat) (s : State) : Result := loadField (.ldfProto v) .proto v s

/-- `LDF.SRC` (R78). -/
def execLdfSrc (v : Nat) (s : State) : Result := loadField (.ldfSrc v) .srcAddr v s

/-- `LDF.DST` (R79). -/
def execLdfDst (v : Nat) (s : State) : Result := loadField (.ldfDst v) .dstAddr v s

end Sys2Proof.Machine
end

