-- ==== Sys2Proof/Machine/HeaderBuild.lean ====
section
/-! DEFINITION. The Header Builder commands `BLD` and `APB` (`41_header_build.md` R80 to R86). -/

namespace Sys2Proof.Machine

/-- `EthBytes`, the 14 bytes of the Ethernet II header (R83). -/
def ethBytes (s : State) : List Byte :=
  beBytes 6 s.dstMac.toNat ++ beBytes 6 s.srcMac.toNat ++ beBytes 2 s.etherType.toNat

/-- `Ip4Bytes`, the 20 bytes of the IPv4 header before either patch (R82). -/
def ip4Bytes (s : State) : List Byte :=
  [versionAndIhl s.version, Config.dscpEcnFixed] ++ [0x00#8, 0x00#8]
    ++ beBytes 2 s.ident.toNat ++ beBytes 2 (flagsAndFragmentOffset s.flags s.fragOff)
    ++ [s.ttl, s.proto] ++ [0x00#8, 0x00#8]
    ++ beBytes 4 s.srcAddr.toNat ++ beBytes 4 s.dstAddr.toNat

/-- `BLD` (R81). -/
def execBld (s : State) : Result :=
  whenAdmitted .bld [.idle] s
    (andThen (storeBytes .eth 0 (ethBytes s) s) fun t =>
      andThen (storeBytes .buf 0 (ip4Bytes s) t) fun u =>
        .next { u with hlen := BitVec.ofNat 16 Config.ipHdrLen, ph := .built })

/-- The offset `APB` stores at: `HLEN` (R84, R134). -/
def appendOffset (s : State) : Nat := s.hlen.toNat

/-- `APB` (R84): phase, then capacity, which is an equality as R84 writes it (log 12), then operand width. -/
def execApb (v : Nat) (s : State) : Result :=
  whenAdmitted (.apb v) [.built] s
    (if s.hlen.toNat = s.params.hdrCap then .next (enterError .illegalCommand .capacity (Instr.apb v).commandByte s)
     else whenFits (.apb v) 8 v s
      (andThen (storeBytes .buf (appendOffset s) [BitVec.ofNat 8 v] s) fun t =>
        .next { t with hlen := s.hlen + 1#16 }))

end Sys2Proof.Machine
end

