-- ==== Sys2Proof/Machine/Dispatch.lean ====
section
/-! DEFINITION. One arm per command, each a direct call of its meaning. -/

namespace Sys2Proof.Machine

def exec (i : Instr) (s : State) : Host.Outcome State Fault Refusal :=
  match i with
  | .ldfDmac v => Sys2Proof.Machine.execLdfDmac v s
  | .ldfSmac v => Sys2Proof.Machine.execLdfSmac v s
  | .ldfEtype v => Sys2Proof.Machine.execLdfEtype v s
  | .ldfVer v => Sys2Proof.Machine.execLdfVer v s
  | .ldfId v => Sys2Proof.Machine.execLdfId v s
  | .ldfFlags v => Sys2Proof.Machine.execLdfFlags v s
  | .ldfFrag v => Sys2Proof.Machine.execLdfFrag v s
  | .ldfTtl v => Sys2Proof.Machine.execLdfTtl v s
  | .ldfProto v => Sys2Proof.Machine.execLdfProto v s
  | .ldfSrc v => Sys2Proof.Machine.execLdfSrc v s
  | .ldfDst v => Sys2Proof.Machine.execLdfDst v s
  | .bld => Sys2Proof.Machine.execBld s
  | .apb v => Sys2Proof.Machine.execApb v s
  | .pln => Sys2Proof.Machine.execPln s
  | .cks => Sys2Proof.Machine.execCks s
  | .pck => Sys2Proof.Machine.execPck s
  | .emt => Sys2Proof.Machine.execEmt s
  | .clr => Sys2Proof.Machine.execClr s

end Sys2Proof.Machine
end

