-- ==== Sys2Proof/Machine/Port.lean ====
section
/-! DEFINITION. The command port: what one step takes from the input ports and what it does with it (`30_encoding.md` R65,
R66). The commands' meaning is an argument here, so that this file stands below the dispatch. -/

namespace Sys2Proof.Machine

/-- The state as the step's input sample is taken: `TX_RESULT` shows the sample's level and the sample is used up. -/
def takeSample (p : PortSample) (rest : List PortSample) (s : State) : State := { s with tx := p.tx, inputs := rest }

/-- Run the command word: the command it decodes to, or the error of a reserved encoding (R57, R58). -/
def runWord (run : Instr → State → Result) (c : CmdWord) (s : State) : Result :=
  match decode c with
  | .ok i => run i s
  | .error _ => .next (rejectReserved c s)

/-- One sample: `RST` decides first (DEDUCED, log 10), then `CMD_VALID`; with neither, nothing changes (R66). -/
def runSample (run : Instr → State → Result) (p : PortSample) (s : State) : Result :=
  if p.rst then .next (resetBlock s)
  else if p.cmdValid then runWord run p.cmd s
  else .next s

/-- One step. With no input left the host presents nothing and nothing changes (R58, R66; log 1). -/
def stepWith (run : Instr → State → Result) (s : State) : Result :=
  match s.inputs with
  | [] => .next s
  | p :: rest => runSample run p (takeSample p rest s)

/-- The sample of a host that presents one command word: `RST` = 0, `CMD_VALID` = 1, `TX_RESULT` as it stands. -/
def commandSample (c : CmdWord) (s : State) : PortSample := { rst := false, cmdValid := true, cmd := c, tx := s.tx }

/-- The host presents a command word in the next step, before whatever it was going to drive (log 2). -/
def presentWord (c : CmdWord) (s : State) : State := { s with inputs := commandSample c s :: s.inputs }

end Sys2Proof.Machine
end

