-- ==== Sys2Proof/Machine/Step.lean ====
section
/-! DEFINITION. One step of the block (`30_encoding.md` R66) and the presentation of a single command word to it. -/

namespace Sys2Proof.Machine

/-- One step: a reset, one command, or nothing (R66). -/
def step (s : State) : Host.Outcome State Fault Refusal := stepWith exec s

/-- `s` with the host presenting the word `w`, numbered as the opcode table numbers it, in the very next step (log 2). -/
def State.withFetchWord (s : State) (nbits w : Nat) : State := presentWord (tableWord nbits w) s

end Sys2Proof.Machine
end

