-- ==== Sys2Proof/Machine/Assembler.lean ====
section
/-! DEFINITION. The assembler's line syntax and the pseudo-instructions (`30_encoding.md` R63, R64), over lists of
characters. It stands beside the machine and no step uses it. -/

namespace Sys2Proof.Machine

/-- The pseudo-instructions of R64. -/
inductive Pseudo where
  | run
  | send
  | vfy
deriving DecidableEq, Repr

/-- Their expansions (R64). -/
def Pseudo.expand : Pseudo → List Instr
  | .run => [.bld, .pln, .cks, .pck]
  | .send => [.bld, .pln, .cks, .pck, .emt]
  | .vfy => [.cks]

/-- The value of a digit; letters of either case (log 15). -/
def digitValue (c : Char) : Option Nat :=
  let n := c.toNat
  if 48 ≤ n ∧ n ≤ 57 then some (n - 48)
  else if 97 ≤ n ∧ n ≤ 102 then some (n - 87)
  else if 65 ≤ n ∧ n ≤ 70 then some (n - 55)
  else none

/-- The digits of a number in a base, read on from `acc`. -/
def readDigits (base acc : Nat) (cs : List Char) : Option Nat :=
  match cs with
  | [] => some acc
  | c :: rest =>
    match digitValue c with
    | some d => if d < base then readDigits base (acc * base + d) rest else none
    | none => none

/-- A number: at least one digit. -/
def readNumber (base : Nat) (cs : List Char) : Option Nat :=
  match cs with
  | [] => none
  | _ => readDigits base 0 cs

/-- A non-negative integer literal in decimal, `0x` hexadecimal or `0b` binary (R63). -/
def readInteger (cs : List Char) : Option Nat :=
  match cs with
  | '0' :: 'x' :: rest => readNumber 16 rest
  | '0' :: 'b' :: rest => readNumber 2 rest
  | _ => readNumber 10 cs

/-- Cut a list of characters at every separator; the pieces may be empty. -/
def pieces (sep : Char) (cs : List Char) : List (List Char) :=
  match cs with
  | [] => [[]]
  | c :: rest =>
    match pieces sep rest with
    | [] => [[]]
    | p :: ps => if c = sep then [] :: p :: ps else (c :: p) :: ps

/-- One two-digit hexadecimal group (R63). -/
def readGroup (cs : List Char) : Option Nat := if cs.length = 2 then readNumber 16 cs else none

/-- One decimal number 0 … 255 (R63). -/
def readOctet (cs : List Char) : Option Nat :=
  match readNumber 10 cs with
  | some n => if n ≤ 255 then some n else none
  | none => none

/-- `aa:bb:cc:dd:ee:ff` for the 48-bit value 0xaabbccddeeff (R63). -/
def readMac (cs : List Char) : Option Nat :=
  match (pieces ':' cs).map readGroup with
  | [some a, some b, some c, some d, some e, some f] =>
    some ((a <<< 40) ||| (b <<< 32) ||| (c <<< 24) ||| (d <<< 16) ||| (e <<< 8) ||| f)
  | _ => none

/-- `a.b.c.d` for the 32-bit value `(a<<24)|(b<<16)|(c<<8)|d` (R63). -/
def readQuad (cs : List Char) : Option Nat :=
  match (pieces '.' cs).map readOctet with
  | [some a, some b, some c, some d] => some ((a <<< 24) ||| (b <<< 16) ||| (c <<< 8) ||| d)
  | _ => none

/-- An operand: an integer literal or one of the two shorthands (R63). -/
def readOperand (cs : List Char) : Option Nat :=
  match readInteger cs, readMac cs, readQuad cs with
  | some n, _, _ => some n
  | none, some n, _ => some n
  | none, none, some n => some n
  | none, none, none => none

/-- The commands of formats L and V by mnemonic (R54, R56). -/
def operandMnemonic (cs : List Char) (v : Nat) : Option Instr :=
  if cs = "LDF.DMAC".toList then some (.ldfDmac v)
  else if cs = "LDF.SMAC".toList then some (.ldfSmac v)
  else if cs = "LDF.ETYPE".toList then some (.ldfEtype v)
  else if cs = "LDF.VER".toList then some (.ldfVer v)
  else if cs = "LDF.ID".toList then some (.ldfId v)
  else if cs = "LDF.FLAGS".toList then some (.ldfFlags v)
  else if cs = "LDF.FRAG".toList then some (.ldfFrag v)
  else if cs = "LDF.TTL".toList then some (.ldfTtl v)
  else if cs = "LDF.PROTO".toList then some (.ldfProto v)
  else if cs = "LDF.SRC".toList then some (.ldfSrc v)
  else if cs = "LDF.DST".toList then some (.ldfDst v)
  else if cs = "APB".toList then some (.apb v)
  else none

/-- The commands of format N and the pseudo-instructions by mnemonic (R54, R56, R64). -/
def bareMnemonic (cs : List Char) : Option (List Instr) :=
  if cs = "BLD".toList then some [.bld]
  else if cs = "PLN".toList then some [.pln]
  else if cs = "CKS".toList then some [.cks]
  else if cs = "PCK".toList then some [.pck]
  else if cs = "EMT".toList then some [.emt]
  else if cs = "CLR".toList then some [.clr]
  else if cs = "RUN".toList then some Pseudo.run.expand
  else if cs = "SEND".toList then some Pseudo.send.expand
  else if cs = "VFY".toList then some Pseudo.vfy.expand
  else none

/-- The characters before a comment, which `;` starts (R63). -/
def dropComment (cs : List Char) : List Char := cs.takeWhile (fun c => decide (c ≠ ';'))

/-- The blank-separated parts of a line; tabs count as blanks (log 15). -/
def lineParts (cs : List Char) : List (List Char) :=
  (pieces ' ' ((dropComment cs).map fun c => if c = '\t' then ' ' else c)).filter (fun p => decide (p ≠ []))

/-- The commands of one line, or none for an assembly error. A line without a mnemonic stands for no command. The assembler
makes no range check but that the operand can be encoded (R63). -/
def assembleLine (cs : List Char) : Option (List Instr) :=
  match lineParts cs with
  | [] => some []
  | [m] => bareMnemonic m
  | [m, o] =>
    match readOperand o with
    | some v =>
      match operandMnemonic m v with
      | some i => if i.wf then some [i] else none
      | none => none
    | none => none
  | _ => none

/-- The command words of a program, one line after the other, or none if a line is an assembly error. -/
def assemble (lines : List (List Char)) : Option (List CmdWord) :=
  match lines with
  | [] => some []
  | l :: rest =>
    match assembleLine l, assemble rest with
    | some is, some ws => some (is.map encode ++ ws)
    | _, _ => none

end Sys2Proof.Machine
end

