-- ==== Sys2Proof/Safety.lean ====
section
/-! DEFINITION. What counts as a safe state: the invariants of `10_state.md` R34 as predicates of one state, with the facts
about a state that other rules give, and the admission table of R21 as the spec prints it. -/

namespace Sys2Proof

/-- The declared width of a command's operand, for the formats that check one (R14, R54, R55). -/
def Instr.operandWidth : Instr → Option Nat
  | .ldfDmac _ => some 48
  | .ldfSmac _ => some 48
  | .ldfEtype _ => some 16
  | .ldfVer _ => some 4
  | .ldfId _ => some 16
  | .ldfFlags _ => some 3
  | .ldfFrag _ => some 13
  | .ldfTtl _ => some 8
  | .ldfProto _ => some 8
  | .ldfSrc _ => some 32
  | .ldfDst _ => some 32
  | .apb _ => some 8
  | .bld => none
  | .pln => none
  | .cks => none
  | .pck => none
  | .emt => none
  | .clr => none

end Sys2Proof

namespace Sys2Proof.Machine

/-- The table of R21: the commands a phase admits. -/
def Phase.admits : Phase → Instr → Bool
  | .idle, i => decide (i.format = .L ∨ i = .bld ∨ i = .clr)
  | .built, i => decide (i.format = .V ∨ i = .pln ∨ i = .clr)
  | .lenp, i => decide (i = .cks ∨ i = .clr)
  | .summed, i => decide (i = .pck ∨ i = .clr)
  | .done, i => decide (i = .cks ∨ i = .emt ∨ i = .clr)
  | .sent, i => decide (i = .clr)

/-- In this step the host presents the command word `c`, and `s'` is the state with the input sample taken (R66). -/
def State.Presents (s : State) (c : CmdWord) (s' : State) : Prop :=
  ∃ p rest, s.inputs = p :: rest ∧ p.rst = false ∧ p.cmdValid = true ∧ p.cmd = c ∧
    s' = { s with inputs := rest, tx := p.tx }

/-- In this step the host asserts `RST`, and `s'` is the state with the input sample taken (R66). -/
def State.PresentsReset (s : State) (s' : State) : Prop :=
  ∃ p rest, s.inputs = p :: rest ∧ p.rst = true ∧ s' = { s with inputs := rest, tx := p.tx }

/-- The states of a run (R66): it starts at the reset state, with any legal parameter, any answer of the collaborator and
any inputs to come. -/
inductive Reachable : State → Prop where
  | start (params : Config.Params) (tx : TxResult) (inputs : List PortSample) (h : params.legal) :
      Reachable { State.reset with params := params, tx := tx, inputs := inputs }
  | step (s t : State) (hs : Reachable s) (h : Machine.step s = .next t) : Reachable t

/-- Commands one after the other (R64). -/
def execAll (is : List Instr) (s : State) : Result :=
  match is with
  | [] => .next s
  | i :: rest => andThen (exec i s) (execAll rest)

/-- The Ethernet header on the wire, bit by bit (`20_memory.md` R37, `00_scope.md` R10). -/
def State.wireEth (s : State) : List Byte :=
  [s.dstMac.extractLsb' 40 8, s.dstMac.extractLsb' 32 8, s.dstMac.extractLsb' 24 8, s.dstMac.extractLsb' 16 8,
    s.dstMac.extractLsb' 8 8, s.dstMac.extractLsb' 0 8,
    s.srcMac.extractLsb' 40 8, s.srcMac.extractLsb' 32 8, s.srcMac.extractLsb' 24 8, s.srcMac.extractLsb' 16 8,
    s.srcMac.extractLsb' 8 8, s.srcMac.extractLsb' 0 8,
    s.etherType.extractLsb' 8 8, s.etherType.extractLsb' 0 8]

/-- The IPv4 header on the wire, bit by bit, with the two patched fields as arguments (`20_memory.md` R38, R82). -/
def State.wireIp4 (s : State) (totalLength checksum : BitVec 16) : List Byte :=
  [(s.version ++ 0x5#4 : BitVec 8), 0x00#8,
    totalLength.extractLsb' 8 8, totalLength.extractLsb' 0 8,
    s.ident.extractLsb' 8 8, s.ident.extractLsb' 0 8,
    (s.flags ++ s.fragOff.extractLsb' 8 5 : BitVec 8), s.fragOff.extractLsb' 0 8,
    s.ttl, s.proto,
    checksum.extractLsb' 8 8, checksum.extractLsb' 0 8,
    s.srcAddr.extractLsb' 24 8, s.srcAddr.extractLsb' 16 8, s.srcAddr.extractLsb' 8 8, s.srcAddr.extractLsb' 0 8,
    s.dstAddr.extractLsb' 24 8, s.dstAddr.extractLsb' 16 8, s.dstAddr.extractLsb' 8 8, s.dstAddr.extractLsb' 0 8]

/-- The sum of the ten words of the 20-byte header with totalLength 20 and a zero checksum field, from the field registers
(R38, R82, R90). -/
def State.headerSum (s : State) : Nat :=
  (s.version.toNat * 0x1000 + 0x0500) + 20 + s.ident.toNat + (s.flags.toNat * 0x2000 + s.fragOff.toNat)
    + (s.ttl.toNat * 0x100 + s.proto.toNat)
    + s.srcAddr.toNat / 0x10000 + s.srcAddr.toNat % 0x10000 + s.dstAddr.toNat / 0x10000 + s.dstAddr.toNat % 0x10000

/-- The folded one's-complement sum of `BUF[0..HLEN-1]` (R90, R91), where every byte holds a value. -/
def State.foldedSum (s : State) : Option Nat := (wordSum s.buf s.hlen.toNat).map fold

/-- The parameter is one R7 allows. -/
abbrev State.LegalParams (s : State) : Prop := s.params.legal

/-- The bytes that hold a value are those R29 and R30 say: none before `BLD`, then all of `ETH` and `BUF` below `HLEN`
(DEDUCED from R29 and R30, log 5). -/
abbrev State.SpacesFilled (s : State) : Prop :=
  s.eth.map Prod.fst = List.range (if s.ph = .idle then 0 else Config.ethLen) ∧
    s.buf.map Prod.fst = List.range s.hlen.toNat

/-- R34 item 1. -/
abbrev State.LengthInRange (s : State) : Prop :=
  (s.ph = .idle ↔ s.hlen = 0#16) ∧
    (s.ph ≠ .idle → Config.ipHdrLen ≤ s.hlen.toNat ∧ s.hlen.toNat ≤ s.params.hdrCap)

/-- R34 item 2. -/
abbrev State.ChecksumFieldZero (s : State) : Prop :=
  s.ph = .built ∨ s.ph = .lenp ∨ s.ph = .summed →
    s.readByte .buf 10 = some 0x00#8 ∧ s.readByte .buf 11 = some 0x00#8

/-- R34 item 3. -/
abbrev State.TotalLengthField (s : State) : Prop :=
  (s.ph = .built → s.readByte .buf 2 = some 0x00#8 ∧ s.readByte .buf 3 = some 0x00#8) ∧
    (s.ph ≠ .idle → s.ph ≠ .built → Memory.readValue s.buf 2 2 = some s.hlen.toNat)

/-- R34 item 4. -/
abbrev State.SumVerified (s : State) : Prop := s.ph = .done ∨ s.ph = .sent → s.foldedSum = some 0xFFFF

/-- R34 item 5. -/
abbrev State.FrameOnlySent (s : State) : Prop := s.frameValid = true ↔ s.ph = .sent

/-- R34 item 6, what it says of one state. -/
abbrev State.ErrorPhases (s : State) : Prop :=
  (s.err = .invalidFieldWidth → (s.ph = .idle ∨ s.ph = .built) ∧ s.frameValid = false) ∧
    (s.err = .transmissionFailure → s.ph = .sent ∧ s.ecmd = 0x70#8) ∧
    (s.err = .illegalCommand → s.ph ≠ .sent → s.frameValid = false)

/-- R22 to R24: `ESUB` is 0 unless `ERR` = 3, where it is not 0; `ECMD` is 0x00 while `ERR` = 0. -/
abbrev State.LatchForm (s : State) : Prop :=
  (s.err = .illegalCommand ↔ s.esub ≠ .none) ∧ (s.err = .none → s.ecmd = 0x00#8)

/-- R108: the capacity sub-cause is only latched with a full buffer, in BUILT. -/
abbrev State.CapacityCause (s : State) : Prop :=
  s.esub = .capacity → s.ph = .built ∧ s.hlen.toNat = s.params.hdrCap ∧ s.ecmd = 0x30#8

/-- R82 and R15: once built, the header's first two bytes hold `IHL` = 5 and `DSCP_ECN` = 0. -/
abbrev State.HardwiredFields (s : State) : Prop :=
  s.ph ≠ .idle →
    (s.readByte .buf 0).map (· &&& 0x0F#8) = some 0x05#8 ∧ s.readByte .buf 1 = some 0x00#8

/-- R27, R28, R95: before a `CKS` the checksum registers hold their reset values; after one, `ACC` is a folded sum in
1 … 0xFFFF and `CK` its complement. -/
abbrev State.ChecksumRegisters (s : State) : Prop :=
  (s.ph = .idle ∨ s.ph = .built ∨ s.ph = .lenp → s.acc = 0#32 ∧ s.ck = 0#16) ∧
    (s.ph = .summed ∨ s.ph = .done ∨ s.ph = .sent →
      1 ≤ s.acc.toNat ∧ s.acc.toNat ≤ 0xFFFF ∧ s.ck.toNat = 0xFFFF - s.acc.toNat)

/-- R21, R89: in SUMMED, `ACC` is the folded sum of `BUF`. -/
abbrev State.SummedCurrent (s : State) : Prop := s.ph = .summed → s.foldedSum = some s.acc.toNat

/-- The invariant of the block: R34 items 1 to 6, and what the rules named above add. -/
structure State.Inv (s : State) : Prop where
  params : s.LegalParams
  spaces : s.SpacesFilled
  length : s.LengthInRange
  checksumZero : s.ChecksumFieldZero
  totalLength : s.TotalLengthField
  verified : s.SumVerified
  frameSent : s.FrameOnlySent
  errorPhases : s.ErrorPhases
  latch : s.LatchForm
  capacity : s.CapacityCause
  hardwired : s.HardwiredFields
  checksum : s.ChecksumRegisters
  summed : s.SummedCurrent

end Sys2Proof.Machine
end

