-- ==== Sys2Proof/Certificates/Slice0/Obligations.lean ====
section
/-! DEFINITION. The statements about the block, in the order of the spec's rules. -/

open Sys2Proof Sys2Proof.Machine

/-! ### Encoding -/

/-- `30_encoding.md` R53 to R56: no bit of an encoding is dropped. -/
def Obligations.DecodeOfEncode : Prop :=
  ∀ i : Instr, i.wf = true → decode (encode i) = .ok i

/-- R53, R61: the word of a decoded command is the word that was decoded, but for the operand of a command of format N,
which is not decoded. -/
def Obligations.EncodeOfDecode : Prop :=
  ∀ (c : CmdWord) (i : Instr), decode c = .ok i →
    i.wf = true ∧ cmdByte (encode i) = cmdByte c ∧ (i.format ≠ .N → encode i = c) ∧
      (i.format = .N → ∀ v : BitVec 64, decode (commandWord (cmdByte c) v) = .ok i)

/-- R57. -/
def Obligations.DecoderReadsCommandByte : Prop :=
  (∀ c : CmdWord, (∃ i, decode c = .ok i) ↔
    (cmdOp c = 0x1#4 ∧ (cmdSel c).toNat ≤ 10) ∨
      (2 ≤ (cmdOp c).toNat ∧ (cmdOp c).toNat ≤ 8 ∧ cmdSel c = 0x0#4)) ∧
  (∀ v : BitVec 64,
    decode (commandWord 0x10#8 v) = .ok (.ldfDmac v.toNat) ∧
    decode (commandWord 0x11#8 v) = .ok (.ldfSmac v.toNat) ∧
    decode (commandWord 0x12#8 v) = .ok (.ldfEtype v.toNat) ∧
    decode (commandWord 0x13#8 v) = .ok (.ldfVer v.toNat) ∧
    decode (commandWord 0x14#8 v) = .ok (.ldfId v.toNat) ∧
    decode (commandWord 0x15#8 v) = .ok (.ldfFlags v.toNat) ∧
    decode (commandWord 0x16#8 v) = .ok (.ldfFrag v.toNat) ∧
    decode (commandWord 0x17#8 v) = .ok (.ldfTtl v.toNat) ∧
    decode (commandWord 0x18#8 v) = .ok (.ldfProto v.toNat) ∧
    decode (commandWord 0x19#8 v) = .ok (.ldfSrc v.toNat) ∧
    decode (commandWord 0x1A#8 v) = .ok (.ldfDst v.toNat) ∧
    decode (commandWord 0x20#8 v) = .ok .bld ∧
    decode (commandWord 0x30#8 v) = .ok (.apb v.toNat) ∧
    decode (commandWord 0x40#8 v) = .ok .pln ∧
    decode (commandWord 0x50#8 v) = .ok .cks ∧
    decode (commandWord 0x60#8 v) = .ok .pck ∧
    decode (commandWord 0x70#8 v) = .ok .emt ∧
    decode (commandWord 0x80#8 v) = .ok .clr) ∧
  (∀ c : CmdWord, commandWord (cmdByte c) (cmdOperand c) = c) ∧
  ((List.range 256).filter fun b => (decode (commandWord (BitVec.ofNat 8 b) 0#64)).isOk).length = 18

/-- R58: the reserved encodings, and what presenting one does. -/
def Obligations.ReservedWordsRaiseIllegalCommand : Prop :=
  (∀ c : CmdWord,
    (decode c = .error .opZero ↔ cmdOp c = 0x0#4) ∧
    (decode c = .error .opUnassigned ↔ 9 ≤ (cmdOp c).toNat) ∧
    (decode c = .error .loadSelector ↔ cmdOp c = 0x1#4 ∧ 11 ≤ (cmdSel c).toNat) ∧
    (decode c = .error .selectorNotZero ↔ 2 ≤ (cmdOp c).toNat ∧ (cmdOp c).toNat ≤ 8 ∧ cmdSel c ≠ 0x0#4)) ∧
  decode 0#72 = .error .opZero ∧
  (∀ (s s' : State) (c : CmdWord) (e : Reserved), s.Presents c s' → decode c = .error e →
    (s.err = .none →
      step s = .next { s' with err := .illegalCommand, esub := .reserved, ecmd := cmdByte c }) ∧
    (s.err ≠ .none → step s = .next s'))

/-- Words written out from the spec's encodings: the examples of R53, R69 to R79, R81, R84, R88, R89, R93, R101, R102. -/
def Obligations.WrittenOutWordsDecode : Prop :=
  decodeTableWord 72 0x1000000123456789AB = some (.ldfDmac 0x0123456789AB) ∧
  decodeTableWord 72 0x110000FFFFFFFFFFFF = some (.ldfSmac 0xFFFFFFFFFFFF) ∧
  decodeTableWord 72 0x120000000000000806 = some (.ldfEtype 0x0806) ∧
  decodeTableWord 72 0x17000000000000000A = some (.ldfTtl 0x0A) ∧
  decodeTableWord 72 0x1900000000C0A8010A = some (.ldfSrc 0xC0A8010A) ∧
  decodeTableWord 72 0x200000000000000000 = some .bld ∧
  decodeTableWord 72 0x3000000000000000AB = some (.apb 0xAB) ∧
  decodeTableWord 72 0x400000000000000000 = some .pln ∧
  decodeTableWord 72 0x500000000000000000 = some .cks ∧
  decodeTableWord 72 0x600000000000000000 = some .pck ∧
  decodeTableWord 72 0x700000000000000000 = some .emt ∧
  decodeTableWord 72 0x80FFFFFFFFFFFFFFFF = some .clr ∧
  decodeTableWord 72 0x1B0000000000000000 = none

/-! ### The step -/

/-- R66: a command word that is presented and decodes is run. -/
def Obligations.StepRunsDecodedCommand : Prop :=
  ∀ (s s' : State) (c : CmdWord) (i : Instr), s.Presents c s' → decode c = .ok i → step s = exec i s'

/-- R66: with `RST` the state becomes the reset state; with no command nothing changes. The list of inputs, and that `RST`
decides before `CMD_VALID`, are the model's (log 1, log 10). -/
def Obligations.StepResetsOrIdles : Prop :=
  (∀ s s' : State, s.PresentsReset s' →
    step s = .next { State.reset with params := s.params, tx := s'.tx, inputs := s'.inputs }) ∧
  (∀ (s : State) (p : PortSample) (rest : List PortSample), s.inputs = p :: rest → p.rst = false → p.cmdValid = false →
    step s = .next { s with inputs := rest, tx := p.tx }) ∧
  (∀ s : State, s.inputs = [] → step s = .next s)

/-- The model's presentation of one word (log 2): the very next step runs it on the state as it stood. -/
def Obligations.PresentedWordRunsNext : Prop :=
  ∀ (s : State) (w : Nat) (i : Instr), decodeTableWord 72 w = some i → step (s.withFetchWord 72 w) = exec i s

/-- R65, R66: in a state that satisfies the invariant every step is taken and completes. That the collaborator answers is the
model's reading of U2 (log 8). -/
def Obligations.StepAlwaysCompletes : Prop :=
  ∀ s : State, s.Inv → ∃ t, step s = .next t

/-! ### Reset and clear -/

/-- R35. -/
def Obligations.ResetValues : Prop :=
  State.reset.dstMac.toNat = 0 ∧ State.reset.srcMac.toNat = 0 ∧ State.reset.etherType.toNat = 0x0800 ∧
  State.reset.version.toNat = 4 ∧ State.reset.ident.toNat = 0 ∧ State.reset.flags.toNat = 2 ∧
  State.reset.fragOff.toNat = 0 ∧ State.reset.ttl.toNat = 0x0A ∧ State.reset.proto.toNat = 1 ∧
  State.reset.srcAddr.toNat = 0x7F000001 ∧ State.reset.dstAddr.toNat = 0x7F000001 ∧
  State.reset.ph.code = 0#3 ∧ State.reset.err.code = 0#2 ∧ State.reset.esub.code = 0#2 ∧ State.reset.ecmd = 0x00#8 ∧
  State.reset.hlen = 0#16 ∧ State.reset.frameValid = false ∧ State.reset.acc = 0#32 ∧ State.reset.ck = 0#16 ∧
  (∀ (sp : Space) (a : Nat), State.reset.readByte sp a = none)

/-- R102: `CLR`, whatever its operand, gives the reset state in every phase and with any error latched. -/
def Obligations.ClearRestoresReset : Prop :=
  (∀ v : BitVec 64, decode (commandWord 0x80#8 v) = .ok .clr) ∧
  ∀ s : State, ∃ t, exec .clr s = .next t ∧
    (∀ f : Field, t.readField f = State.reset.readField f) ∧
    t.ph = .idle ∧ t.err = .none ∧ t.esub = .none ∧ t.ecmd = 0x00#8 ∧ t.hlen = 0#16 ∧ t.frameValid = false ∧
    t.acc = 0#32 ∧ t.ck = 0#16 ∧ (∀ (sp : Space) (a : Nat), t.readByte sp a = none)

/-- R125: the reset input and the clear command do the same. -/
def Obligations.ResetInputEqualsClear : Prop :=
  ∀ (s : State) (c d : CmdWord) (valid : Bool) (tx : TxResult) (rest : List PortSample), decode d = .ok .clr →
    step { s with inputs := ⟨true, valid, c, tx⟩ :: rest } = step { s with inputs := ⟨false, true, d, tx⟩ :: rest }

/-! ### Field loads -/

/-- R69 to R79: in IDLE with no error latched, an operand that fits is loaded into the command's own register and nothing
else changes. -/
def Obligations.FieldLoadsComplete : Prop :=
  ∀ (s : State) (v : Nat), s.err = .none → s.ph = .idle →
    (v < 2 ^ 48 → exec (.ldfDmac v) s = .next { s with dstMac := BitVec.ofNat 48 v }) ∧
    (v < 2 ^ 48 → exec (.ldfSmac v) s = .next { s with srcMac := BitVec.ofNat 48 v }) ∧
    (v < 2 ^ 16 → exec (.ldfEtype v) s = .next { s with etherType := BitVec.ofNat 16 v }) ∧
    (v < 2 ^ 4 → exec (.ldfVer v) s = .next { s with version := BitVec.ofNat 4 v }) ∧
    (v < 2 ^ 16 → exec (.ldfId v) s = .next { s with ident := BitVec.ofNat 16 v }) ∧
    (v < 2 ^ 3 → exec (.ldfFlags v) s = .next { s with flags := BitVec.ofNat 3 v }) ∧
    (v < 2 ^ 13 → exec (.ldfFrag v) s = .next { s with fragOff := BitVec.ofNat 13 v }) ∧
    (v < 2 ^ 8 → exec (.ldfTtl v) s = .next { s with ttl := BitVec.ofNat 8 v }) ∧
    (v < 2 ^ 8 → exec (.ldfProto v) s = .next { s with proto := BitVec.ofNat 8 v }) ∧
    (v < 2 ^ 32 → exec (.ldfSrc v) s = .next { s with srcAddr := BitVec.ofNat 32 v }) ∧
    (v < 2 ^ 32 → exec (.ldfDst v) s = .next { s with dstAddr := BitVec.ofNat 32 v })

/-- R67, the template, for each of the eleven registers: the command byte, the phase check, the width check, the load, and
that nothing else is written. -/
def Obligations.LoadTemplate : Prop :=
  ∀ (f : Field) (v : Nat) (s : State), s.err = .none →
    (f.load v).format = .L ∧ (cmdByte (encode (f.load v))).toNat = 0x10 + f.selector ∧
    (s.ph ≠ .idle →
      exec (f.load v) s =
        .next { s with err := .illegalCommand, esub := .phase, ecmd := BitVec.ofNat 8 (0x10 + f.selector) }) ∧
    (s.ph = .idle → 2 ^ f.width ≤ v →
      exec (f.load v) s =
        .next { s with err := .invalidFieldWidth, esub := .none, ecmd := BitVec.ofNat 8 (0x10 + f.selector) }) ∧
    (s.ph = .idle → v < 2 ^ f.width →
      ∃ t, exec (f.load v) s = .next t ∧ t.readField f = v ∧
        (∀ g : Field, g ≠ f → t.readField g = s.readField g) ∧
        { t with dstMac := s.dstMac, srcMac := s.srcMac, etherType := s.etherType, version := s.version,
                 ident := s.ident, flags := s.flags, fragOff := s.fragOff, ttl := s.ttl, proto := s.proto,
                 srcAddr := s.srcAddr, dstAddr := s.dstAddr } = s)

/-- R68: the largest operand accepted is 2^w − 1, the smallest refused is 2^w, and of repeated loads the last one wins. -/
def Obligations.LoadBoundsAndLastWins : Prop :=
  ∀ (f : Field) (s : State), s.err = .none → s.ph = .idle →
    (∃ t, exec (f.load (2 ^ f.width - 1)) s = .next t ∧ t.readField f = 2 ^ f.width - 1 ∧ t.err = .none) ∧
    (∃ t, exec (f.load (2 ^ f.width)) s = .next t ∧ t.readField f = s.readField f ∧ t.err = .invalidFieldWidth) ∧
    (∀ v w : Nat, v < 2 ^ f.width → w < 2 ^ f.width →
      andThen (exec (f.load v) s) (exec (f.load w)) = exec (f.load w) s)

/-! ### The Header Builder -/

/-- R81 to R83: the built bytes, bit by bit, and the frame of `BLD`. -/
def Obligations.BuildWritesBothHeaders : Prop :=
  encode .bld = 0x200000000000000000#72 ∧
  ∀ s : State, s.err = .none →
    (s.ph ≠ .idle →
      exec .bld s = .next { s with err := .illegalCommand, esub := .phase, ecmd := 0x20#8 }) ∧
    (s.ph = .idle → s.params.legal →
      ∃ t, exec .bld s = .next t ∧
        Memory.readBytes t.eth 0 14 = some s.wireEth ∧
        Memory.readBytes t.buf 0 20 = some (s.wireIp4 0#16 0#16) ∧
        t.hlen = 20#16 ∧ t.ph = .built ∧
        (∀ a, 14 ≤ a → t.readByte .eth a = s.readByte .eth a) ∧
        (∀ a, 20 ≤ a → t.readByte .buf a = s.readByte .buf a) ∧
        { t with eth := s.eth, buf := s.buf, hlen := s.hlen, ph := s.ph } = s)

/-- R85: the two fixed points of `BLD`. -/
def Obligations.BuildFixedPoints : Prop :=
  (∃ t, exec .bld State.reset = .next t ∧
    Memory.readBytes t.buf 0 20 = some
      [0x45, 0x00, 0x00, 0x00, 0x00, 0x00, 0x40, 0x00, 0x0A, 0x01, 0x00, 0x00, 0x7F, 0x00, 0x00, 0x01,
        0x7F, 0x00, 0x00, 0x01]) ∧
  (∃ t, exec .bld { State.reset with
      dstMac := BitVec.allOnes 48, srcMac := BitVec.allOnes 48, etherType := BitVec.allOnes 16,
      version := BitVec.allOnes 4, ident := BitVec.allOnes 16, flags := BitVec.allOnes 3, fragOff := BitVec.allOnes 13,
      ttl := BitVec.allOnes 8, proto := BitVec.allOnes 8, srcAddr := BitVec.allOnes 32, dstAddr := BitVec.allOnes 32 }
      = .next t ∧
    Memory.readBytes t.eth 0 14 = some (List.replicate 14 0xFF) ∧
    Memory.readBytes t.buf 0 20 = some
      [0xF5, 0x00, 0x00, 0x00, 0xFF, 0xFF, 0xFF, 0xFF, 0xFF, 0xFF, 0x00, 0x00, 0xFF, 0xFF, 0xFF, 0xFF,
        0xFF, 0xFF, 0xFF, 0xFF])

/-- R86: what is built depends on the eleven field registers alone. -/
def Obligations.BuildIsFunctionOfFields : Prop :=
  ∀ s s' t t' : State, s.err = .none → s'.err = .none → s.ph = .idle → s'.ph = .idle →
    (∀ f : Field, s.readField f = s'.readField f) → exec .bld s = .next t → exec .bld s' = .next t' →
    t.hlen = 20#16 ∧ t'.hlen = 20#16 ∧ (∀ a < 14, t.readByte .eth a = t'.readByte .eth a ∧ (t.readByte .eth a).isSome) ∧
      (∀ a < 20, t.readByte .buf a = t'.readByte .buf a ∧ (t.readByte .buf a).isSome)

/-- R84: the append, its three refusals in their order, and its frame. -/
def Obligations.AppendOneByte : Prop :=
  ∀ (s : State) (v : Nat), s.err = .none →
    cmdByte (encode (.apb v)) = 0x30#8 ∧
    (s.ph ≠ .built →
      exec (.apb v) s = .next { s with err := .illegalCommand, esub := .phase, ecmd := 0x30#8 }) ∧
    (s.ph = .built → s.hlen.toNat = s.params.hdrCap →
      exec (.apb v) s = .next { s with err := .illegalCommand, esub := .capacity, ecmd := 0x30#8 }) ∧
    (s.ph = .built → s.hlen.toNat ≠ s.params.hdrCap → 2 ^ 8 ≤ v →
      exec (.apb v) s = .next { s with err := .invalidFieldWidth, esub := .none, ecmd := 0x30#8 }) ∧
    (s.ph = .built → s.params.legal → s.hlen.toNat < s.params.hdrCap → v < 2 ^ 8 →
      ∃ t, exec (.apb v) s = .next t ∧
        t.readByte .buf s.hlen.toNat = some (BitVec.ofNat 8 v) ∧
        t.hlen.toNat = s.hlen.toNat + 1 ∧
        (∀ a, a ≠ s.hlen.toNat → t.readByte .buf a = s.readByte .buf a) ∧
        { t with buf := s.buf, hlen := s.hlen } = s)

/-! ### The Checksum Engine -/

/-- R88: the length patch, its refusal and its frame. -/
def Obligations.PatchTotalLength : Prop :=
  encode .pln = 0x400000000000000000#72 ∧
  ∀ s : State, s.err = .none →
    (s.ph ≠ .built →
      exec .pln s = .next { s with err := .illegalCommand, esub := .phase, ecmd := 0x40#8 }) ∧
    (s.ph = .built → s.params.legal →
      ∃ t, exec .pln s = .next t ∧
        t.readByte .buf 2 = some (s.hlen.extractLsb' 8 8) ∧ t.readByte .buf 3 = some (s.hlen.extractLsb' 0 8) ∧
        t.ph = .lenp ∧
        (∀ a, a ≠ 2 → a ≠ 3 → t.readByte .buf a = s.readByte .buf a) ∧
        { t with buf := s.buf, ph := s.ph } = s)

/-- R43, R90: the words, the last byte of an odd length padded with a zero low byte, their sum, and its bound. -/
def Obligations.WordSumOfBytes : Prop :=
  ∀ (m : Memory) (n : Nat) (b : Nat → Byte), (∀ a < n, Memory.read m a = some (b a)) →
    (∀ i, 2 * i + 1 < n → word m n i = some (((b (2 * i)).toNat <<< 8) ||| (b (2 * i + 1)).toNat)) ∧
    (∀ i, 2 * i + 1 = n → word m n i = some ((b (2 * i)).toNat <<< 8)) ∧
    ∃ S, wordSum m n = some S ∧
      S = ((List.range ((n + 1) / 2)).map fun i =>
        if 2 * i + 1 < n then ((b (2 * i)).toNat <<< 8) ||| (b (2 * i + 1)).toNat else (b (2 * i)).toNat <<< 8).sum ∧
      (n ≤ 65535 → S ≤ 0x7FFF8000)

/-- R8: a buffer of at most 65535 bytes has at most 32768 words, each at most 0xFFFF, and its sum never reaches 2^32. -/
def Obligations.WordSumBound : Prop :=
  ∀ (m : Memory) (n : Nat), n ≤ 65535 →
    wordCount n ≤ 32768 ∧ (∀ i w, word m n i = some w → w ≤ 0xFFFF) ∧
      ∀ S, wordSum m n = some S → S ≤ 32768 * 0xFFFF ∧ S ≤ 0x7FFF8000 ∧ S < 2 ^ Config.wAcc

/-- R89, R92: `CKS` with every byte below `HLEN` holding a value, and its refusal. -/
def Obligations.ChecksumOfBuffer : Prop :=
  encode .cks = 0x500000000000000000#72 ∧
  ∀ s : State, s.err = .none →
    (s.ph ≠ .lenp → s.ph ≠ .done →
      exec .cks s = .next { s with err := .illegalCommand, esub := .phase, ecmd := 0x50#8 }) ∧
    (s.ph = .lenp ∨ s.ph = .done → (∀ a < s.hlen.toNat, (s.readByte .buf a).isSome) →
      ∃ S t, wordSum s.buf s.hlen.toNat = some S ∧ S < 2 ^ 31 ∧ exec .cks s = .next t ∧
        fold S ≤ 0xFFFF ∧ t.acc.toNat = fold S ∧ t.ck.toNat = 0xFFFF - fold S ∧ t.ck = ~~~(BitVec.ofNat 16 (fold S)) ∧
        (s.ph = .lenp → t.ph = .summed) ∧ (s.ph = .done → t.ph = .done) ∧
        (s.Inv → s.ph = .done → t.acc = 0x0000FFFF#32 ∧ t.ck = 0x0000#16) ∧
        { t with acc := s.acc, ck := s.ck, ph := s.ph } = s)

/-- R95: the closed form of the fold, and what it means for `ACC` and `CK`. -/
def Obligations.FoldClosedForm : Prop :=
  fold 0 = 0 ∧
  (∀ S, 0 < S → fold S = (S - 1) % 0xFFFF + 1) ∧
  (∀ S, fold S = 0xFFFF ↔ 0 < S ∧ 0xFFFF ∣ S) ∧
  (∀ s : State, s.Inv → s.ph ≠ .idle → ∃ w, word s.buf s.hlen.toNat 0 = some w ∧ 0x0500 ≤ w) ∧
  (∀ s t : State, s.Inv → s.err = .none → s.ph = .lenp ∨ s.ph = .done → exec .cks s = .next t →
    t.acc ≠ 0#32 ∧ t.ck ≠ 0xFFFF#16)

/-- R91, R96: the fold is the loop of R91, below 2^32 two passes are always enough, and when the second is needed. -/
def Obligations.TwoFoldPassesSuffice : Prop :=
  (∀ S, fold S = if S > 0xFFFF then fold ((S &&& 0xFFFF) + (S >>> 16)) else S) ∧
  (∀ S, S < 2 ^ 32 →
    fold S = if S ≤ 0xFFFF then S else if foldPass S ≤ 0xFFFF then foldPass S else foldPass (foldPass S)) ∧
  (∀ S, 0xFFFF < S → (fold S ≠ foldPass S ↔ 0x10000 ≤ (S &&& 0xFFFF) + (S >>> 16)))

/-- R98: any permutation of the words gives the same sum, the same `ACC` and the same `CK`; a permutation of single bytes
does not in general. -/
def Obligations.ChecksumIgnoresWordOrder : Prop :=
  (∀ (m m' : Memory) (n n' : Nat),
    List.Perm ((List.range (wordCount n)).map (word m n)) ((List.range (wordCount n')).map (word m' n')) →
    wordSum m n = wordSum m' n') ∧
  (∀ s s' t t' : State, s.err = .none → s'.err = .none → s.ph = .lenp ∨ s.ph = .done → s'.ph = .lenp ∨ s'.ph = .done →
    List.Perm ((List.range (wordCount s.hlen.toNat)).map (word s.buf s.hlen.toNat))
      ((List.range (wordCount s'.hlen.toNat)).map (word s'.buf s'.hlen.toNat)) →
    exec .cks s = .next t → exec .cks s' = .next t' →
    wordSum s.buf s.hlen.toNat = wordSum s'.buf s'.hlen.toNat ∧ t.acc = t'.acc ∧ t.ck = t'.ck) ∧
  (∃ a b : Byte, wordSum [(0, a), (1, b)] 2 ≠ wordSum [(0, b), (1, a)] 2)

/-- R93: the checksum patch, its refusal and its frame. -/
def Obligations.PatchChecksum : Prop :=
  encode .pck = 0x600000000000000000#72 ∧
  ∀ s : State, s.err = .none →
    (s.ph ≠ .summed →
      exec .pck s = .next { s with err := .illegalCommand, esub := .phase, ecmd := 0x60#8 }) ∧
    (s.ph = .summed → s.params.legal →
      ∃ t, exec .pck s = .next t ∧
        t.readByte .buf 10 = some (s.ck.extractLsb' 8 8) ∧ t.readByte .buf 11 = some (s.ck.extractLsb' 0 8) ∧
        t.ph = .done ∧
        (∀ a, a ≠ 10 → a ≠ 11 → t.readByte .buf a = s.readByte .buf a) ∧
        { t with buf := s.buf, ph := s.ph } = s)

/-- R94: a verifying `CKS` leaves `ACC` = 0xFFFF and `CK` = 0, in every DONE state and after `CKS` and `PCK` from LENP. -/
def Obligations.PatchedHeaderVerifies : Prop :=
  (∀ s : State, s.Inv → s.err = .none → s.ph = .done →
    exec .cks s = .next { s with acc := 0x0000FFFF#32, ck := 0x0000#16 }) ∧
  (∀ s : State, s.Inv → s.err = .none → s.ph = .lenp →
    ∃ t, execAll [.cks, .pck, .cks] s = .next t ∧ t.ph = .done ∧ t.err = .none ∧
      t.acc = 0x0000FFFF#32 ∧ t.ck = 0x0000#16)

/-- R64, R101, R103: `RUN` and `SEND` from IDLE with no error latched never fail, and `SEND` hands over the headers of the
field registers with totalLength 20 and the checksum the closed form of R95 gives (R81 to R83, R88 to R93); from another
phase they raise IllegalCommand at the first command and the rest is ignored. That the returned count is read off the sampled
input (`State.returnedCount`) is the model's reading, not a rule's (log 9). -/
def Obligations.SendEmitsVerifiedPacket : Prop :=
  (∀ s : State, s.err = .none → s.ph = .idle → s.params.legal →
    (∃ t, execAll Pseudo.run.expand s = .next t ∧ t.ph = .done ∧ t.err = .none ∧ t.hlen = 20#16 ∧
      t.foldedSum = some 0xFFFF) ∧
    (∃ u, execAll Pseudo.send.expand s = .next u ∧ u.ph = .sent ∧
      u.frame = some (s.wireEth ++
        s.wireIp4 20#16 (BitVec.ofNat 16 (0xFFFF - ((s.headerSum - 1) % 0xFFFF + 1)))) ∧
      (∀ n, s.tx = .sent n → u.err = .none ∧ u.returnedCount = some n) ∧
      (s.tx = .fail → u.err = .transmissionFailure))) ∧
  (∀ s : State, s.err = .none → s.ph ≠ .idle →
    execAll Pseudo.run.expand s = .next { s with err := .illegalCommand, esub := .phase, ecmd := 0x20#8 } ∧
    execAll Pseudo.send.expand s = .next { s with err := .illegalCommand, esub := .phase, ecmd := 0x20#8 })

/-- R81, R84, R88 to R90, R93, R94, R101, R103, R131: from IDLE, a build, any bytes that fit the buffer and the engine's four commands hand
over a frame of 34 bytes and the appended ones, with the total length of them all and a sum that verifies. -/
def Obligations.AppendedBytesAreSent : Prop :=
  ∀ (s : State) (bs : List Byte), s.Inv → s.err = .none → s.ph = .idle →
    Config.ipHdrLen + bs.length ≤ s.params.hdrCap →
    ∃ u f, execAll ([.bld] ++ bs.map (fun b => .apb b.toNat) ++ [.pln, .cks, .pck, .emt]) s = .next u ∧
      u.ph = .sent ∧ u.hlen.toNat = 20 + bs.length ∧ u.frame = some f ∧ f.length = 34 + bs.length ∧
      f.take 14 = s.wireEth ∧ f.drop 34 = bs ∧
      Memory.readValue u.buf 2 2 = some (20 + bs.length) ∧ u.foldedSum = some 0xFFFF

/-! ### Hand-off and outputs -/

/-- R101: the hand-off for both answers, what it presents, and its refusal. The count it returns is the model's reading of
`tx`, which is not stored in the block (log 9). -/
def Obligations.HandOff : Prop :=
  encode .emt = 0x700000000000000000#72 ∧
  ∀ s : State, s.err = .none →
    (s.ph ≠ .done →
      exec .emt s = .next { s with err := .illegalCommand, esub := .phase, ecmd := 0x70#8 }) ∧
    (s.ph = .done → ∀ n, s.tx = .sent n →
      exec .emt s = .next { s with frameValid := true, ph := .sent } ∧
        State.returnedCount { s with frameValid := true, ph := .sent } = some n) ∧
    (s.ph = .done → s.tx = .fail →
      exec .emt s = .next { s with frameValid := true, ph := .sent,
                                   err := .transmissionFailure, esub := .none, ecmd := 0x70#8 }) ∧
    (s.ph = .done → ∀ t, exec .emt s = .next t → t.frame = s.frameBytes)

/-- R31: the frame is the bytes of `ETH` and then those of `BUF`, 14 + `HLEN` in all, only while `FRAME_VALID` = 1. -/
def Obligations.FrameIsEthThenBuf : Prop :=
  (∀ s : State, s.frameValid = false → s.frame = none) ∧
  (∀ s : State, s.Inv → s.frameValid = true →
    ∃ bs, s.frame = some bs ∧ bs.length = 14 + s.hlen.toNat ∧
      (∀ k < 14, bs[k]? = s.readByte .eth k) ∧ (∀ k < s.hlen.toNat, bs[14 + k]? = s.readByte .buf k))

/-- R32, with the codes of R21 to R23: what the host sees. -/
def Obligations.OutputsShowRegisters : Prop :=
  (∀ s : State, s.outputs.ph = s.ph.code ∧ s.outputs.err = s.err.code ∧ s.outputs.esub = s.esub.code ∧
    s.outputs.ecmd = s.ecmd ∧ s.outputs.hlen = s.hlen ∧ s.outputs.acc = s.acc ∧ s.outputs.ck = s.ck ∧
    s.outputs.frameValid = s.frameValid ∧ (s.frameValid = true → s.outputs.frame = s.frameBytes)) ∧
  [Phase.idle, .built, .lenp, .summed, .done, .sent].map Phase.code = [0, 1, 2, 3, 4, 5] ∧
  [ErrCode.none, .invalidFieldWidth, .transmissionFailure, .illegalCommand].map ErrCode.code = [0, 1, 2, 3] ∧
  [SubCause.none, .reserved, .phase, .capacity].map SubCause.code = [0, 1, 2, 3]

/-! ### Errors -/

/-- R60: the order of the checks on one command word. -/
def Obligations.CheckOrder : Prop :=
  ∀ (s s' : State) (c : CmdWord), s.Presents c s' →
    (s'.err ≠ .none → cmdByte c ≠ 0x80#8 → step s = .next s') ∧
    (s'.err = .none → ∀ e, decode c = .error e →
      step s = .next { s' with err := .illegalCommand, esub := .reserved, ecmd := cmdByte c }) ∧
    (s'.err = .none → ∀ i, decode c = .ok i →
      (s'.ph.admits i = false →
        step s = .next { s' with err := .illegalCommand, esub := .phase, ecmd := cmdByte c }) ∧
      (s'.ph.admits i = true →
        (i.format = .V → s'.hlen.toNat = s'.params.hdrCap →
          step s = .next { s' with err := .illegalCommand, esub := .capacity, ecmd := cmdByte c }) ∧
        ((i.format = .V → s'.hlen.toNat ≠ s'.params.hdrCap) →
          (∀ w, i.operandWidth = some w → 2 ^ w ≤ i.operand →
            step s = .next { s' with err := .invalidFieldWidth, esub := .none, ecmd := cmdByte c }) ∧
          ((∀ w, i.operandWidth = some w → i.operand < 2 ^ w) →
            step s = exec i s' ∧
              ∀ t, step s = .next t → t.err = .none ∨ (i = .emt ∧ s'.tx = .fail ∧ t.err = .transmissionFailure)))))

/-- R21: the admission table, the transitions, and that no other transition exists. -/
def Obligations.PhaseTransitions : Prop :=
  ∀ (s t : State) (i : Instr),
    (s.err = .none → s.ph.admits i = false →
      exec i s = .next { s with err := .illegalCommand, esub := .phase, ecmd := i.commandByte }) ∧
    (exec i s = .next t →
      t.ph = s.ph ∨ (i = .clr ∧ t.ph = .idle) ∨
        (s.err = .none ∧
          ((s.ph = .idle ∧ i = .bld ∧ t.ph = .built) ∨ (s.ph = .built ∧ i = .pln ∧ t.ph = .lenp) ∨
            (s.ph = .lenp ∧ i = .cks ∧ t.ph = .summed) ∨ (s.ph = .summed ∧ i = .pck ∧ t.ph = .done) ∨
            (s.ph = .done ∧ i = .emt ∧ t.ph = .sent)))) ∧
    (s.err = .none → s.ph.admits i = true → exec i s = .next t →
      (i = .bld → t.ph = .built) ∧ (i = .pln → t.ph = .lenp) ∧ (i = .cks → s.ph = .lenp → t.ph = .summed) ∧
        (i = .cks → s.ph = .done → t.ph = .done) ∧ (i = .pck → t.ph = .done) ∧ (i = .emt → t.ph = .sent) ∧
        (i = .clr → t.ph = .idle) ∧ (i.format = .L → t.ph = .idle) ∧ (i.format = .V → t.ph = .built))

/-- R109: which command can raise what, complete, and that each cause of the table raises an error. -/
def Obligations.ErrorsOfEachCommand : Prop :=
  ∀ (s s' t : State) (c : CmdWord), s.Presents c s' → s'.err = .none → step s = .next t →
    (((∃ e, decode c = .error e) ∨
      ∃ i, decode c = .ok i ∧
        (s'.ph.admits i = false ∨ (i.format = .V ∧ s'.hlen.toNat = s'.params.hdrCap) ∨
          (∃ w, i.operandWidth = some w ∧ 2 ^ w ≤ i.operand) ∨ (i = .emt ∧ s'.tx = .fail))) → t.err ≠ .none) ∧
    (t.err ≠ .none → t.ecmd = cmdByte c ∧
    ((∃ e, decode c = .error e ∧ t.err = .illegalCommand ∧ t.esub = .reserved) ∨
      ∃ i, decode c = .ok i ∧ i ≠ .clr ∧
        ((t.err = .illegalCommand ∧ t.esub = .phase ∧ s'.ph.admits i = false) ∨
          (t.err = .illegalCommand ∧ t.esub = .capacity ∧ s'.ph = .built ∧ i.format = .V ∧
            s'.hlen.toNat = s'.params.hdrCap) ∨
          (t.err = .invalidFieldWidth ∧ t.esub = .none ∧ ∃ w, i.operandWidth = some w ∧ 2 ^ w ≤ i.operand) ∨
          (t.err = .transmissionFailure ∧ t.esub = .none ∧ i = .emt ∧ s'.tx = .fail))))

/-- R112: InvalidFieldWidth and IllegalCommand are precise; TransmissionFailure comes with the effects of the hand-off. -/
def Obligations.ErrorEntryIsPrecise : Prop :=
  ∀ (s s' t : State) (c : CmdWord), s.Presents c s' → s'.err = .none → step s = .next t →
    (t.err = .invalidFieldWidth →
      t = { s' with err := .invalidFieldWidth, esub := .none, ecmd := cmdByte c }) ∧
    (t.err = .illegalCommand →
      t.esub ≠ .none ∧ t = { s' with err := .illegalCommand, esub := t.esub, ecmd := cmdByte c }) ∧
    (t.err = .transmissionFailure →
      decode c = .ok .emt ∧ t = { s' with frameValid := true, ph := .sent,
                                          err := .transmissionFailure, esub := .none, ecmd := cmdByte c })

/-- R113: while an error is latched, every command word whose command byte is not 0x80 has no effect. -/
def Obligations.ErrorStateIsFrozen : Prop :=
  ∀ (s s' : State) (c : CmdWord), s.Presents c s' → s.err ≠ .none → cmdByte c ≠ 0x80#8 → step s = .next s'

/-- R114, R115: out of the error state leads only `CLR` or reset, to the whole reset state, and no second error is
recorded meanwhile. That the arguments of a step are not part of the reset state is the model's reading (log 1, log 4). -/
def Obligations.OnlyClearLeavesErrorState : Prop :=
  (∀ s t : State, s.err ≠ .none → step s = .next t →
    (t.err = s.err ∧ t.esub = s.esub ∧ t.ecmd = s.ecmd) ∨
      (t = { State.reset with params := s.params, tx := t.tx, inputs := t.inputs } ∧
        ((∃ s', s.PresentsReset s') ∨ ∃ c s', s.Presents c s' ∧ cmdByte c = 0x80#8))) ∧
  (∀ s s' : State, (s.PresentsReset s' ∨ ∃ c, s.Presents c s' ∧ cmdByte c = 0x80#8) →
    step s = .next { State.reset with params := s.params, tx := s'.tx, inputs := s'.inputs })

/-- R104, R117: the frame is presented only by an `EMT` in DONE with no error latched, verified and of the length its
totalLength field says; once presented it stays as it is until a clear or a reset. -/
def Obligations.FrameRisesOnceVerified : Prop :=
  ∀ s t : State, s.Inv → step s = .next t →
    (s.frameValid = false → t.frameValid = true →
      s.err = .none ∧ s.ph = .done ∧ t.ph = .sent ∧ (∃ c s', s.Presents c s' ∧ decode c = .ok .emt) ∧
        t.foldedSum = some 0xFFFF ∧ Memory.readValue t.buf 2 2 = some t.hlen.toNat ∧ t.frame.isSome) ∧
    (s.frameValid = true →
      (t.frameValid = true ∧ t.frame = s.frame ∧ t.ph = .sent) ∨
        t = { State.reset with params := s.params, tx := t.tx, inputs := t.inputs })

/-! ### What each command leaves unchanged -/

/-- The frame of the commands that store no byte: the eleven loads, `CKS` and `EMT`. Destinations: `F[i]`; `ACC`, `CK`, `PH`;
`FRAME_VALID`, `PH`; and for each the three latch registers when it raises an error. -/
def Obligations.RegisterCommandsFrame : Prop :=
  (∀ (f : Field) (v : Nat) (s t : State), exec (f.load v) s = .next t →
    (∀ g : Field, g ≠ f → t.readField g = s.readField g) ∧
    (∀ (sp : Space) (a : Nat), t.readByte sp a = s.readByte sp a) ∧
    (t.err ≠ s.err → t.readField f = s.readField f) ∧
    { t with dstMac := s.dstMac, srcMac := s.srcMac, etherType := s.etherType, version := s.version,
             ident := s.ident, flags := s.flags, fragOff := s.fragOff, ttl := s.ttl, proto := s.proto,
             srcAddr := s.srcAddr, dstAddr := s.dstAddr, err := s.err, esub := s.esub, ecmd := s.ecmd } = s) ∧
  (∀ s t : State, exec .cks s = .next t →
    (∀ (sp : Space) (a : Nat), t.readByte sp a = s.readByte sp a) ∧
    (t.err ≠ s.err → t.acc = s.acc ∧ t.ck = s.ck ∧ t.ph = s.ph) ∧
    { t with acc := s.acc, ck := s.ck, ph := s.ph, err := s.err, esub := s.esub, ecmd := s.ecmd } = s) ∧
  (∀ s t : State, exec .emt s = .next t →
    (∀ (sp : Space) (a : Nat), t.readByte sp a = s.readByte sp a) ∧
    (t.err = .illegalCommand → t.frameValid = s.frameValid ∧ t.ph = s.ph) ∧
    { t with frameValid := s.frameValid, ph := s.ph, err := s.err, esub := s.esub, ecmd := s.ecmd } = s)

/-- The frame of the commands that store: `BLD` (14 bytes of `ETH` and 20 of `BUF` from offset 0), `APB` (one byte at
`appendOffset`), `PLN` (two bytes at `totalLengthOffset`) and `PCK` (two at `checksumOffset`). Destination registers:
`HLEN` and `PH`; `HLEN`; `PH`; `PH`; and for each the latch registers when it raises an error, and then no byte changes. -/
def Obligations.StoringCommandsFrame : Prop :=
  (∀ s t : State, exec .bld s = .next t →
    (∀ a, Config.ethLen ≤ a → t.readByte .eth a = s.readByte .eth a) ∧
    (∀ a, Config.ipHdrLen ≤ a → t.readByte .buf a = s.readByte .buf a) ∧
    (t.err ≠ .none → t.eth = s.eth ∧ t.buf = s.buf ∧ t.hlen = s.hlen ∧ t.ph = s.ph) ∧
    { t with eth := s.eth, buf := s.buf, hlen := s.hlen, ph := s.ph,
             err := s.err, esub := s.esub, ecmd := s.ecmd } = s) ∧
  (∀ (v : Nat) (s t : State), exec (.apb v) s = .next t →
    (∀ a, a < appendOffset s ∨ appendOffset s + 1 ≤ a → t.readByte .buf a = s.readByte .buf a) ∧
    (t.err ≠ .none → t.buf = s.buf ∧ t.hlen = s.hlen) ∧
    { t with buf := s.buf, hlen := s.hlen, err := s.err, esub := s.esub, ecmd := s.ecmd } = s) ∧
  (∀ s t : State, exec .pln s = .next t →
    (∀ a, a < totalLengthOffset ∨ totalLengthOffset + 2 ≤ a → t.readByte .buf a = s.readByte .buf a) ∧
    (t.err ≠ .none → t.buf = s.buf ∧ t.ph = s.ph) ∧
    { t with buf := s.buf, ph := s.ph, err := s.err, esub := s.esub, ecmd := s.ecmd } = s) ∧
  (∀ s t : State, exec .pck s = .next t →
    (∀ a, a < checksumOffset ∨ checksumOffset + 2 ≤ a → t.readByte .buf a = s.readByte .buf a) ∧
    (t.err ≠ .none → t.buf = s.buf ∧ t.ph = s.ph) ∧
    { t with buf := s.buf, ph := s.ph, err := s.err, esub := s.esub, ecmd := s.ecmd } = s)

/-- R14, R20, R27 to R30, R48: which commands write which register and which byte space; any other change of it is a
reset. -/
def Obligations.WritersOfEachRegister : Prop :=
  ∀ (s s' t : State) (c : CmdWord), s.Presents c s' → step s = .next t →
    (∀ f : Field, t.readField f ≠ s.readField f →
      decode c = .ok .clr ∨ (s.ph = .idle ∧ s.err = .none ∧ ∃ v, decode c = .ok (f.load v))) ∧
    (t.ph ≠ s.ph → ∃ i ∈ [Instr.bld, .pln, .cks, .pck, .emt, .clr], decode c = .ok i) ∧
    (t.err ≠ s.err ∨ t.esub ≠ s.esub ∨ t.ecmd ≠ s.ecmd → decode c = .ok .clr ∨ s.err = .none) ∧
    (t.hlen ≠ s.hlen → decode c = .ok .bld ∨ (∃ v, decode c = .ok (.apb v)) ∨ decode c = .ok .clr) ∧
    (t.frameValid ≠ s.frameValid → decode c = .ok .emt ∨ decode c = .ok .clr) ∧
    (t.acc ≠ s.acc ∨ t.ck ≠ s.ck → decode c = .ok .cks ∨ decode c = .ok .clr) ∧
    (t.eth ≠ s.eth → decode c = .ok .bld ∨ decode c = .ok .clr) ∧
    (t.buf ≠ s.buf →
      (∃ i ∈ [Instr.bld, .pln, .pck, .clr], decode c = .ok i) ∨ ∃ v, decode c = .ok (.apb v)) ∧
    t.params = s.params ∧ t.inputs = s'.inputs

/-- R133: what happens to the control registers does not depend on the bytes, on `ACC`, on `CK` or on a field register. -/
def Obligations.ControlIgnoresData : Prop :=
  ∀ s₁ s₂ t₁ t₂ : State,
    s₁.ph = s₂.ph → s₁.err = s₂.err → s₁.esub = s₂.esub → s₁.ecmd = s₂.ecmd → s₁.hlen = s₂.hlen →
    s₁.frameValid = s₂.frameValid → s₁.params = s₂.params → s₁.inputs = s₂.inputs →
    step s₁ = .next t₁ → step s₂ = .next t₂ →
    t₁.ph = t₂.ph ∧ t₁.err = t₂.err ∧ t₁.esub = t₂.esub ∧ t₁.ecmd = t₂.ecmd ∧ t₁.hlen = t₂.hlen ∧
      t₁.frameValid = t₂.frameValid

/-- The model's stops (log 5, log 6): only `CKS` refuses, exactly when a byte below `HLEN` holds no value, and only a store
beyond the capacity of `BUF` faults. -/
def Obligations.StopsOnlyOutsideTheSpec : Prop :=
  (∀ (i : Instr) (s : State) (r : Refusal), exec i s = .refused r ↔
    i = .cks ∧ r = .unwrittenByte ∧ s.err = .none ∧ (s.ph = .lenp ∨ s.ph = .done) ∧
      ∃ a < s.hlen.toNat, s.readByte .buf a = none) ∧
  (∀ (i : Instr) (s : State) (e : Fault), exec i s = .fault e → s.params.legal →
    ∃ v, i = .apb v ∧ e = .outsideSpace .buf s.hlen.toNat ∧ s.ph = .built ∧ s.params.hdrCap < s.hlen.toNat) ∧
  (∀ (v : Nat) (s : State), s.err = .none → s.ph = .built → v < 2 ^ 8 → s.params.hdrCap < s.hlen.toNat →
    exec (.apb v) s = .fault (.outsideSpace .buf s.hlen.toNat))

/-! ### Memory -/

/-- R42: a store puts the big-endian bytes of the value at its offsets and leaves every other byte; a read gives the value
back. -/
def Obligations.MemWriteIsBigEndian : Prop :=
  ∀ (s : State) (sp : Space) (a n v : Nat), a + n ≤ s.spaceSize sp → v < 2 ^ (8 * n) →
    ∃ t, memWrite sp a n v s = .next t ∧
      (∀ k < n, t.readByte sp (a + k) = some (BitVec.ofNat 8 (v / 2 ^ (8 * (n - k - 1))))) ∧
      (∀ x, x < a ∨ a + n ≤ x → t.readByte sp x = s.readByte sp x) ∧
      Memory.readValue (t.space sp) a n = some v

/-- The memory keeps its canonical form over every step (the model's representation, log 5). -/
def Obligations.StepKeepsMemoryCanonical : Prop :=
  ∀ s t : State, Memory.wf s.eth = true → Memory.wf s.buf = true → step s = .next t →
    Memory.wf t.eth = true ∧ Memory.wf t.buf = true

/-! ### The invariants -/

/-- The reset state satisfies the invariant, whatever the arguments of the coming steps. -/
def Obligations.ResetSatisfiesInvariant : Prop :=
  ∀ (params : Config.Params) (tx : TxResult) (inputs : List PortSample), params.legal →
    State.Inv { State.reset with params := params, tx := tx, inputs := inputs }

/-- Every step keeps the invariant: R34 items 1 to 6, the form of the latch, and which bytes hold a value (log 5). -/
def Obligations.StepKeepsInvariant : Prop :=
  ∀ s t : State, s.Inv → step s = .next t → t.Inv

/-- R34, its seven items, in every state a run reaches. -/
def Obligations.ReachableStatesMeetR34 : Prop :=
  ∀ s : State, Reachable s →
    ((s.ph = .idle ↔ s.hlen = 0#16) ∧
      (s.ph ≠ .idle → 20 ≤ s.hlen.toNat ∧ s.hlen.toNat ≤ s.params.hdrCap)) ∧
    (s.ph = .built ∨ s.ph = .lenp ∨ s.ph = .summed →
      s.readByte .buf 10 = some 0x00#8 ∧ s.readByte .buf 11 = some 0x00#8) ∧
    (s.ph = .built → s.readByte .buf 2 = some 0x00#8 ∧ s.readByte .buf 3 = some 0x00#8) ∧
    (s.ph ≠ .idle → s.ph ≠ .built → Memory.readValue s.buf 2 2 = some s.hlen.toNat) ∧
    (s.ph = .done ∨ s.ph = .sent → s.foldedSum = some 0xFFFF) ∧
    (s.frameValid = true ↔ s.ph = .sent) ∧
    (s.err = .invalidFieldWidth → (s.ph = .idle ∨ s.ph = .built) ∧ s.frameValid = false) ∧
    (s.err = .transmissionFailure → s.ph = .sent ∧ s.ecmd = 0x70#8) ∧
    (s.err = .illegalCommand → s.ph ≠ .sent → s.frameValid = false) ∧
    (∀ t, step s = .next t →
      t = { State.reset with params := s.params, tx := t.tx, inputs := t.inputs } ∨
        ((s.err ≠ .none → t.ph = s.ph ∧ t.frameValid = s.frameValid) ∧
          (s.ph = .sent → ∀ (sp : Space) (a : Nat), t.readByte sp a = s.readByte sp a)))

/-- R117: no partial success, in every state a run reaches. -/
def Obligations.NoPartialSuccess : Prop :=
  ∀ s : State, Reachable s →
    (s.frameValid = false ∧ s.frame = none ∧
      (s.err ≠ .none → ∀ t, step s = .next t → t.frameValid = false)) ∨
    (s.frameValid = true ∧ s.ph = .sent ∧ s.frame.isSome ∧ s.foldedSum = some 0xFFFF ∧
      ((s.err = .none ∨ s.err = .transmissionFailure) ∨
        (s.err = .illegalCommand ∧ (s.esub = .reserved ∨ s.esub = .phase))))

/-! ### The assembler -/

/-- R63, R64: lines of the spec's programs and the words the spec prints for them. -/
def Obligations.AssemblerWritesSpecWords : Prop :=
  assemble ["LDF.DMAC 01:23:45:67:89:AB".toList, "LDF.SRC 192.168.1.10 ; source".toList, "LDF.PROTO 17".toList,
    "APB 0xAB".toList, "RUN".toList] =
    some [0x1000000123456789AB#72, 0x1900000000C0A8010A#72, 0x180000000000000011#72, 0x3000000000000000AB#72,
      0x200000000000000000#72, 0x400000000000000000#72, 0x500000000000000000#72, 0x600000000000000000#72] ∧
  assembleLine "APB 0x10000000000000000".toList = none ∧
  assembleLine "APB 0xFFFFFFFFFFFFFFFF".toList = some [.apb 0xFFFFFFFFFFFFFFFF]
end

