-- ==== Sys2Proof/Laws/Memory.lean ====
section
/-! SUPPORT. The laws of the memory operations: read after write, the canonical form is kept, which offsets hold a value. -/

namespace Sys2Proof.Laws

open Sys2Proof.Machine

/-! ### One byte -/

@[simp] theorem read_nil (a : Nat) : Memory.read [] a = none := rfl

theorem read_cons (k : Nat) (b : Byte) (m : Memory) (a : Nat) :
    Memory.read ((k, b) :: m) a = if k = a then some b else Memory.read m a := rfl

@[simp] theorem read_write_same (m : Memory) (a : Nat) (b : Byte) : Memory.read (Memory.write m a b) a = some b := by
  induction m with
  | nil => simp [Memory.write, read_cons]
  | cons c m ih =>
    obtain ⟨k, c⟩ := c
    unfold Memory.write
    split_ifs with h1 h2
    · simp [read_cons]
    · simp [read_cons]
    · have : k ≠ a := fun h => h2 h.symm
      simp [read_cons, this, ih]

theorem read_write_other (m : Memory) (a x : Nat) (b : Byte) (h : x ≠ a) :
    Memory.read (Memory.write m a b) x = Memory.read m x := by
  induction m with
  | nil => simp [Memory.write, read_cons, h.symm]
  | cons c m ih =>
    obtain ⟨k, c⟩ := c
    unfold Memory.write
    split_ifs with h1 h2
    · simp [read_cons, h.symm]
    · subst h2; simp [read_cons, h.symm]
    · simp [read_cons, ih]

/-! ### The canonical form -/

theorem wf_cons (k : Nat) (b : Byte) (m : Memory) :
    Memory.wf ((k, b) :: m) = true ↔ (∀ c ∈ m, k < c.1) ∧ Memory.wf m = true := by
  simp [Memory.wf]

theorem mem_write (m : Memory) (a : Nat) (b : Byte) (c : Host.Cell) (h : c ∈ Memory.write m a b) :
    c = (a, b) ∨ c ∈ m := by
  induction m with
  | nil => simpa [Memory.write] using h
  | cons d m ih =>
    obtain ⟨k, d⟩ := d
    unfold Memory.write at h
    split_ifs at h with h1 h2
    · simpa using h
    · rcases List.mem_cons.1 h with h | h
      · exact .inl h
      · exact .inr (List.mem_cons_of_mem _ h)
    · rcases List.mem_cons.1 h with h | h
      · exact .inr (h ▸ List.mem_cons_self)
      · exact (ih h).imp_right (List.mem_cons_of_mem _)

theorem write_wf (m : Memory) (a : Nat) (b : Byte) (h : Memory.wf m = true) : Memory.wf (Memory.write m a b) = true := by
  induction m with
  | nil => simp [Memory.write, Memory.wf]
  | cons c m ih =>
    obtain ⟨k, c⟩ := c
    obtain ⟨hk, hm⟩ := (wf_cons ..).1 h
    unfold Memory.write
    split_ifs with h1 h2
    · refine (wf_cons ..).2 ⟨fun d hd => ?_, h⟩
      rcases List.mem_cons.1 hd with hd | hd
      · exact hd ▸ h1
      · exact h1.trans (hk d hd)
    · exact (wf_cons ..).2 ⟨h2 ▸ hk, hm⟩
    · refine (wf_cons ..).2 ⟨fun d hd => ?_, ih hm⟩
      rcases mem_write m a b d hd with hd | hd
      · subst hd; show k < a; omega
      · exact hk d hd

theorem writeBytes_wf (bs : List Byte) (m : Memory) (a : Nat) (h : Memory.wf m = true) :
    Memory.wf (Memory.writeBytes m a bs) = true := by
  induction bs generalizing m a with
  | nil => exact h
  | cons b bs ih => exact ih _ _ (write_wf m a b h)

/-! ### Byte sequences -/

theorem read_writeBytes_outside (bs : List Byte) (m : Memory) (a x : Nat) (h : x < a ∨ a + bs.length ≤ x) :
    Memory.read (Memory.writeBytes m a bs) x = Memory.read m x := by
  induction bs generalizing m a with
  | nil => rfl
  | cons b bs ih =>
    simp only [List.length_cons] at h
    rw [Memory.writeBytes, ih _ _ (by omega), read_write_other _ _ _ _ (by omega)]

theorem read_writeBytes_inside (bs : List Byte) (m : Memory) (a k : Nat) (h : k < bs.length) :
    Memory.read (Memory.writeBytes m a bs) (a + k) = some bs[k] := by
  induction bs generalizing m a k with
  | nil => simp at h
  | cons b bs ih =>
    rw [Memory.writeBytes]
    cases k with
    | zero => rw [read_writeBytes_outside _ _ _ _ (by omega)]; simp
    | succ k =>
      have := ih (Memory.write m a b) (a + 1) k (by simpa using h)
      rw [show a + (k + 1) = a + 1 + k by omega, this]; simp

/-- `readBytes` succeeds exactly with the bytes that stand at the offsets. -/
theorem readBytes_eq_some (m : Memory) (a n : Nat) (bs : List Byte) :
    Memory.readBytes m a n = some bs ↔ bs.length = n ∧ ∀ k (h : k < bs.length), Memory.read m (a + k) = some bs[k] := by
  induction n generalizing a bs with
  | zero =>
    cases bs with
    | nil => simp [Memory.readBytes]
    | cons b bs => simp [Memory.readBytes]
  | succ n ih =>
    unfold Memory.readBytes
    cases hb : Memory.read m a with
    | none =>
      simp only [reduceCtorEq, false_iff, not_and]
      intro hl hk
      have := hk 0 (by omega)
      simp [hb] at this
    | some b =>
      cases hr : Memory.readBytes m (a + 1) n with
      | none =>
        simp only [reduceCtorEq, false_iff, not_and]
        intro hl hk
        cases bs with
        | nil => simp at hl
        | cons c cs =>
          have : Memory.readBytes m (a + 1) n = some cs := (ih (a + 1) cs).2 ⟨by simpa using hl, fun k h => by
            have := hk (k + 1) (by simpa using h)
            rw [show a + 1 + k = a + (k + 1) by omega, this]; simp⟩
          simp [hr] at this
      | some rs =>
        obtain ⟨hl, hk⟩ := (ih (a + 1) rs).1 hr
        constructor
        · intro h
          obtain rfl : b :: rs = bs := by simpa using h
          refine ⟨by simpa using hl, fun k h => ?_⟩
          cases k with
          | zero => simpa using hb
          | succ k => rw [show a + (k + 1) = a + 1 + k by omega, hk k (by simpa using h)]; simp
        · rintro ⟨hl', hk'⟩
          cases bs with
          | nil => simp at hl'
          | cons c cs =>
            have h0 := hk' 0 (by simp)
            have hc : b = c := by simpa [hb] using h0
            have hcs : Memory.readBytes m (a + 1) n = some cs := (ih (a + 1) cs).2 ⟨by simpa using hl', fun k h => by
              have := hk' (k + 1) (by simpa using h)
              rw [show a + 1 + k = a + (k + 1) by omega, this]; simp⟩
            have : rs = cs := by simpa [hr] using hcs
            simp [hc, this]

/-- A byte sequence just stored is read back. -/
theorem readBytes_writeBytes_same (bs : List Byte) (m : Memory) (a : Nat) :
    Memory.readBytes (Memory.writeBytes m a bs) a bs.length = some bs :=
  (readBytes_eq_some ..).2 ⟨rfl, fun k h => read_writeBytes_inside bs m a k h⟩

/-- Equal bytes are read where every byte read is the same. -/
theorem readBytes_congr (m m' : Memory) (a n : Nat) (h : ∀ k < n, Memory.read m' (a + k) = Memory.read m (a + k)) :
    Memory.readBytes m' a n = Memory.readBytes m a n := by
  induction n generalizing a with
  | zero => rfl
  | succ n ih =>
    have h0 := h 0 (by omega)
    have hr := ih (a + 1) (fun k hk => by rw [show a + 1 + k = a + (k + 1) by omega]; exact h (k + 1) (by omega))
    simp only [Nat.add_zero] at h0
    simp only [Memory.readBytes, h0, hr]

/-! ### Which offsets hold a value -/

/-- An offset holds a value exactly where it is listed. -/
theorem read_isSome_iff (m : Memory) (a : Nat) : (Memory.read m a).isSome = true ↔ a ∈ m.map Prod.fst := by
  induction m with
  | nil => simp
  | cons c m ih =>
    obtain ⟨k, c⟩ := c
    by_cases h : k = a
    · simp [read_cons, h]
    · simp only [read_cons, h, if_false, ih, List.map_cons, List.mem_cons, Ne.symm h, false_or]

/-- A memory whose listed offsets are consecutive has the canonical form. -/
theorem wf_of_range' (m : Memory) (a n : Nat) (h : m.map Prod.fst = List.range' a n) : Memory.wf m = true := by
  induction m generalizing a n with
  | nil => rfl
  | cons c m ih =>
    obtain ⟨k, c⟩ := c
    cases n with
    | zero => simp at h
    | succ n =>
      rw [List.range'_succ] at h
      obtain ⟨rfl, h⟩ : k = a ∧ m.map Prod.fst = List.range' (a + 1) n := by simpa using h
      refine (wf_cons ..).2 ⟨fun d hd => ?_, ih _ _ h⟩
      have : d.1 ∈ List.range' (k + 1) n := h ▸ List.mem_map_of_mem hd
      simp only [List.mem_range'_1] at this
      omega

theorem wf_of_range (m : Memory) (n : Nat) (h : m.map Prod.fst = List.range n) : Memory.wf m = true :=
  wf_of_range' m 0 n (by rw [h, List.range_eq_range'])

/-- A store inside consecutive offsets, or right behind them, leaves consecutive offsets. -/
theorem keys_write_range' (m : Memory) (a n x : Nat) (b : Byte) (h : m.map Prod.fst = List.range' a n)
    (hx : a ≤ x ∧ x ≤ a + n) : (Memory.write m x b).map Prod.fst = List.range' a (max n (x + 1 - a)) := by
  induction m generalizing a n with
  | nil =>
    obtain rfl : n = 0 := by
      have := congrArg List.length h
      simpa using this.symm
    obtain rfl : x = a := by omega
    rw [show max 0 (x + 1 - x) = 1 by omega]
    simp [Memory.write]
  | cons c m ih =>
    obtain ⟨k, c⟩ := c
    cases n with
    | zero => simp at h
    | succ n =>
      rw [List.range'_succ] at h
      obtain ⟨rfl, h⟩ : k = a ∧ m.map Prod.fst = List.range' (a + 1) n := by simpa using h
      unfold Memory.write
      rw [if_neg (by omega)]
      split_ifs with h2
      · subst h2
        rw [show max (n + 1) (x + 1 - x) = n + 1 by omega, List.range'_succ]
        simp [h]
      · have := ih (k + 1) n h (by omega)
        rw [show max (n + 1) (x + 1 - k) = max n (x + 1 - (k + 1)) + 1 by omega, List.range'_succ]
        simp [this]

theorem keys_write_range (m : Memory) (n x : Nat) (b : Byte) (h : m.map Prod.fst = List.range n) (hx : x ≤ n) :
    (Memory.write m x b).map Prod.fst = List.range (max n (x + 1)) := by
  rw [List.range_eq_range'] at h ⊢
  simpa using keys_write_range' m 0 n x b h (by omega)

theorem keys_writeBytes_range (bs : List Byte) (m : Memory) (n x : Nat) (h : m.map Prod.fst = List.range n)
    (hx : x ≤ n) : (Memory.writeBytes m x bs).map Prod.fst = List.range (max n (x + bs.length)) := by
  induction bs generalizing m n x with
  | nil =>
    rw [show max n (x + [].length) = n by simp; omega]
    exact h
  | cons b bs ih =>
    rw [Memory.writeBytes, ih _ _ _ (keys_write_range m n x b h hx) (by omega)]
    congr 1
    simp only [List.length_cons]
    omega

/-- A memory that lists exactly the offsets below `n` holds a value at each of them. -/
theorem read_of_range (m : Memory) (n a : Nat) (h : m.map Prod.fst = List.range n) (ha : a < n) :
    ∃ b, Memory.read m a = some b :=
  Option.isSome_iff_exists.1 ((read_isSome_iff m a).2 (h ▸ List.mem_range.2 ha))

/-- … and to no other offset. -/
theorem read_none_of_range (m : Memory) (n a : Nat) (h : m.map Prod.fst = List.range n) (ha : n ≤ a) :
    Memory.read m a = none := by
  by_contra hne
  have := (read_isSome_iff m a).1 (Option.isSome_iff_ne_none.2 hne)
  rw [h, List.mem_range] at this
  omega

theorem readBytes_of_range (m : Memory) (n a k : Nat) (h : m.map Prod.fst = List.range n) (hk : a + k ≤ n) :
    ∃ bs, Memory.readBytes m a k = some bs ∧ bs.length = k := by
  induction k generalizing a with
  | zero => exact ⟨[], rfl, rfl⟩
  | succ k ih =>
    obtain ⟨b, hb⟩ := read_of_range m n a h (by omega)
    obtain ⟨bs, hbs, hl⟩ := ih (a + 1) (by omega)
    exact ⟨b :: bs, by simp [Memory.readBytes, hb, hbs], by simp [hl]⟩

/-- The memories of the reset state are in canonical form. -/
theorem reset_wf : Memory.wf State.reset.eth = true ∧ Memory.wf State.reset.buf = true := by decide

end Sys2Proof.Laws
end

