-- ==== Sys2Proof/Laws/Operands.lean ====
section
/-! SUPPORT. The laws of the operand forms: lengths and bytes of big-endian encodings, and the packed fields. -/

namespace Sys2Proof.Laws

open Sys2Proof.Machine

@[simp] theorem tooWide_iff (w v : Nat) : tooWide w v = true ↔ 2 ^ w ≤ v := by simp [tooWide]

@[simp] theorem length_beBytes (n v : Nat) : (beBytes n v).length = n := by simp [beBytes]

/-- Byte k of `BE_n(v)` (R10). -/
@[simp] theorem getElem_beBytes (n v k : Nat) (h : k < (beBytes n v).length) :
    (beBytes n v)[k] = BitVec.ofNat 8 (v >>> (8 * (n - 1 - k))) := by simp [beBytes]

theorem beBytes_two (v : Nat) : beBytes 2 v = [BitVec.ofNat 8 (v >>> 8), BitVec.ofNat 8 v] := rfl

/-- Shifting left and OR-ing a value that fits below is an addition. -/
theorem shiftLeft_or (a b n : Nat) (h : b < 2 ^ n) : (a <<< n) ||| b = a * 2 ^ n + b := by
  rw [← Nat.shiftLeft_add_eq_or_of_lt h, Nat.shiftLeft_eq]

theorem beValue_two (a b : Byte) : beValue [a, b] = a.toNat * 256 + b.toNat := by
  show ((0 <<< 8 ||| a.toNat) <<< 8) ||| b.toNat = _
  rw [shiftLeft_or _ _ _ b.isLt, shiftLeft_or _ _ _ a.isLt]
  omega

theorem beValue_one (a : Byte) : beValue [a] = a.toNat := by simp [beValue]

/-- Two bytes stored big-endian read back as the value, if it has 16 bits. -/
theorem beValue_beBytes_two (v : Nat) (h : v < 65536) : beValue (beBytes 2 v) = v := by
  rw [beBytes_two, beValue_two]
  simp only [BitVec.toNat_ofNat, Nat.shiftRight_eq_div_pow]
  omega

/-- The two packed parts keep apart: the low nibble of the first header byte is `IHL` (R82). -/
theorem versionAndIhl_toNat (v : BitVec 4) : (versionAndIhl v).toNat = v.toNat * 16 + 5 := by
  have := v.isLt
  rw [versionAndIhl, shiftLeft_or _ _ _ (by decide), BitVec.toNat_ofNat, Config.ihlFixed]
  omega

theorem flagsAndFragmentOffset_eq (f : BitVec 3) (o : BitVec 13) :
    flagsAndFragmentOffset f o = f.toNat * 8192 + o.toNat := by
  rw [flagsAndFragmentOffset, shiftLeft_or _ _ _ o.isLt]; rfl

end Sys2Proof.Laws
end

