-- ==== Sys2Proof/Laws/State.lean ====
section
/-! SUPPORT. What each shared update of the state leaves and what it writes, one lemma a field, so that no proof unfolds a
record update. -/

namespace Sys2Proof.Laws

open Sys2Proof.Machine

/-! ### `enterError` -/

@[simp] theorem enterError_dstMac (e : ErrCode) (sub : SubCause) (c : Byte) (s : State) :
    (enterError e sub c s).dstMac = s.dstMac := rfl
@[simp] theorem enterError_srcMac (e : ErrCode) (sub : SubCause) (c : Byte) (s : State) :
    (enterError e sub c s).srcMac = s.srcMac := rfl
@[simp] theorem enterError_etherType (e : ErrCode) (sub : SubCause) (c : Byte) (s : State) :
    (enterError e sub c s).etherType = s.etherType := rfl
@[simp] theorem enterError_version (e : ErrCode) (sub : SubCause) (c : Byte) (s : State) :
    (enterError e sub c s).version = s.version := rfl
@[simp] theorem enterError_ident (e : ErrCode) (sub : SubCause) (c : Byte) (s : State) :
    (enterError e sub c s).ident = s.ident := rfl
@[simp] theorem enterError_flags (e : ErrCode) (sub : SubCause) (c : Byte) (s : State) :
    (enterError e sub c s).flags = s.flags := rfl
@[simp] theorem enterError_fragOff (e : ErrCode) (sub : SubCause) (c : Byte) (s : State) :
    (enterError e sub c s).fragOff = s.fragOff := rfl
@[simp] theorem enterError_ttl (e : ErrCode) (sub : SubCause) (c : Byte) (s : State) :
    (enterError e sub c s).ttl = s.ttl := rfl
@[simp] theorem enterError_proto (e : ErrCode) (sub : SubCause) (c : Byte) (s : State) :
    (enterError e sub c s).proto = s.proto := rfl
@[simp] theorem enterError_srcAddr (e : ErrCode) (sub : SubCause) (c : Byte) (s : State) :
    (enterError e sub c s).srcAddr = s.srcAddr := rfl
@[simp] theorem enterError_dstAddr (e : ErrCode) (sub : SubCause) (c : Byte) (s : State) :
    (enterError e sub c s).dstAddr = s.dstAddr := rfl
@[simp] theorem enterError_ph (e : ErrCode) (sub : SubCause) (c : Byte) (s : State) :
    (enterError e sub c s).ph = s.ph := rfl
@[simp] theorem enterError_err (e : ErrCode) (sub : SubCause) (c : Byte) (s : State) :
    (enterError e sub c s).err = e := rfl
@[simp] theorem enterError_esub (e : ErrCode) (sub : SubCause) (c : Byte) (s : State) :
    (enterError e sub c s).esub = sub := rfl
@[simp] theorem enterError_ecmd (e : ErrCode) (sub : SubCause) (c : Byte) (s : State) :
    (enterError e sub c s).ecmd = c := rfl
@[simp] theorem enterError_hlen (e : ErrCode) (sub : SubCause) (c : Byte) (s : State) :
    (enterError e sub c s).hlen = s.hlen := rfl
@[simp] theorem enterError_frameValid (e : ErrCode) (sub : SubCause) (c : Byte) (s : State) :
    (enterError e sub c s).frameValid = s.frameValid := rfl
@[simp] theorem enterError_acc (e : ErrCode) (sub : SubCause) (c : Byte) (s : State) :
    (enterError e sub c s).acc = s.acc := rfl
@[simp] theorem enterError_ck (e : ErrCode) (sub : SubCause) (c : Byte) (s : State) :
    (enterError e sub c s).ck = s.ck := rfl
@[simp] theorem enterError_eth (e : ErrCode) (sub : SubCause) (c : Byte) (s : State) :
    (enterError e sub c s).eth = s.eth := rfl
@[simp] theorem enterError_buf (e : ErrCode) (sub : SubCause) (c : Byte) (s : State) :
    (enterError e sub c s).buf = s.buf := rfl
@[simp] theorem enterError_params (e : ErrCode) (sub : SubCause) (c : Byte) (s : State) :
    (enterError e sub c s).params = s.params := rfl
@[simp] theorem enterError_tx (e : ErrCode) (sub : SubCause) (c : Byte) (s : State) :
    (enterError e sub c s).tx = s.tx := rfl
@[simp] theorem enterError_inputs (e : ErrCode) (sub : SubCause) (c : Byte) (s : State) :
    (enterError e sub c s).inputs = s.inputs := rfl

/-! ### `resetBlock` -/

@[simp] theorem resetBlock_dstMac (s : State) : (resetBlock s).dstMac = State.reset.dstMac := rfl
@[simp] theorem resetBlock_srcMac (s : State) : (resetBlock s).srcMac = State.reset.srcMac := rfl
@[simp] theorem resetBlock_etherType (s : State) : (resetBlock s).etherType = State.reset.etherType := rfl
@[simp] theorem resetBlock_version (s : State) : (resetBlock s).version = State.reset.version := rfl
@[simp] theorem resetBlock_ident (s : State) : (resetBlock s).ident = State.reset.ident := rfl
@[simp] theorem resetBlock_flags (s : State) : (resetBlock s).flags = State.reset.flags := rfl
@[simp] theorem resetBlock_fragOff (s : State) : (resetBlock s).fragOff = State.reset.fragOff := rfl
@[simp] theorem resetBlock_ttl (s : State) : (resetBlock s).ttl = State.reset.ttl := rfl
@[simp] theorem resetBlock_proto (s : State) : (resetBlock s).proto = State.reset.proto := rfl
@[simp] theorem resetBlock_srcAddr (s : State) : (resetBlock s).srcAddr = State.reset.srcAddr := rfl
@[simp] theorem resetBlock_dstAddr (s : State) : (resetBlock s).dstAddr = State.reset.dstAddr := rfl
@[simp] theorem resetBlock_ph (s : State) : (resetBlock s).ph = State.reset.ph := rfl
@[simp] theorem resetBlock_err (s : State) : (resetBlock s).err = State.reset.err := rfl
@[simp] theorem resetBlock_esub (s : State) : (resetBlock s).esub = State.reset.esub := rfl
@[simp] theorem resetBlock_ecmd (s : State) : (resetBlock s).ecmd = State.reset.ecmd := rfl
@[simp] theorem resetBlock_hlen (s : State) : (resetBlock s).hlen = State.reset.hlen := rfl
@[simp] theorem resetBlock_frameValid (s : State) : (resetBlock s).frameValid = State.reset.frameValid := rfl
@[simp] theorem resetBlock_acc (s : State) : (resetBlock s).acc = State.reset.acc := rfl
@[simp] theorem resetBlock_ck (s : State) : (resetBlock s).ck = State.reset.ck := rfl
@[simp] theorem resetBlock_eth (s : State) : (resetBlock s).eth = State.reset.eth := rfl
@[simp] theorem resetBlock_buf (s : State) : (resetBlock s).buf = State.reset.buf := rfl
@[simp] theorem resetBlock_params (s : State) : (resetBlock s).params = s.params := rfl
@[simp] theorem resetBlock_tx (s : State) : (resetBlock s).tx = s.tx := rfl
@[simp] theorem resetBlock_inputs (s : State) : (resetBlock s).inputs = s.inputs := rfl

/-! ### `setSpace` -/

@[simp] theorem setSpace_dstMac (s : State) (sp : Space) (m : Memory) : (s.setSpace sp m).dstMac = s.dstMac := by
  cases sp <;> rfl
@[simp] theorem setSpace_srcMac (s : State) (sp : Space) (m : Memory) : (s.setSpace sp m).srcMac = s.srcMac := by
  cases sp <;> rfl
@[simp] theorem setSpace_etherType (s : State) (sp : Space) (m : Memory) : (s.setSpace sp m).etherType = s.etherType := by
  cases sp <;> rfl
@[simp] theorem setSpace_version (s : State) (sp : Space) (m : Memory) : (s.setSpace sp m).version = s.version := by
  cases sp <;> rfl
@[simp] theorem setSpace_ident (s : State) (sp : Space) (m : Memory) : (s.setSpace sp m).ident = s.ident := by
  cases sp <;> rfl
@[simp] theorem setSpace_flags (s : State) (sp : Space) (m : Memory) : (s.setSpace sp m).flags = s.flags := by
  cases sp <;> rfl
@[simp] theorem setSpace_fragOff (s : State) (sp : Space) (m : Memory) : (s.setSpace sp m).fragOff = s.fragOff := by
  cases sp <;> rfl
@[simp] theorem setSpace_ttl (s : State) (sp : Space) (m : Memory) : (s.setSpace sp m).ttl = s.ttl := by
  cases sp <;> rfl
@[simp] theorem setSpace_proto (s : State) (sp : Space) (m : Memory) : (s.setSpace sp m).proto = s.proto := by
  cases sp <;> rfl
@[simp] theorem setSpace_srcAddr (s : State) (sp : Space) (m : Memory) : (s.setSpace sp m).srcAddr = s.srcAddr := by
  cases sp <;> rfl
@[simp] theorem setSpace_dstAddr (s : State) (sp : Space) (m : Memory) : (s.setSpace sp m).dstAddr = s.dstAddr := by
  cases sp <;> rfl
@[simp] theorem setSpace_ph (s : State) (sp : Space) (m : Memory) : (s.setSpace sp m).ph = s.ph := by
  cases sp <;> rfl
@[simp] theorem setSpace_err (s : State) (sp : Space) (m : Memory) : (s.setSpace sp m).err = s.err := by
  cases sp <;> rfl
@[simp] theorem setSpace_esub (s : State) (sp : Space) (m : Memory) : (s.setSpace sp m).esub = s.esub := by
  cases sp <;> rfl
@[simp] theorem setSpace_ecmd (s : State) (sp : Space) (m : Memory) : (s.setSpace sp m).ecmd = s.ecmd := by
  cases sp <;> rfl
@[simp] theorem setSpace_hlen (s : State) (sp : Space) (m : Memory) : (s.setSpace sp m).hlen = s.hlen := by
  cases sp <;> rfl
@[simp] theorem setSpace_frameValid (s : State) (sp : Space) (m : Memory) : (s.setSpace sp m).frameValid = s.frameValid := by
  cases sp <;> rfl
@[simp] theorem setSpace_acc (s : State) (sp : Space) (m : Memory) : (s.setSpace sp m).acc = s.acc := by
  cases sp <;> rfl
@[simp] theorem setSpace_ck (s : State) (sp : Space) (m : Memory) : (s.setSpace sp m).ck = s.ck := by
  cases sp <;> rfl
@[simp] theorem setSpace_params (s : State) (sp : Space) (m : Memory) : (s.setSpace sp m).params = s.params := by
  cases sp <;> rfl
@[simp] theorem setSpace_tx (s : State) (sp : Space) (m : Memory) : (s.setSpace sp m).tx = s.tx := by
  cases sp <;> rfl
@[simp] theorem setSpace_inputs (s : State) (sp : Space) (m : Memory) : (s.setSpace sp m).inputs = s.inputs := by
  cases sp <;> rfl
@[simp] theorem setSpace_eth_eth (s : State) (m : Memory) : (s.setSpace .eth m).eth = m := rfl
@[simp] theorem setSpace_eth_buf (s : State) (m : Memory) : (s.setSpace .eth m).buf = s.buf := rfl
@[simp] theorem setSpace_buf_buf (s : State) (m : Memory) : (s.setSpace .buf m).buf = m := rfl
@[simp] theorem setSpace_buf_eth (s : State) (m : Memory) : (s.setSpace .buf m).eth = s.eth := rfl
@[simp] theorem space_eth (s : State) : s.space .eth = s.eth := rfl
@[simp] theorem space_buf (s : State) : s.space .buf = s.buf := rfl
@[simp] theorem readByte_eth (s : State) (a : Nat) : s.readByte .eth a = Memory.read s.eth a := rfl
@[simp] theorem readByte_buf (s : State) (a : Nat) : s.readByte .buf a = Memory.read s.buf a := rfl
@[simp] theorem spaceSize_eth (s : State) : s.spaceSize .eth = 14 := rfl
@[simp] theorem spaceSize_buf (s : State) : s.spaceSize .buf = s.params.hdrCap := rfl

/-! ### `writeField` -/

@[simp] theorem writeField_ph (s : State) (g : Field) (v : Nat) : (s.writeField g v).ph = s.ph := by
  cases g <;> rfl
@[simp] theorem writeField_err (s : State) (g : Field) (v : Nat) : (s.writeField g v).err = s.err := by
  cases g <;> rfl
@[simp] theorem writeField_esub (s : State) (g : Field) (v : Nat) : (s.writeField g v).esub = s.esub := by
  cases g <;> rfl
@[simp] theorem writeField_ecmd (s : State) (g : Field) (v : Nat) : (s.writeField g v).ecmd = s.ecmd := by
  cases g <;> rfl
@[simp] theorem writeField_hlen (s : State) (g : Field) (v : Nat) : (s.writeField g v).hlen = s.hlen := by
  cases g <;> rfl
@[simp] theorem writeField_frameValid (s : State) (g : Field) (v : Nat) : (s.writeField g v).frameValid = s.frameValid := by
  cases g <;> rfl
@[simp] theorem writeField_acc (s : State) (g : Field) (v : Nat) : (s.writeField g v).acc = s.acc := by
  cases g <;> rfl
@[simp] theorem writeField_ck (s : State) (g : Field) (v : Nat) : (s.writeField g v).ck = s.ck := by
  cases g <;> rfl
@[simp] theorem writeField_eth (s : State) (g : Field) (v : Nat) : (s.writeField g v).eth = s.eth := by
  cases g <;> rfl
@[simp] theorem writeField_buf (s : State) (g : Field) (v : Nat) : (s.writeField g v).buf = s.buf := by
  cases g <;> rfl
@[simp] theorem writeField_params (s : State) (g : Field) (v : Nat) : (s.writeField g v).params = s.params := by
  cases g <;> rfl
@[simp] theorem writeField_tx (s : State) (g : Field) (v : Nat) : (s.writeField g v).tx = s.tx := by
  cases g <;> rfl
@[simp] theorem writeField_inputs (s : State) (g : Field) (v : Nat) : (s.writeField g v).inputs = s.inputs := by
  cases g <;> rfl

/-- A field register reads back the value written, cut to its width. -/
theorem readField_writeField_same (s : State) (f : Field) (v : Nat) :
    (s.writeField f v).readField f = v % 2 ^ f.width := by
  cases f <;> simp [State.writeField, State.readField, Field.width]

/-- A write of one field register leaves every other. -/
theorem readField_writeField_other (s : State) (f g : Field) (v : Nat) (h : g ≠ f) :
    (s.writeField f v).readField g = s.readField g := by
  cases f <;> cases g <;> first | rfl | exact absurd rfl h

/-! ### `raiseFrameValid` -/

@[simp] theorem raiseFrameValid_dstMac (s : State) : s.raiseFrameValid.dstMac = s.dstMac := rfl
@[simp] theorem raiseFrameValid_srcMac (s : State) : s.raiseFrameValid.srcMac = s.srcMac := rfl
@[simp] theorem raiseFrameValid_etherType (s : State) : s.raiseFrameValid.etherType = s.etherType := rfl
@[simp] theorem raiseFrameValid_version (s : State) : s.raiseFrameValid.version = s.version := rfl
@[simp] theorem raiseFrameValid_ident (s : State) : s.raiseFrameValid.ident = s.ident := rfl
@[simp] theorem raiseFrameValid_flags (s : State) : s.raiseFrameValid.flags = s.flags := rfl
@[simp] theorem raiseFrameValid_fragOff (s : State) : s.raiseFrameValid.fragOff = s.fragOff := rfl
@[simp] theorem raiseFrameValid_ttl (s : State) : s.raiseFrameValid.ttl = s.ttl := rfl
@[simp] theorem raiseFrameValid_proto (s : State) : s.raiseFrameValid.proto = s.proto := rfl
@[simp] theorem raiseFrameValid_srcAddr (s : State) : s.raiseFrameValid.srcAddr = s.srcAddr := rfl
@[simp] theorem raiseFrameValid_dstAddr (s : State) : s.raiseFrameValid.dstAddr = s.dstAddr := rfl
@[simp] theorem raiseFrameValid_ph (s : State) : s.raiseFrameValid.ph = s.ph := rfl
@[simp] theorem raiseFrameValid_err (s : State) : s.raiseFrameValid.err = s.err := rfl
@[simp] theorem raiseFrameValid_esub (s : State) : s.raiseFrameValid.esub = s.esub := rfl
@[simp] theorem raiseFrameValid_ecmd (s : State) : s.raiseFrameValid.ecmd = s.ecmd := rfl
@[simp] theorem raiseFrameValid_hlen (s : State) : s.raiseFrameValid.hlen = s.hlen := rfl
@[simp] theorem raiseFrameValid_frameValid (s : State) : s.raiseFrameValid.frameValid = true := rfl
@[simp] theorem raiseFrameValid_acc (s : State) : s.raiseFrameValid.acc = s.acc := rfl
@[simp] theorem raiseFrameValid_ck (s : State) : s.raiseFrameValid.ck = s.ck := rfl
@[simp] theorem raiseFrameValid_eth (s : State) : s.raiseFrameValid.eth = s.eth := rfl
@[simp] theorem raiseFrameValid_buf (s : State) : s.raiseFrameValid.buf = s.buf := rfl
@[simp] theorem raiseFrameValid_params (s : State) : s.raiseFrameValid.params = s.params := rfl
@[simp] theorem raiseFrameValid_tx (s : State) : s.raiseFrameValid.tx = s.tx := rfl
@[simp] theorem raiseFrameValid_inputs (s : State) : s.raiseFrameValid.inputs = s.inputs := rfl

end Sys2Proof.Laws
end

