-- ==== Sys2Proof/Laws/Ops.lean ====
section
/-! SUPPORT. What each shared operation can do, said once: the provers cite these instead of unfolding the operation. -/

namespace Sys2Proof.Laws

open Sys2Proof.Machine

/-! ### The error latch -/

@[simp] theorem latched_iff (s : State) : s.latched = true ↔ s.err ≠ .none := by simp [State.latched]

theorem latched_eq_false (s : State) : s.latched = false ↔ s.err = .none := by simp [State.latched]

theorem rejectReserved_latched (c : CmdWord) (s : State) (h : s.err ≠ .none) : rejectReserved c s = s := by
  simp [rejectReserved, h]

theorem rejectReserved_clear (c : CmdWord) (s : State) (h : s.err = .none) :
    rejectReserved c s = enterError .illegalCommand .reserved (cmdByte c) s := by
  simp [rejectReserved, h]

/-! ### Admission -/

theorem whenAdmitted_latched (i : Instr) (ps : List Phase) (s : State) (r : Result) (h : s.err ≠ .none) :
    whenAdmitted i ps s r = .next s := by simp [whenAdmitted, h]

theorem whenAdmitted_admitted (i : Instr) (ps : List Phase) (s : State) (r : Result) (h : s.err = .none)
    (hp : s.ph ∈ ps) : whenAdmitted i ps s r = r := by simp [whenAdmitted, h, hp]

theorem whenAdmitted_refused (i : Instr) (ps : List Phase) (s : State) (r : Result) (h : s.err = .none)
    (hp : s.ph ∉ ps) : whenAdmitted i ps s r = .next (enterError .illegalCommand .phase i.commandByte s) := by
  simp [whenAdmitted, h, hp]

/-- Everything `whenAdmitted` can do. -/
theorem whenAdmitted_cases (i : Instr) (ps : List Phase) (s : State) (r : Result) :
    (s.err ≠ .none ∧ whenAdmitted i ps s r = .next s) ∨
      (s.err = .none ∧ s.ph ∉ ps ∧
        whenAdmitted i ps s r = .next (enterError .illegalCommand .phase i.commandByte s)) ∨
      (s.err = .none ∧ s.ph ∈ ps ∧ whenAdmitted i ps s r = r) := by
  by_cases h : s.err = .none
  · by_cases hp : s.ph ∈ ps
    · exact .inr (.inr ⟨h, hp, whenAdmitted_admitted i ps s r h hp⟩)
    · exact .inr (.inl ⟨h, hp, whenAdmitted_refused i ps s r h hp⟩)
  · exact .inl ⟨h, whenAdmitted_latched i ps s r h⟩

theorem whenFits_fits (i : Instr) (w v : Nat) (s : State) (r : Result) (h : v < 2 ^ w) :
    whenFits i w v s r = r := by
  have : ¬ 2 ^ w ≤ v := by omega
  simp [whenFits, this]

theorem whenFits_tooWide (i : Instr) (w v : Nat) (s : State) (r : Result) (h : 2 ^ w ≤ v) :
    whenFits i w v s r = .next (enterError .invalidFieldWidth .none i.commandByte s) := by
  simp [whenFits, h]

/-! ### Sequencing and stores -/

@[simp] theorem andThen_next (s : State) (f : State → Result) : andThen (.next s) f = f s := rfl
@[simp] theorem andThen_fault (e : Fault) (f : State → Result) : andThen (.fault e) f = .fault e := rfl
@[simp] theorem andThen_refused (e : Refusal) (f : State → Result) : andThen (.refused e) f = .refused e := rfl

/-- A next state of a sequence comes from a next state of its first part. -/
theorem andThen_eq_next {r : Result} {f : State → Result} {t : State} (h : andThen r f = .next t) :
    ∃ u, r = .next u ∧ f u = .next t := by
  cases r with
  | next u => exact ⟨u, rfl, h⟩
  | fault e => simp at h
  | refused e => simp at h

theorem storeBytes_inside (sp : Space) (a : Nat) (bs : List Byte) (s : State) (h : a + bs.length ≤ s.spaceSize sp) :
    storeBytes sp a bs s = .next (s.setSpace sp (Memory.writeBytes (s.space sp) a bs)) := by
  simp [storeBytes, h]

/-- Everything a store can do when it answers a next state. -/
theorem storeBytes_eq_next {sp : Space} {a : Nat} {bs : List Byte} {s t : State} (h : storeBytes sp a bs s = .next t) :
    a + bs.length ≤ s.spaceSize sp ∧ t = s.setSpace sp (Memory.writeBytes (s.space sp) a bs) := by
  unfold storeBytes at h
  split_ifs at h with hs
  · exact ⟨hs, by simpa using h.symm⟩

theorem memWrite_inside (sp : Space) (a n v : Nat) (s : State) (h : a + n ≤ s.spaceSize sp) :
    memWrite sp a n v s = .next (s.setSpace sp (Memory.writeBytes (s.space sp) a (beBytes n v))) :=
  storeBytes_inside _ _ _ _ (by simpa using h)

theorem memWrite_eq_next {sp : Space} {a n v : Nat} {s t : State} (h : memWrite sp a n v s = .next t) :
    a + n ≤ s.spaceSize sp ∧ t = s.setSpace sp (Memory.writeBytes (s.space sp) a (beBytes n v)) := by
  obtain ⟨h1, h2⟩ := storeBytes_eq_next h
  exact ⟨by simpa using h1, h2⟩

end Sys2Proof.Laws
end

