-- ==== Sys2Proof/Laws/Checksum.lean ====
section
/-! SUPPORT. The laws of the one's-complement arithmetic: a fold pass, the loop, the sum of the words. -/

namespace Sys2Proof.Laws

open Sys2Proof.Machine

/-! ### Folding -/

theorem foldPass_eq (s : Nat) : foldPass s = s % 65536 + s / 65536 := by
  have : s &&& 0xFFFF = s % 2 ^ 16 := Nat.and_two_pow_sub_one_eq_mod s 16
  simp [foldPass, this, Nat.shiftRight_eq_div_pow]

theorem foldPass_lt (s : Nat) (h : 0xFFFF < s) : foldPass s < s := by
  rw [foldPass_eq]; omega

/-- A pass preserves the sum modulo 0xFFFF. -/
theorem foldPass_mod (s : Nat) : foldPass s % 0xFFFF = s % 0xFFFF := by
  rw [foldPass_eq]; omega

theorem foldPass_pos (s : Nat) (h : 0 < s) : 0 < foldPass s := by
  rw [foldPass_eq]; omega

/-- Enough passes are enough: the loop's answer does not depend on how many were allowed. -/
theorem foldLoop_fuel (n m s : Nat) (hn : s ≤ n) (hm : s ≤ m) : foldLoop n s = foldLoop m s := by
  induction n generalizing m s with
  | zero =>
    obtain rfl : s = 0 := by omega
    cases m <;> simp [foldLoop]
  | succ n ih =>
    cases m with
    | zero =>
      obtain rfl : s = 0 := by omega
      simp [foldLoop]
    | succ m =>
      simp only [foldLoop]
      split_ifs with h
      · have := foldPass_lt s h
        exact ih m (foldPass s) (by omega) (by omega)
      · rfl

/-- The loop of R91, unrolled once. -/
theorem fold_unfold (s : Nat) : fold s = if s > 0xFFFF then fold (foldPass s) else s := by
  cases s with
  | zero => rfl
  | succ s =>
    unfold fold
    rw [foldLoop]
    split_ifs with h
    · have := foldPass_lt _ h
      exact foldLoop_fuel _ _ _ (by omega) (Nat.le_refl _)
    · rfl

theorem fold_le (s : Nat) : fold s ≤ 0xFFFF := by
  induction s using Nat.strongRecOn with
  | ind s ih =>
    rw [fold_unfold]
    split_ifs with h
    · exact ih _ (foldPass_lt s h)
    · omega

theorem fold_mod (s : Nat) : fold s % 0xFFFF = s % 0xFFFF := by
  induction s using Nat.strongRecOn with
  | ind s ih =>
    rw [fold_unfold]
    split_ifs with h
    · rw [ih _ (foldPass_lt s h), foldPass_mod]
    · rfl

theorem fold_pos (s : Nat) (h : 0 < s) : 0 < fold s := by
  induction s using Nat.strongRecOn with
  | ind s ih =>
    rw [fold_unfold]
    split_ifs with h'
    · exact ih _ (foldPass_lt s h') (foldPass_pos s h)
    · exact h

theorem complement16_toNat (f : Nat) (h : f ≤ 0xFFFF) : (complement16 f).toNat = 0xFFFF - f := by
  simp [complement16, BitVec.toNat_not]
  omega

/-! ### Words and their sum -/

theorem readValue_two (m : Memory) (a : Nat) (b c : Byte) (hb : Memory.read m a = some b)
    (hc : Memory.read m (a + 1) = some c) : Memory.readValue m a 2 = some (b.toNat * 256 + c.toNat) := by
  simp [Memory.readValue, Memory.readBytes, hb, hc, beValue_two]

theorem readValue_one (m : Memory) (a : Nat) (b : Byte) (hb : Memory.read m a = some b) :
    Memory.readValue m a 1 = some b.toNat := by
  simp [Memory.readValue, Memory.readBytes, hb, beValue_one]

theorem word_inside (m : Memory) (n i : Nat) (b c : Byte) (h : 2 * i + 1 < n) (hb : Memory.read m (2 * i) = some b)
    (hc : Memory.read m (2 * i + 1) = some c) : word m n i = some (b.toNat * 256 + c.toNat) := by
  rw [word, if_pos h, readValue_two m _ b c hb hc]

theorem word_last (m : Memory) (n i : Nat) (b : Byte) (h : ¬ 2 * i + 1 < n) (hb : Memory.read m (2 * i) = some b) :
    word m n i = some (b.toNat * 256) := by
  rw [word, if_neg h, readValue_one m _ b hb]
  simp [Nat.shiftLeft_eq]

/-- A word depends only on its own bytes. -/
theorem word_congr (m m' : Memory) (n i : Nat) (h0 : Memory.read m' (2 * i) = Memory.read m (2 * i))
    (h1 : 2 * i + 1 < n → Memory.read m' (2 * i + 1) = Memory.read m (2 * i + 1)) : word m' n i = word m n i := by
  unfold word
  split_ifs with h
  · simp [Memory.readValue, Memory.readBytes, h0, h1 h]
  · simp [Memory.readValue, Memory.readBytes, h0]

theorem word_le (m : Memory) (n i w : Nat) (h : word m n i = some w) : w ≤ 0xFFFF := by
  unfold word at h
  split_ifs at h with hi
  · cases hb : Memory.read m (2 * i) with
    | none => simp [Memory.readValue, Memory.readBytes, hb] at h
    | some b =>
      cases hc : Memory.read m (2 * i + 1) with
      | none => simp [Memory.readValue, Memory.readBytes, hb, hc] at h
      | some c =>
        rw [readValue_two m _ b c hb hc] at h
        have := b.isLt; have := c.isLt
        simp only [Option.some.injEq] at h
        omega
  · cases hb : Memory.read m (2 * i) with
    | none => simp [Memory.readValue, Memory.readBytes, hb] at h
    | some b =>
      rw [readValue_one m _ b hb] at h
      have := b.isLt
      simp only [Option.map_some, Nat.shiftLeft_eq, Option.some.injEq] at h
      omega

theorem sumWords_le (m : Memory) (n k S : Nat) (h : sumWords m n k = some S) : S ≤ k * 0xFFFF := by
  induction k generalizing S with
  | zero => simp [sumWords] at h; omega
  | succ k ih =>
    unfold sumWords at h
    cases hs : sumWords m n k with
    | none => simp [hs] at h
    | some T =>
      cases hw : word m n k with
      | none => simp [hs, hw] at h
      | some w =>
        simp only [hs, hw, Option.some.injEq] at h
        have := ih T hs
        have := word_le m n k w hw
        omega

theorem sumWords_congr (m m' : Memory) (n k : Nat) (h : ∀ i < k, word m' n i = word m n i) :
    sumWords m' n k = sumWords m n k := by
  induction k with
  | zero => rfl
  | succ k ih => simp only [sumWords, ih (fun i hi => h i (by omega)), h k (by omega)]

/-- One word replaced: the sum changes by the difference. -/
theorem sumWords_replace (m m' : Memory) (n k j S w w' : Nat) (hj : j < k) (hS : sumWords m n k = some S)
    (hw : word m n j = some w) (hw' : word m' n j = some w') (ho : ∀ i < k, i ≠ j → word m' n i = word m n i) :
    ∃ S', sumWords m' n k = some S' ∧ S' + w = S + w' := by
  induction k generalizing S with
  | zero => omega
  | succ k ih =>
    unfold sumWords at hS
    cases hs : sumWords m n k with
    | none => simp [hs] at hS
    | some T =>
      cases hk : word m n k with
      | none => simp [hs, hk] at hS
      | some x =>
        simp only [hs, hk, Option.some.injEq] at hS
        by_cases hjk : j = k
        · subst hjk
          have hc := sumWords_congr m m' n j (fun i hi => ho i (by omega) (by omega))
          refine ⟨T + w', by simp [sumWords, hc, hs, hw'], ?_⟩
          have : x = w := by simpa [hw] using hk.symm
          omega
        · obtain ⟨T', hT', hTe⟩ := ih T (by omega) hs (fun i hi hne => ho i (by omega) hne)
          have hx := ho k (by omega) (Ne.symm hjk)
          exact ⟨T' + x, by simp [sumWords, hT', hx, hk], by omega⟩

/-- A sum is at least each of its words. -/
theorem word_le_sumWords (m : Memory) (n k j S w : Nat) (hj : j < k) (hS : sumWords m n k = some S)
    (hw : word m n j = some w) : w ≤ S := by
  induction k generalizing S with
  | zero => omega
  | succ k ih =>
    unfold sumWords at hS
    cases hs : sumWords m n k with
    | none => simp [hs] at hS
    | some T =>
      cases hk : word m n k with
      | none => simp [hs, hk] at hS
      | some x =>
        simp only [hs, hk, Option.some.injEq] at hS
        by_cases hjk : j = k
        · subst hjk
          have : x = w := by simpa [hw] using hk.symm
          omega
        · have := ih T (by omega) hs
          omega

/-- A buffer that lists the offsets below `n` has every word below ⌈n/2⌉, and a sum. -/
theorem word_of_range (m : Memory) (n i : Nat) (h : m.map Prod.fst = List.range n) (hi : i < wordCount n) :
    ∃ w, word m n i = some w := by
  unfold wordCount at hi
  obtain ⟨b, hb⟩ := read_of_range m n (2 * i) h (by omega)
  by_cases h1 : 2 * i + 1 < n
  · obtain ⟨c, hc⟩ := read_of_range m n (2 * i + 1) h h1
    exact ⟨_, word_inside m n i b c h1 hb hc⟩
  · exact ⟨_, word_last m n i b h1 hb⟩

theorem wordSum_of_range (m : Memory) (n : Nat) (h : m.map Prod.fst = List.range n) :
    ∃ S, wordSum m n = some S := by
  unfold wordSum
  have : ∀ k ≤ wordCount n, ∃ S, sumWords m n k = some S := by
    intro k hk
    induction k with
    | zero => exact ⟨0, rfl⟩
    | succ k ih =>
      obtain ⟨S, hS⟩ := ih (by omega)
      obtain ⟨w, hw⟩ := word_of_range m n k h (by omega)
      exact ⟨S + w, by simp [sumWords, hS, hw]⟩
  exact this _ (Nat.le_refl _)

/-- The sum of a 16-bit length never reaches 2^32 (R8). -/
theorem wordSum_lt (m : Memory) (n S : Nat) (hn : n < 65536) (h : wordSum m n = some S) : S < 2 ^ 32 := by
  have := sumWords_le m n _ S h
  unfold wordCount at this
  omega

end Sys2Proof.Laws
end

