-- ==== Sys2Proof/Laws/Decode.lean ====
section
/-! SUPPORT. The laws of the command word's fields and of the decoder's two tables. -/

namespace Sys2Proof.Laws

/-! ### Fields -/

theorem getLsbD_commandWord (b : Byte) (v : BitVec 64) (i : Nat) :
    (commandWord b v).getLsbD i = if i < 64 then v.getLsbD i else b.getLsbD (i - 64) := BitVec.getLsbD_append

@[simp] theorem cmdByte_commandWord (b : Byte) (v : BitVec 64) : cmdByte (commandWord b v) = b := by
  apply BitVec.eq_of_getLsbD_eq
  intro i hi
  simp [cmdByte, getLsbD_commandWord, hi]

@[simp] theorem cmdOperand_commandWord (b : Byte) (v : BitVec 64) : cmdOperand (commandWord b v) = v := by
  apply BitVec.eq_of_getLsbD_eq
  intro i hi
  simp [cmdOperand, getLsbD_commandWord, hi]

/-- `OP` is the high nibble of the command byte (R53). -/
theorem cmdOp_eq (c : CmdWord) : cmdOp c = (cmdByte c).extractLsb' 4 4 := by
  apply BitVec.eq_of_getLsbD_eq
  intro i hi
  have : 4 + i < 8 := by omega
  simp [cmdOp, cmdByte, hi, this, ← Nat.add_assoc 64 4]

/-- `SEL` is the low nibble of the command byte (R53). -/
theorem cmdSel_eq (c : CmdWord) : cmdSel c = (cmdByte c).extractLsb' 0 4 := by
  apply BitVec.eq_of_getLsbD_eq
  intro i hi
  have : i < 8 := by omega
  simp [cmdSel, cmdByte, hi, this]

/-- A command word is its command byte and its operand. -/
theorem commandWord_eta (c : CmdWord) : commandWord (cmdByte c) (cmdOperand c) = c := by
  apply BitVec.eq_of_getLsbD_eq
  intro i hi
  rw [getLsbD_commandWord]
  split_ifs with h
  · simp [cmdOperand, h]
  · have h8 : i - 64 < 8 := by omega
    simp [cmdByte, h8, show 64 + (i - 64) = i by omega]

theorem cmdByte_encode (i : Instr) : cmdByte (encode i) = i.commandByte := cmdByte_commandWord _ _

theorem cmdOperand_encode (i : Instr) : cmdOperand (encode i) = BitVec.ofNat 64 i.operand :=
  cmdOperand_commandWord _ _

/-! ### The decoder -/

/-- Everything `decodeUnselected` can do. -/
theorem decodeUnselected_eq_ok (sel : BitVec 4) (i j : Instr) :
    decodeUnselected sel i = .ok j ↔ sel = 0x0#4 ∧ i = j := by
  unfold decodeUnselected
  split_ifs with h <;> simp [h]

theorem operandFits_iff (v : Nat) : operandFits v = true ↔ v < 2 ^ 64 := decide_eq_true_iff

/-- The operand the decoder hands on fits 64 bits (R53, R63). -/
theorem operandFits_cmdOperand (c : CmdWord) : operandFits (cmdOperand c).toNat = true := by
  exact (operandFits_iff _).2 (cmdOperand c).isLt

end Sys2Proof.Laws
end

