-- ==== Sys2Proof/Laws/Exec.lean ====
section
/-! SUPPORT. What each command's meaning can do when it answers a next state, said once, and what one step does with its
input sample. -/

namespace Sys2Proof.Laws

open Sys2Proof.Machine

/-- The two ways a command other than `CLR` has none of its own effect: an error is latched (R113), or the phase does not
admit it (R59). -/
def NoEffect (i : Instr) (ps : List Phase) (s t : State) : Prop :=
  (s.err ≠ .none ∧ t = s) ∨
    (s.err = .none ∧ s.ph ∉ ps ∧ t = enterError .illegalCommand .phase i.commandByte s)

theorem whenAdmitted_eq_next {i : Instr} {ps : List Phase} {s t : State} {r : Result}
    (h : whenAdmitted i ps s r = .next t) : NoEffect i ps s t ∨ (s.err = .none ∧ s.ph ∈ ps ∧ r = .next t) := by
  rcases whenAdmitted_cases i ps s r with ⟨he, hr⟩ | ⟨he, hp, hr⟩ | ⟨he, hp, hr⟩ <;> rw [hr] at h
  · exact .inl (.inl ⟨he, by simpa using h.symm⟩)
  · exact .inl (.inr ⟨he, hp, by simpa using h.symm⟩)
  · exact .inr ⟨he, hp, h⟩

/-! ### Field loads -/

/-- The meaning of the load of `F[i]` is the template (R67). -/
theorem exec_load (f : Field) (v : Nat) (s : State) : exec (f.load v) s = loadField (f.load v) f v s := by
  cases f <;> rfl

theorem loadField_eq_next {i : Instr} {f : Field} {v : Nat} {s t : State} (h : loadField i f v s = .next t) :
    NoEffect i [.idle] s t ∨
      (s.err = .none ∧ s.ph = .idle ∧
        ((2 ^ f.width ≤ v ∧ t = enterError .invalidFieldWidth .none i.commandByte s) ∨
          (v < 2 ^ f.width ∧ t = s.writeField f v))) := by
  refine (whenAdmitted_eq_next h).imp_right fun ⟨he, hp, hr⟩ => ⟨he, by simpa using hp, ?_⟩
  by_cases hv : v < 2 ^ f.width
  · rw [whenFits_fits _ _ _ _ _ hv] at hr
    exact .inr ⟨hv, by simpa using hr.symm⟩
  · rw [whenFits_tooWide _ _ _ _ _ (by omega)] at hr
    exact .inl ⟨by omega, by simpa using hr.symm⟩

/-- Every command of format L is the load of a field register. -/
theorem format_L_iff (i : Instr) : i.format = .L ↔ ∃ f v, i = Field.load f v := by
  constructor
  · intro h
    cases i with
    | ldfDmac v => exact ⟨.dstMac, v, rfl⟩
    | ldfSmac v => exact ⟨.srcMac, v, rfl⟩
    | ldfEtype v => exact ⟨.etherType, v, rfl⟩
    | ldfVer v => exact ⟨.version, v, rfl⟩
    | ldfId v => exact ⟨.ident, v, rfl⟩
    | ldfFlags v => exact ⟨.flags, v, rfl⟩
    | ldfFrag v => exact ⟨.fragOff, v, rfl⟩
    | ldfTtl v => exact ⟨.ttl, v, rfl⟩
    | ldfProto v => exact ⟨.proto, v, rfl⟩
    | ldfSrc v => exact ⟨.srcAddr, v, rfl⟩
    | ldfDst v => exact ⟨.dstAddr, v, rfl⟩
    | bld => exact absurd h (by decide)
    | apb v => exact absurd h nofun
    | pln => exact absurd h (by decide)
    | cks => exact absurd h (by decide)
    | pck => exact absurd h (by decide)
    | emt => exact absurd h (by decide)
    | clr => exact absurd h (by decide)
  · rintro ⟨f, v, rfl⟩
    cases f <;> rfl

/-- A command is a load or one of the seven others. -/
theorem instr_cases (i : Instr) :
    (∃ f v, i = Field.load f v) ∨ i = .bld ∨ (∃ v, i = .apb v) ∨ i = .pln ∨ i = .cks ∨ i = .pck ∨ i = .emt ∨ i = .clr := by
  by_cases h : i.format = .L
  · exact .inl ((format_L_iff i).1 h)
  · refine .inr ?_
    cases i <;> first | exact absurd rfl h | simp

/-! ### The Header Builder -/

@[simp] theorem length_ethBytes (s : State) : (ethBytes s).length = 14 := by simp [ethBytes]

@[simp] theorem length_ip4Bytes (s : State) : (ip4Bytes s).length = 20 := by simp [ip4Bytes]

/-- The state `BLD` leaves (R81). -/
def built (s : State) : State :=
  { s with eth := Memory.writeBytes s.eth 0 (ethBytes s), buf := Memory.writeBytes s.buf 0 (ip4Bytes s),
           hlen := 20#16, ph := .built }

@[simp] theorem built_dstMac (s : State) :
    (built s).dstMac = s.dstMac := rfl
@[simp] theorem built_srcMac (s : State) :
    (built s).srcMac = s.srcMac := rfl
@[simp] theorem built_etherType (s : State) :
    (built s).etherType = s.etherType := rfl
@[simp] theorem built_version (s : State) :
    (built s).version = s.version := rfl
@[simp] theorem built_ident (s : State) :
    (built s).ident = s.ident := rfl
@[simp] theorem built_flags (s : State) :
    (built s).flags = s.flags := rfl
@[simp] theorem built_fragOff (s : State) :
    (built s).fragOff = s.fragOff := rfl
@[simp] theorem built_ttl (s : State) :
    (built s).ttl = s.ttl := rfl
@[simp] theorem built_proto (s : State) :
    (built s).proto = s.proto := rfl
@[simp] theorem built_srcAddr (s : State) :
    (built s).srcAddr = s.srcAddr := rfl
@[simp] theorem built_dstAddr (s : State) :
    (built s).dstAddr = s.dstAddr := rfl
@[simp] theorem built_ph (s : State) :
    (built s).ph = .built := rfl
@[simp] theorem built_err (s : State) :
    (built s).err = s.err := rfl
@[simp] theorem built_esub (s : State) :
    (built s).esub = s.esub := rfl
@[simp] theorem built_ecmd (s : State) :
    (built s).ecmd = s.ecmd := rfl
@[simp] theorem built_hlen (s : State) :
    (built s).hlen = 20#16 := rfl
@[simp] theorem built_frameValid (s : State) :
    (built s).frameValid = s.frameValid := rfl
@[simp] theorem built_acc (s : State) :
    (built s).acc = s.acc := rfl
@[simp] theorem built_ck (s : State) :
    (built s).ck = s.ck := rfl
@[simp] theorem built_eth (s : State) :
    (built s).eth = Memory.writeBytes s.eth 0 (ethBytes s) := by simp only [built]
@[simp] theorem built_buf (s : State) :
    (built s).buf = Memory.writeBytes s.buf 0 (ip4Bytes s) := by simp only [built]
@[simp] theorem built_params (s : State) :
    (built s).params = s.params := rfl
@[simp] theorem built_tx (s : State) :
    (built s).tx = s.tx := rfl
@[simp] theorem built_inputs (s : State) :
    (built s).inputs = s.inputs := rfl

theorem execBld_admitted (s : State) (he : s.err = .none) (hp : s.ph = .idle) (hc : 20 ≤ s.params.hdrCap) :
    exec .bld s = .next (built s) := by
  show execBld s = _
  rw [execBld, whenAdmitted_admitted _ _ _ _ he (by simp [hp]), storeBytes_inside .eth 0 _ s (by simp), andThen_next,
    storeBytes_inside .buf 0 _ _ (by simpa using hc), andThen_next]
  simp only [State.setSpace, space_eth, space_buf, built, Config.ipHdrLen]

theorem execBld_eq_next {s t : State} (h : exec .bld s = .next t) :
    NoEffect .bld [.idle] s t ∨ (s.err = .none ∧ s.ph = .idle ∧ 20 ≤ s.params.hdrCap ∧ t = built s) := by
  refine (whenAdmitted_eq_next h).imp_right fun ⟨he, hp, hr⟩ => ?_
  have hp : s.ph = .idle := by simpa using hp
  obtain ⟨u, hu, hr⟩ := andThen_eq_next hr
  obtain ⟨w, hw, -⟩ := andThen_eq_next hr
  obtain ⟨-, rfl⟩ := storeBytes_eq_next hu
  have hc : 20 ≤ s.params.hdrCap := by simpa using (storeBytes_eq_next hw).1
  exact ⟨he, hp, hc, by simpa [execBld_admitted s he hp hc] using h.symm⟩

/-- The state an accepted `APB` leaves (R84). -/
def appended (v : Nat) (s : State) : State :=
  { s with buf := Memory.write s.buf s.hlen.toNat (BitVec.ofNat 8 v), hlen := s.hlen + 1#16 }

@[simp] theorem appended_dstMac (v : Nat) (s : State) :
    (appended v s).dstMac = s.dstMac := rfl
@[simp] theorem appended_srcMac (v : Nat) (s : State) :
    (appended v s).srcMac = s.srcMac := rfl
@[simp] theorem appended_etherType (v : Nat) (s : State) :
    (appended v s).etherType = s.etherType := rfl
@[simp] theorem appended_version (v : Nat) (s : State) :
    (appended v s).version = s.version := rfl
@[simp] theorem appended_ident (v : Nat) (s : State) :
    (appended v s).ident = s.ident := rfl
@[simp] theorem appended_flags (v : Nat) (s : State) :
    (appended v s).flags = s.flags := rfl
@[simp] theorem appended_fragOff (v : Nat) (s : State) :
    (appended v s).fragOff = s.fragOff := rfl
@[simp] theorem appended_ttl (v : Nat) (s : State) :
    (appended v s).ttl = s.ttl := rfl
@[simp] theorem appended_proto (v : Nat) (s : State) :
    (appended v s).proto = s.proto := rfl
@[simp] theorem appended_srcAddr (v : Nat) (s : State) :
    (appended v s).srcAddr = s.srcAddr := rfl
@[simp] theorem appended_dstAddr (v : Nat) (s : State) :
    (appended v s).dstAddr = s.dstAddr := rfl
@[simp] theorem appended_ph (v : Nat) (s : State) :
    (appended v s).ph = s.ph := rfl
@[simp] theorem appended_err (v : Nat) (s : State) :
    (appended v s).err = s.err := rfl
@[simp] theorem appended_esub (v : Nat) (s : State) :
    (appended v s).esub = s.esub := rfl
@[simp] theorem appended_ecmd (v : Nat) (s : State) :
    (appended v s).ecmd = s.ecmd := rfl
@[simp] theorem appended_hlen (v : Nat) (s : State) :
    (appended v s).hlen = s.hlen + 1#16 := rfl
@[simp] theorem appended_frameValid (v : Nat) (s : State) :
    (appended v s).frameValid = s.frameValid := rfl
@[simp] theorem appended_acc (v : Nat) (s : State) :
    (appended v s).acc = s.acc := rfl
@[simp] theorem appended_ck (v : Nat) (s : State) :
    (appended v s).ck = s.ck := rfl
@[simp] theorem appended_eth (v : Nat) (s : State) :
    (appended v s).eth = s.eth := rfl
@[simp] theorem appended_buf (v : Nat) (s : State) :
    (appended v s).buf = Memory.write s.buf s.hlen.toNat (BitVec.ofNat 8 v) := rfl
@[simp] theorem appended_params (v : Nat) (s : State) :
    (appended v s).params = s.params := rfl
@[simp] theorem appended_tx (v : Nat) (s : State) :
    (appended v s).tx = s.tx := rfl
@[simp] theorem appended_inputs (v : Nat) (s : State) :
    (appended v s).inputs = s.inputs := rfl

theorem execApb_admitted (v : Nat) (s : State) (he : s.err = .none) (hp : s.ph = .built)
    (hc : s.hlen.toNat < s.params.hdrCap) (hv : v < 2 ^ 8) : exec (.apb v) s = .next (appended v s) := by
  show execApb v s = _
  rw [execApb, whenAdmitted_admitted _ _ _ _ he (by simp [hp]), if_neg (by omega), whenFits_fits _ _ _ _ _ hv,
    storeBytes_inside _ _ _ _ (by simpa [appendOffset] using hc), andThen_next]
  rfl

theorem execApb_eq_next {v : Nat} {s t : State} (h : exec (.apb v) s = .next t) :
    NoEffect (.apb v) [.built] s t ∨
      (s.err = .none ∧ s.ph = .built ∧
        ((s.hlen.toNat = s.params.hdrCap ∧ t = enterError .illegalCommand .capacity 0x30#8 s) ∨
          (s.hlen.toNat ≠ s.params.hdrCap ∧ 2 ^ 8 ≤ v ∧ t = enterError .invalidFieldWidth .none 0x30#8 s) ∨
          (s.hlen.toNat < s.params.hdrCap ∧ v < 2 ^ 8 ∧ t = appended v s))) := by
  refine (whenAdmitted_eq_next h).imp_right fun ⟨he, hp, hr⟩ => ?_
  have hp : s.ph = .built := by simpa using hp
  refine ⟨he, hp, ?_⟩
  by_cases hf : s.hlen.toNat = s.params.hdrCap
  · rw [if_pos hf] at hr
    exact .inl ⟨hf, by simpa [Instr.commandByte] using hr.symm⟩
  · rw [if_neg hf] at hr
    refine .inr ?_
    by_cases hv : v < 2 ^ 8
    · rw [whenFits_fits _ _ _ _ _ hv] at hr
      obtain ⟨u, hu, -⟩ := andThen_eq_next hr
      have hc : s.hlen.toNat + 1 ≤ s.params.hdrCap := by simpa [appendOffset] using (storeBytes_eq_next hu).1
      exact .inr ⟨by omega, hv, by simpa [execApb_admitted v s he hp (by omega) hv] using h.symm⟩
    · rw [whenFits_tooWide _ _ _ _ _ (by omega)] at hr
      exact .inl ⟨hf, by omega, by simpa [Instr.commandByte] using hr.symm⟩

/-! ### The Checksum Engine -/

/-- The state `PLN` leaves (R88). -/
def lengthPatched (s : State) : State :=
  { s with buf := Memory.writeBytes s.buf 2 (beBytes 2 s.hlen.toNat), ph := .lenp }

@[simp] theorem lengthPatched_dstMac (s : State) :
    (lengthPatched s).dstMac = s.dstMac := rfl
@[simp] theorem lengthPatched_srcMac (s : State) :
    (lengthPatched s).srcMac = s.srcMac := rfl
@[simp] theorem lengthPatched_etherType (s : State) :
    (lengthPatched s).etherType = s.etherType := rfl
@[simp] theorem lengthPatched_version (s : State) :
    (lengthPatched s).version = s.version := rfl
@[simp] theorem lengthPatched_ident (s : State) :
    (lengthPatched s).ident = s.ident := rfl
@[simp] theorem lengthPatched_flags (s : State) :
    (lengthPatched s).flags = s.flags := rfl
@[simp] theorem lengthPatched_fragOff (s : State) :
    (lengthPatched s).fragOff = s.fragOff := rfl
@[simp] theorem lengthPatched_ttl (s : State) :
    (lengthPatched s).ttl = s.ttl := rfl
@[simp] theorem lengthPatched_proto (s : State) :
    (lengthPatched s).proto = s.proto := rfl
@[simp] theorem lengthPatched_srcAddr (s : State) :
    (lengthPatched s).srcAddr = s.srcAddr := rfl
@[simp] theorem lengthPatched_dstAddr (s : State) :
    (lengthPatched s).dstAddr = s.dstAddr := rfl
@[simp] theorem lengthPatched_ph (s : State) :
    (lengthPatched s).ph = .lenp := rfl
@[simp] theorem lengthPatched_err (s : State) :
    (lengthPatched s).err = s.err := rfl
@[simp] theorem lengthPatched_esub (s : State) :
    (lengthPatched s).esub = s.esub := rfl
@[simp] theorem lengthPatched_ecmd (s : State) :
    (lengthPatched s).ecmd = s.ecmd := rfl
@[simp] theorem lengthPatched_hlen (s : State) :
    (lengthPatched s).hlen = s.hlen := rfl
@[simp] theorem lengthPatched_frameValid (s : State) :
    (lengthPatched s).frameValid = s.frameValid := rfl
@[simp] theorem lengthPatched_acc (s : State) :
    (lengthPatched s).acc = s.acc := rfl
@[simp] theorem lengthPatched_ck (s : State) :
    (lengthPatched s).ck = s.ck := rfl
@[simp] theorem lengthPatched_eth (s : State) :
    (lengthPatched s).eth = s.eth := rfl
@[simp] theorem lengthPatched_buf (s : State) :
    (lengthPatched s).buf = Memory.writeBytes s.buf 2 (beBytes 2 s.hlen.toNat) := rfl
@[simp] theorem lengthPatched_params (s : State) :
    (lengthPatched s).params = s.params := rfl
@[simp] theorem lengthPatched_tx (s : State) :
    (lengthPatched s).tx = s.tx := rfl
@[simp] theorem lengthPatched_inputs (s : State) :
    (lengthPatched s).inputs = s.inputs := rfl

theorem execPln_admitted (s : State) (he : s.err = .none) (hp : s.ph = .built) (hc : 4 ≤ s.params.hdrCap) :
    exec .pln s = .next (lengthPatched s) := by
  show execPln s = _
  rw [execPln, whenAdmitted_admitted _ _ _ _ he (by simp [hp]),
    memWrite_inside _ _ _ _ _ (by simpa [totalLengthOffset] using hc), andThen_next]
  rfl

theorem execPln_eq_next {s t : State} (h : exec .pln s = .next t) :
    NoEffect .pln [.built] s t ∨ (s.err = .none ∧ s.ph = .built ∧ t = lengthPatched s) := by
  refine (whenAdmitted_eq_next h).imp_right fun ⟨he, hp, hr⟩ => ?_
  have hp : s.ph = .built := by simpa using hp
  obtain ⟨u, hu, -⟩ := andThen_eq_next hr
  have hc : 4 ≤ s.params.hdrCap := by simpa [totalLengthOffset] using (memWrite_eq_next hu).1
  exact ⟨he, hp, by simpa [execPln_admitted s he hp hc] using h.symm⟩

/-- The state `CKS` leaves for the sum `S` (R89). -/
def checksummed (S : Nat) (s : State) : State :=
  { s with acc := BitVec.ofNat 32 (fold S), ck := complement16 (fold S), ph := if s.ph = .lenp then .summed else s.ph }

@[simp] theorem checksummed_dstMac (S : Nat) (s : State) :
    (checksummed S s).dstMac = s.dstMac := rfl
@[simp] theorem checksummed_srcMac (S : Nat) (s : State) :
    (checksummed S s).srcMac = s.srcMac := rfl
@[simp] theorem checksummed_etherType (S : Nat) (s : State) :
    (checksummed S s).etherType = s.etherType := rfl
@[simp] theorem checksummed_version (S : Nat) (s : State) :
    (checksummed S s).version = s.version := rfl
@[simp] theorem checksummed_ident (S : Nat) (s : State) :
    (checksummed S s).ident = s.ident := rfl
@[simp] theorem checksummed_flags (S : Nat) (s : State) :
    (checksummed S s).flags = s.flags := rfl
@[simp] theorem checksummed_fragOff (S : Nat) (s : State) :
    (checksummed S s).fragOff = s.fragOff := rfl
@[simp] theorem checksummed_ttl (S : Nat) (s : State) :
    (checksummed S s).ttl = s.ttl := rfl
@[simp] theorem checksummed_proto (S : Nat) (s : State) :
    (checksummed S s).proto = s.proto := rfl
@[simp] theorem checksummed_srcAddr (S : Nat) (s : State) :
    (checksummed S s).srcAddr = s.srcAddr := rfl
@[simp] theorem checksummed_dstAddr (S : Nat) (s : State) :
    (checksummed S s).dstAddr = s.dstAddr := rfl
@[simp] theorem checksummed_ph (S : Nat) (s : State) :
    (checksummed S s).ph = if s.ph = .lenp then .summed else s.ph := rfl
@[simp] theorem checksummed_err (S : Nat) (s : State) :
    (checksummed S s).err = s.err := rfl
@[simp] theorem checksummed_esub (S : Nat) (s : State) :
    (checksummed S s).esub = s.esub := rfl
@[simp] theorem checksummed_ecmd (S : Nat) (s : State) :
    (checksummed S s).ecmd = s.ecmd := rfl
@[simp] theorem checksummed_hlen (S : Nat) (s : State) :
    (checksummed S s).hlen = s.hlen := rfl
@[simp] theorem checksummed_frameValid (S : Nat) (s : State) :
    (checksummed S s).frameValid = s.frameValid := rfl
@[simp] theorem checksummed_acc (S : Nat) (s : State) :
    (checksummed S s).acc = BitVec.ofNat 32 (fold S) := rfl
@[simp] theorem checksummed_ck (S : Nat) (s : State) :
    (checksummed S s).ck = complement16 (fold S) := rfl
@[simp] theorem checksummed_eth (S : Nat) (s : State) :
    (checksummed S s).eth = s.eth := rfl
@[simp] theorem checksummed_buf (S : Nat) (s : State) :
    (checksummed S s).buf = s.buf := rfl
@[simp] theorem checksummed_params (S : Nat) (s : State) :
    (checksummed S s).params = s.params := rfl
@[simp] theorem checksummed_tx (S : Nat) (s : State) :
    (checksummed S s).tx = s.tx := rfl
@[simp] theorem checksummed_inputs (S : Nat) (s : State) :
    (checksummed S s).inputs = s.inputs := rfl

theorem execCks_admitted (s : State) (S : Nat) (he : s.err = .none) (hp : s.ph = .lenp ∨ s.ph = .done)
    (hS : wordSum s.buf s.hlen.toNat = some S) : exec .cks s = .next (checksummed S s) := by
  show execCks s = _
  rw [execCks, whenAdmitted_admitted _ _ _ _ he (by simpa using hp), hS]
  rfl

theorem execCks_eq_next {s t : State} (h : exec .cks s = .next t) :
    NoEffect .cks [.lenp, .done] s t ∨
      (s.err = .none ∧ (s.ph = .lenp ∨ s.ph = .done) ∧
        ∃ S, wordSum s.buf s.hlen.toNat = some S ∧ t = checksummed S s) := by
  refine (whenAdmitted_eq_next h).imp_right fun ⟨he, hp, hr⟩ => ?_
  have hp : s.ph = .lenp ∨ s.ph = .done := by simpa using hp
  cases hS : wordSum s.buf s.hlen.toNat with
  | none => simp [hS] at hr
  | some S => exact ⟨he, hp, S, rfl, by simpa [execCks_admitted s S he hp hS] using h.symm⟩

/-- The state `PCK` leaves (R93). -/
def checksumPatched (s : State) : State :=
  { s with buf := Memory.writeBytes s.buf 10 (beBytes 2 s.ck.toNat), ph := .done }

@[simp] theorem checksumPatched_dstMac (s : State) :
    (checksumPatched s).dstMac = s.dstMac := rfl
@[simp] theorem checksumPatched_srcMac (s : State) :
    (checksumPatched s).srcMac = s.srcMac := rfl
@[simp] theorem checksumPatched_etherType (s : State) :
    (checksumPatched s).etherType = s.etherType := rfl
@[simp] theorem checksumPatched_version (s : State) :
    (checksumPatched s).version = s.version := rfl
@[simp] theorem checksumPatched_ident (s : State) :
    (checksumPatched s).ident = s.ident := rfl
@[simp] theorem checksumPatched_flags (s : State) :
    (checksumPatched s).flags = s.flags := rfl
@[simp] theorem checksumPatched_fragOff (s : State) :
    (checksumPatched s).fragOff = s.fragOff := rfl
@[simp] theorem checksumPatched_ttl (s : State) :
    (checksumPatched s).ttl = s.ttl := rfl
@[simp] theorem checksumPatched_proto (s : State) :
    (checksumPatched s).proto = s.proto := rfl
@[simp] theorem checksumPatched_srcAddr (s : State) :
    (checksumPatched s).srcAddr = s.srcAddr := rfl
@[simp] theorem checksumPatched_dstAddr (s : State) :
    (checksumPatched s).dstAddr = s.dstAddr := rfl
@[simp] theorem checksumPatched_ph (s : State) :
    (checksumPatched s).ph = .done := rfl
@[simp] theorem checksumPatched_err (s : State) :
    (checksumPatched s).err = s.err := rfl
@[simp] theorem checksumPatched_esub (s : State) :
    (checksumPatched s).esub = s.esub := rfl
@[simp] theorem checksumPatched_ecmd (s : State) :
    (checksumPatched s).ecmd = s.ecmd := rfl
@[simp] theorem checksumPatched_hlen (s : State) :
    (checksumPatched s).hlen = s.hlen := rfl
@[simp] theorem checksumPatched_frameValid (s : State) :
    (checksumPatched s).frameValid = s.frameValid := rfl
@[simp] theorem checksumPatched_acc (s : State) :
    (checksumPatched s).acc = s.acc := rfl
@[simp] theorem checksumPatched_ck (s : State) :
    (checksumPatched s).ck = s.ck := rfl
@[simp] theorem checksumPatched_eth (s : State) :
    (checksumPatched s).eth = s.eth := rfl
@[simp] theorem checksumPatched_buf (s : State) :
    (checksumPatched s).buf = Memory.writeBytes s.buf 10 (beBytes 2 s.ck.toNat) := rfl
@[simp] theorem checksumPatched_params (s : State) :
    (checksumPatched s).params = s.params := rfl
@[simp] theorem checksumPatched_tx (s : State) :
    (checksumPatched s).tx = s.tx := rfl
@[simp] theorem checksumPatched_inputs (s : State) :
    (checksumPatched s).inputs = s.inputs := rfl

theorem execPck_admitted (s : State) (he : s.err = .none) (hp : s.ph = .summed) (hc : 12 ≤ s.params.hdrCap) :
    exec .pck s = .next (checksumPatched s) := by
  show execPck s = _
  rw [execPck, whenAdmitted_admitted _ _ _ _ he (by simp [hp]),
    memWrite_inside _ _ _ _ _ (by simpa [checksumOffset] using hc), andThen_next]
  rfl

theorem execPck_eq_next {s t : State} (h : exec .pck s = .next t) :
    NoEffect .pck [.summed] s t ∨ (s.err = .none ∧ s.ph = .summed ∧ t = checksumPatched s) := by
  refine (whenAdmitted_eq_next h).imp_right fun ⟨he, hp, hr⟩ => ?_
  have hp : s.ph = .summed := by simpa using hp
  obtain ⟨u, hu, -⟩ := andThen_eq_next hr
  have hc : 12 ≤ s.params.hdrCap := by simpa [checksumOffset] using (memWrite_eq_next hu).1
  exact ⟨he, hp, by simpa [execPck_admitted s he hp hc] using h.symm⟩

/-! ### Hand-off and clear -/

/-- The state an accepted hand-off leaves (R101). -/
def handedOff (s : State) : State := { s with frameValid := true, ph := .sent }

@[simp] theorem handedOff_dstMac (s : State) :
    (handedOff s).dstMac = s.dstMac := rfl
@[simp] theorem handedOff_srcMac (s : State) :
    (handedOff s).srcMac = s.srcMac := rfl
@[simp] theorem handedOff_etherType (s : State) :
    (handedOff s).etherType = s.etherType := rfl
@[simp] theorem handedOff_version (s : State) :
    (handedOff s).version = s.version := rfl
@[simp] theorem handedOff_ident (s : State) :
    (handedOff s).ident = s.ident := rfl
@[simp] theorem handedOff_flags (s : State) :
    (handedOff s).flags = s.flags := rfl
@[simp] theorem handedOff_fragOff (s : State) :
    (handedOff s).fragOff = s.fragOff := rfl
@[simp] theorem handedOff_ttl (s : State) :
    (handedOff s).ttl = s.ttl := rfl
@[simp] theorem handedOff_proto (s : State) :
    (handedOff s).proto = s.proto := rfl
@[simp] theorem handedOff_srcAddr (s : State) :
    (handedOff s).srcAddr = s.srcAddr := rfl
@[simp] theorem handedOff_dstAddr (s : State) :
    (handedOff s).dstAddr = s.dstAddr := rfl
@[simp] theorem handedOff_ph (s : State) :
    (handedOff s).ph = .sent := rfl
@[simp] theorem handedOff_err (s : State) :
    (handedOff s).err = s.err := rfl
@[simp] theorem handedOff_esub (s : State) :
    (handedOff s).esub = s.esub := rfl
@[simp] theorem handedOff_ecmd (s : State) :
    (handedOff s).ecmd = s.ecmd := rfl
@[simp] theorem handedOff_hlen (s : State) :
    (handedOff s).hlen = s.hlen := rfl
@[simp] theorem handedOff_frameValid (s : State) :
    (handedOff s).frameValid = true := rfl
@[simp] theorem handedOff_acc (s : State) :
    (handedOff s).acc = s.acc := rfl
@[simp] theorem handedOff_ck (s : State) :
    (handedOff s).ck = s.ck := rfl
@[simp] theorem handedOff_eth (s : State) :
    (handedOff s).eth = s.eth := rfl
@[simp] theorem handedOff_buf (s : State) :
    (handedOff s).buf = s.buf := rfl
@[simp] theorem handedOff_params (s : State) :
    (handedOff s).params = s.params := rfl
@[simp] theorem handedOff_tx (s : State) :
    (handedOff s).tx = s.tx := rfl
@[simp] theorem handedOff_inputs (s : State) :
    (handedOff s).inputs = s.inputs := rfl

theorem execEmt_sent (s : State) (n : BitVec 32) (he : s.err = .none) (hp : s.ph = .done) (htx : s.tx = .sent n) :
    exec .emt s = .next (handedOff s) := by
  show execEmt s = _
  simp [execEmt, whenAdmitted_admitted _ _ _ _ he (show s.ph ∈ [Phase.done] by simp [hp]), htx, handedOff,
    State.raiseFrameValid]

theorem execEmt_fail (s : State) (he : s.err = .none) (hp : s.ph = .done) (htx : s.tx = .fail) :
    exec .emt s = .next (enterError .transmissionFailure .none 0x70#8 (handedOff s)) := by
  show execEmt s = _
  simp [execEmt, whenAdmitted_admitted _ _ _ _ he (show s.ph ∈ [Phase.done] by simp [hp]), htx, handedOff,
    State.raiseFrameValid, Instr.commandByte]

theorem execEmt_eq_next {s t : State} (h : exec .emt s = .next t) :
    NoEffect .emt [.done] s t ∨
      (s.err = .none ∧ s.ph = .done ∧
        ((∃ n, s.tx = .sent n ∧ t = handedOff s) ∨
          (s.tx = .fail ∧ t = enterError .transmissionFailure .none 0x70#8 (handedOff s)))) := by
  refine (whenAdmitted_eq_next h).imp_right fun ⟨he, hp, hr⟩ => ⟨he, by simpa using hp, ?_⟩
  cases htx : s.tx with
  | sent n =>
    rw [htx] at hr
    exact .inl ⟨n, rfl, by simpa [handedOff, State.raiseFrameValid] using hr.symm⟩
  | fail =>
    rw [htx] at hr
    exact .inr ⟨rfl, by simpa [handedOff, State.raiseFrameValid, Instr.commandByte] using hr.symm⟩

theorem execClr_eq (s : State) : exec .clr s = .next (resetBlock s) := rfl

/-! ### The step -/

@[simp] theorem takeSample_dstMac (p : PortSample) (rest : List PortSample) (s : State) :
    (takeSample p rest s).dstMac = s.dstMac := rfl
@[simp] theorem takeSample_srcMac (p : PortSample) (rest : List PortSample) (s : State) :
    (takeSample p rest s).srcMac = s.srcMac := rfl
@[simp] theorem takeSample_etherType (p : PortSample) (rest : List PortSample) (s : State) :
    (takeSample p rest s).etherType = s.etherType := rfl
@[simp] theorem takeSample_version (p : PortSample) (rest : List PortSample) (s : State) :
    (takeSample p rest s).version = s.version := rfl
@[simp] theorem takeSample_ident (p : PortSample) (rest : List PortSample) (s : State) :
    (takeSample p rest s).ident = s.ident := rfl
@[simp] theorem takeSample_flags (p : PortSample) (rest : List PortSample) (s : State) :
    (takeSample p rest s).flags = s.flags := rfl
@[simp] theorem takeSample_fragOff (p : PortSample) (rest : List PortSample) (s : State) :
    (takeSample p rest s).fragOff = s.fragOff := rfl
@[simp] theorem takeSample_ttl (p : PortSample) (rest : List PortSample) (s : State) :
    (takeSample p rest s).ttl = s.ttl := rfl
@[simp] theorem takeSample_proto (p : PortSample) (rest : List PortSample) (s : State) :
    (takeSample p rest s).proto = s.proto := rfl
@[simp] theorem takeSample_srcAddr (p : PortSample) (rest : List PortSample) (s : State) :
    (takeSample p rest s).srcAddr = s.srcAddr := rfl
@[simp] theorem takeSample_dstAddr (p : PortSample) (rest : List PortSample) (s : State) :
    (takeSample p rest s).dstAddr = s.dstAddr := rfl
@[simp] theorem takeSample_ph (p : PortSample) (rest : List PortSample) (s : State) :
    (takeSample p rest s).ph = s.ph := rfl
@[simp] theorem takeSample_err (p : PortSample) (rest : List PortSample) (s : State) :
    (takeSample p rest s).err = s.err := rfl
@[simp] theorem takeSample_esub (p : PortSample) (rest : List PortSample) (s : State) :
    (takeSample p rest s).esub = s.esub := rfl
@[simp] theorem takeSample_ecmd (p : PortSample) (rest : List PortSample) (s : State) :
    (takeSample p rest s).ecmd = s.ecmd := rfl
@[simp] theorem takeSample_hlen (p : PortSample) (rest : List PortSample) (s : State) :
    (takeSample p rest s).hlen = s.hlen := rfl
@[simp] theorem takeSample_frameValid (p : PortSample) (rest : List PortSample) (s : State) :
    (takeSample p rest s).frameValid = s.frameValid := rfl
@[simp] theorem takeSample_acc (p : PortSample) (rest : List PortSample) (s : State) :
    (takeSample p rest s).acc = s.acc := rfl
@[simp] theorem takeSample_ck (p : PortSample) (rest : List PortSample) (s : State) :
    (takeSample p rest s).ck = s.ck := rfl
@[simp] theorem takeSample_eth (p : PortSample) (rest : List PortSample) (s : State) :
    (takeSample p rest s).eth = s.eth := rfl
@[simp] theorem takeSample_buf (p : PortSample) (rest : List PortSample) (s : State) :
    (takeSample p rest s).buf = s.buf := rfl
@[simp] theorem takeSample_params (p : PortSample) (rest : List PortSample) (s : State) :
    (takeSample p rest s).params = s.params := rfl
@[simp] theorem takeSample_tx (p : PortSample) (rest : List PortSample) (s : State) :
    (takeSample p rest s).tx = p.tx := rfl
@[simp] theorem takeSample_inputs (p : PortSample) (rest : List PortSample) (s : State) :
    (takeSample p rest s).inputs = rest := rfl

theorem step_nil (s : State) (h : s.inputs = []) : step s = .next s := by
  simp [step, stepWith, h]

theorem step_cons (s : State) (p : PortSample) (rest : List PortSample) (h : s.inputs = p :: rest) :
    step s = runSample exec p (takeSample p rest s) := by
  simp [step, stepWith, h]

/-- Everything one step can do. -/
theorem step_cases (s : State) :
    (s.inputs = [] ∧ step s = .next s) ∨
      ∃ p rest, s.inputs = p :: rest ∧
        ((p.rst = true ∧ step s = .next (resetBlock (takeSample p rest s))) ∨
          (p.rst = false ∧ p.cmdValid = false ∧ step s = .next (takeSample p rest s)) ∨
          (p.rst = false ∧ p.cmdValid = true ∧
            ((∃ e, decode p.cmd = .error e ∧ step s = .next (rejectReserved p.cmd (takeSample p rest s))) ∨
              ∃ i, decode p.cmd = .ok i ∧ step s = exec i (takeSample p rest s)))) := by
  cases h : s.inputs with
  | nil => exact .inl ⟨rfl, step_nil s h⟩
  | cons p rest =>
    refine .inr ⟨p, rest, rfl, ?_⟩
    have hs := step_cons s p rest h
    cases hr : p.rst with
    | true => exact .inl ⟨rfl, by rw [hs]; simp [runSample, hr]⟩
    | false =>
      refine .inr ?_
      cases hv : p.cmdValid with
      | false => exact .inl ⟨rfl, rfl, by rw [hs]; simp [runSample, hr, hv]⟩
      | true =>
        refine .inr ⟨rfl, rfl, ?_⟩
        cases hd : decode p.cmd with
        | ok i => exact .inr ⟨i, rfl, by rw [hs]; simp [runSample, runWord, hr, hv, hd]⟩
        | error e => exact .inl ⟨e, rfl, by rw [hs]; simp [runSample, runWord, hr, hv, hd]⟩

end Sys2Proof.Laws
end

