-- ==== Sys2Proof/Laws/PerInstr.lean ====
section
/-! SUPPORT. Facts about every command as syntax, one lemma a constructor (LAWS.json names the families). -/

namespace Sys2Proof.Laws

/-- A command is well-formed exactly if its operand can be encoded (R63), and a command of format N carries the operand 0
(R61). -/
def OperandForm.Statement (i : Instr) : Prop :=
  (i.wf = true ↔ i.operand < 2 ^ 64) ∧ (i.format = .N → i.operand = 0)

theorem OperandForm.ldfDmac (v : Nat) : OperandForm.Statement (.ldfDmac v) := ⟨operandFits_iff v, nofun⟩

theorem OperandForm.ldfSmac (v : Nat) : OperandForm.Statement (.ldfSmac v) := ⟨operandFits_iff v, nofun⟩

theorem OperandForm.ldfEtype (v : Nat) : OperandForm.Statement (.ldfEtype v) := ⟨operandFits_iff v, nofun⟩

theorem OperandForm.ldfVer (v : Nat) : OperandForm.Statement (.ldfVer v) := ⟨operandFits_iff v, nofun⟩

theorem OperandForm.ldfId (v : Nat) : OperandForm.Statement (.ldfId v) := ⟨operandFits_iff v, nofun⟩

theorem OperandForm.ldfFlags (v : Nat) : OperandForm.Statement (.ldfFlags v) := ⟨operandFits_iff v, nofun⟩

theorem OperandForm.ldfFrag (v : Nat) : OperandForm.Statement (.ldfFrag v) := ⟨operandFits_iff v, nofun⟩

theorem OperandForm.ldfTtl (v : Nat) : OperandForm.Statement (.ldfTtl v) := ⟨operandFits_iff v, nofun⟩

theorem OperandForm.ldfProto (v : Nat) : OperandForm.Statement (.ldfProto v) := ⟨operandFits_iff v, nofun⟩

theorem OperandForm.ldfSrc (v : Nat) : OperandForm.Statement (.ldfSrc v) := ⟨operandFits_iff v, nofun⟩

theorem OperandForm.ldfDst (v : Nat) : OperandForm.Statement (.ldfDst v) := ⟨operandFits_iff v, nofun⟩

theorem OperandForm.apb (v : Nat) : OperandForm.Statement (.apb v) := ⟨operandFits_iff v, nofun⟩

theorem OperandForm.bld : OperandForm.Statement .bld := by
  simp [OperandForm.Statement, Instr.wf, Instr.operand, Instr.format]

theorem OperandForm.pln : OperandForm.Statement .pln := by
  simp [OperandForm.Statement, Instr.wf, Instr.operand, Instr.format]

theorem OperandForm.cks : OperandForm.Statement .cks := by
  simp [OperandForm.Statement, Instr.wf, Instr.operand, Instr.format]

theorem OperandForm.pck : OperandForm.Statement .pck := by
  simp [OperandForm.Statement, Instr.wf, Instr.operand, Instr.format]

theorem OperandForm.emt : OperandForm.Statement .emt := by
  simp [OperandForm.Statement, Instr.wf, Instr.operand, Instr.format]

theorem OperandForm.clr : OperandForm.Statement .clr := by
  simp [OperandForm.Statement, Instr.wf, Instr.operand, Instr.format]

end Sys2Proof.Laws
end

