-- ==== Sys2Proof/Tests/Slice0.lean ====
section
/-! SUPPORT. The model's own tests: ill-formed terms, words written out from the spec's encodings, single steps of the spec's
vectors (`95_test_vectors.md` section 2, cited by their ids), and for every statement with hypotheses a state and operands
that meet them. Every expected value is the spec's. -/

namespace Sys2Proof.Tests

open Sys2Proof.Machine

/-! ### Helpers -/

/-- The result is a next state with a property. -/
def ran (r : Result) (p : State → Bool) : Bool :=
  match r with
  | .next s => p s
  | .fault _ => false
  | .refused _ => false

theorem next_of_ran {r : Result} {p : State → Bool} (h : ran r p = true) : ∃ t, r = .next t ∧ p t = true := by
  cases r with
  | next t => exact ⟨t, rfl, h⟩
  | fault e => cases h
  | refused e => cases h

theorem next_of {r : Result} (h : ran r (fun _ => true) = true) : ∃ t, r = .next t := by
  obtain ⟨t, ht, -⟩ := next_of_ran h
  exact ⟨t, ht⟩

/-- The state the commands lead to from reset. -/
def after (is : List Instr) : State :=
  match execAll is State.reset with
  | .next s => s
  | .fault _ => State.reset
  | .refused _ => State.reset

/-- What one command word does at a state, seen through a property of the next state. -/
def feed (s : State) (w : Nat) (p : State → Bool) : Bool := ran (step (s.withFetchWord 72 w)) p

/-- The latch registers hold these values. -/
def latch (e : ErrCode) (sub : SubCause) (cmd : Byte) (s : State) : Bool :=
  decide (s.err = e ∧ s.esub = sub ∧ s.ecmd = cmd)

/-- The bytes of `BUF` below `HLEN`. -/
def bufIs (bs : List Byte) (s : State) : Bool := decide (Memory.readBytes s.buf 0 s.hlen.toNat = some bs)

/-- The state with the host presenting one word next, and nothing after it. -/
def presenting (s : State) (c : CmdWord) : State := { s with inputs := [⟨false, true, c, s.tx⟩] }

theorem presents (s : State) (c : CmdWord) : (presenting s c).Presents c { s with inputs := [] } :=
  ⟨_, [], rfl, rfl, rfl, rfl, rfl⟩

/-- The state with the host asserting `RST` next. -/
def resetting (s : State) : State := { s with inputs := [⟨true, false, 0#72, s.tx⟩] }

theorem presents_reset (s : State) : (resetting s).PresentsReset { s with inputs := [] } := ⟨_, [], rfl, rfl, rfl⟩

/-- `n` steps. -/
def steps (n : Nat) (s : State) : Result :=
  match n with
  | 0 => .next s
  | n + 1 => andThen (step s) (steps n)

theorem reachable_steps (n : Nat) {s t : State} (hs : Reachable s) (h : steps n s = .next t) : Reachable t := by
  induction n generalizing s with
  | zero => cases h; exact hs
  | succ n ih =>
    obtain ⟨u, hu, hr⟩ := Laws.andThen_eq_next h
    exact ih (.step s u hs hu) hr

/-- A state with the host about to present these words. -/
def driven (ws : List CmdWord) (tx : TxResult) : State := { State.reset with inputs := ws.map fun c => ⟨false, true, c, tx⟩ }

theorem reachable_driven (ws : List CmdWord) (tx : TxResult) : Reachable (driven ws tx) :=
  .start Config.Params.default (.sent 0#32) _ (by decide)

/-! ### Well-formedness: an operand of 2^64 is refused, the largest below it is not (R63) -/

theorem test_wf_ldfDmac : Instr.wf (.ldfDmac (2 ^ 64)) = false ∧ Instr.wf (.ldfDmac (2 ^ 64 - 1)) = true := by decide
theorem test_wf_ldfSmac : Instr.wf (.ldfSmac (2 ^ 64)) = false ∧ Instr.wf (.ldfSmac (2 ^ 64 - 1)) = true := by decide
theorem test_wf_ldfEtype : Instr.wf (.ldfEtype (2 ^ 64)) = false ∧ Instr.wf (.ldfEtype (2 ^ 64 - 1)) = true := by decide
theorem test_wf_ldfVer : Instr.wf (.ldfVer (2 ^ 64)) = false ∧ Instr.wf (.ldfVer (2 ^ 64 - 1)) = true := by decide
theorem test_wf_ldfId : Instr.wf (.ldfId (2 ^ 64)) = false ∧ Instr.wf (.ldfId (2 ^ 64 - 1)) = true := by decide
theorem test_wf_ldfFlags : Instr.wf (.ldfFlags (2 ^ 64)) = false ∧ Instr.wf (.ldfFlags (2 ^ 64 - 1)) = true := by decide
theorem test_wf_ldfFrag : Instr.wf (.ldfFrag (2 ^ 64)) = false ∧ Instr.wf (.ldfFrag (2 ^ 64 - 1)) = true := by decide
theorem test_wf_ldfTtl : Instr.wf (.ldfTtl (2 ^ 64)) = false ∧ Instr.wf (.ldfTtl (2 ^ 64 - 1)) = true := by decide
theorem test_wf_ldfProto : Instr.wf (.ldfProto (2 ^ 64)) = false ∧ Instr.wf (.ldfProto (2 ^ 64 - 1)) = true := by decide
theorem test_wf_ldfSrc : Instr.wf (.ldfSrc (2 ^ 64)) = false ∧ Instr.wf (.ldfSrc (2 ^ 64 - 1)) = true := by decide
theorem test_wf_ldfDst : Instr.wf (.ldfDst (2 ^ 64)) = false ∧ Instr.wf (.ldfDst (2 ^ 64 - 1)) = true := by decide
theorem test_wf_apb : Instr.wf (.apb (2 ^ 64)) = false ∧ Instr.wf (.apb (2 ^ 64 - 1)) = true := by decide

/-! ### Words written out from `30_encoding.md` R53 to R56: command byte, then sixteen digits of `V` -/

theorem test_decode_ldfDmac : decodeTableWord 72 0x1000000123456789AB = some (.ldfDmac 0x0123456789AB) := by decide
theorem test_decode_ldfSmac : decodeTableWord 72 0x11FFFFFFFFFFFFFFFF = some (.ldfSmac 0xFFFFFFFFFFFFFFFF) := by decide
theorem test_decode_ldfEtype : decodeTableWord 72 0x120000000000000806 = some (.ldfEtype 0x0806) := by decide
theorem test_decode_ldfVer : decodeTableWord 72 0x130000000000000006 = some (.ldfVer 6) := by decide
theorem test_decode_ldfId : decodeTableWord 72 0x14000000000000BEEF = some (.ldfId 0xBEEF) := by decide
theorem test_decode_ldfFlags : decodeTableWord 72 0x150000000000000005 = some (.ldfFlags 5) := by decide
theorem test_decode_ldfFrag : decodeTableWord 72 0x160000000000001AEC = some (.ldfFrag 0x1AEC) := by decide
theorem test_decode_ldfTtl : decodeTableWord 72 0x17000000000000000A = some (.ldfTtl 0x0A) := by decide
theorem test_decode_ldfProto : decodeTableWord 72 0x180000000000000011 = some (.ldfProto 17) := by decide
theorem test_decode_ldfSrc : decodeTableWord 72 0x1900000000C0A8010A = some (.ldfSrc 0xC0A8010A) := by decide
theorem test_decode_ldfDst : decodeTableWord 72 0x1A000000000A000001 = some (.ldfDst 0x0A000001) := by decide
theorem test_decode_bld : decodeTableWord 72 0x200000000000000000 = some .bld := by decide
theorem test_decode_apb : decodeTableWord 72 0x3000000000000000AB = some (.apb 0xAB) := by decide
theorem test_decode_pln : decodeTableWord 72 0x400000000000000000 = some .pln := by decide
theorem test_decode_cks : decodeTableWord 72 0x500000000000000000 = some .cks := by decide
theorem test_decode_pck : decodeTableWord 72 0x600000000000000000 = some .pck := by decide
theorem test_decode_emt : decodeTableWord 72 0x700000000000000000 = some .emt := by decide
theorem test_decode_clr : decodeTableWord 72 0x80FFFFFFFFFFFFFFFF = some .clr := by decide

/-- The reserved words of V-ERR, and the last reserved opcode with a full operand. -/
theorem test_decode_reserved :
    ([0x000000000000000000, 0x1B0000000000000000, 0x1F0000000000000005, 0x210000000000000000, 0x810000000000000000,
      0x900000000000000000, 0xFFFFFFFFFFFFFFFFFF].map (decodeTableWord 72)) = List.replicate 7 none := by decide

/-! ### Field loads: V-LDF, an operand that fits and one that does not -/

theorem test_ldfDmac_accepts : feed .reset 0x100000FFFFFFFFFFFF (fun t => decide (t.dstMac.toNat = 0xffffffffffff ∧ t.err = .none)) = true := by decide
theorem test_ldfDmac_refuses : feed .reset 0x100001000000000000 (fun t => latch .invalidFieldWidth .none 0x10#8 t && decide (t.dstMac.toNat = 0x0)) = true := by decide
theorem test_ldfSmac_accepts : feed .reset 0x110000FFFFFFFFFFFF (fun t => decide (t.srcMac.toNat = 0xffffffffffff ∧ t.err = .none)) = true := by decide
theorem test_ldfSmac_refuses : feed .reset 0x11FFFFFFFFFFFFFFFF (fun t => latch .invalidFieldWidth .none 0x11#8 t && decide (t.srcMac.toNat = 0x0)) = true := by decide
theorem test_ldfEtype_accepts : feed .reset 0x12000000000000FFFF (fun t => decide (t.etherType.toNat = 0xffff ∧ t.err = .none)) = true := by decide
theorem test_ldfEtype_refuses : feed .reset 0x120000000000010000 (fun t => latch .invalidFieldWidth .none 0x12#8 t && decide (t.etherType.toNat = 0x800)) = true := by decide
theorem test_ldfVer_accepts : feed .reset 0x13000000000000000F (fun t => decide (t.version.toNat = 0xf ∧ t.err = .none)) = true := by decide
theorem test_ldfVer_refuses : feed .reset 0x130000000000000010 (fun t => latch .invalidFieldWidth .none 0x13#8 t && decide (t.version.toNat = 0x4)) = true := by decide
theorem test_ldfId_accepts : feed .reset 0x14000000000000FFFF (fun t => decide (t.ident.toNat = 0xffff ∧ t.err = .none)) = true := by decide
theorem test_ldfId_refuses : feed .reset 0x140000000000010000 (fun t => latch .invalidFieldWidth .none 0x14#8 t && decide (t.ident.toNat = 0x0)) = true := by decide
theorem test_ldfFlags_accepts : feed .reset 0x150000000000000007 (fun t => decide (t.flags.toNat = 0x7 ∧ t.err = .none)) = true := by decide
theorem test_ldfFlags_refuses : feed .reset 0x150000000000000008 (fun t => latch .invalidFieldWidth .none 0x15#8 t && decide (t.flags.toNat = 0x2)) = true := by decide
theorem test_ldfFrag_accepts : feed .reset 0x160000000000001FFF (fun t => decide (t.fragOff.toNat = 0x1fff ∧ t.err = .none)) = true := by decide
theorem test_ldfFrag_refuses : feed .reset 0x160000000000002000 (fun t => latch .invalidFieldWidth .none 0x16#8 t && decide (t.fragOff.toNat = 0x0)) = true := by decide
theorem test_ldfTtl_accepts : feed .reset 0x1700000000000000FF (fun t => decide (t.ttl.toNat = 0xff ∧ t.err = .none)) = true := by decide
theorem test_ldfTtl_refuses : feed .reset 0x170000000000000100 (fun t => latch .invalidFieldWidth .none 0x17#8 t && decide (t.ttl.toNat = 0xa)) = true := by decide
theorem test_ldfProto_accepts : feed .reset 0x1800000000000000FF (fun t => decide (t.proto.toNat = 0xff ∧ t.err = .none)) = true := by decide
theorem test_ldfProto_refuses : feed .reset 0x180000000000000100 (fun t => latch .invalidFieldWidth .none 0x18#8 t && decide (t.proto.toNat = 0x1)) = true := by decide
theorem test_ldfSrc_accepts : feed .reset 0x1900000000FFFFFFFF (fun t => decide (t.srcAddr.toNat = 0xffffffff ∧ t.err = .none)) = true := by decide
theorem test_ldfSrc_refuses : feed .reset 0x190000000100000000 (fun t => latch .invalidFieldWidth .none 0x19#8 t && decide (t.srcAddr.toNat = 0x7f000001)) = true := by decide
theorem test_ldfDst_accepts : feed .reset 0x1A00000000FFFFFFFF (fun t => decide (t.dstAddr.toNat = 0xffffffff ∧ t.err = .none)) = true := by decide
theorem test_ldfDst_refuses : feed .reset 0x1A0000000100000000 (fun t => latch .invalidFieldWidth .none 0x1A#8 t && decide (t.dstAddr.toNat = 0x7f000001)) = true := by decide

/-! ### The Header Builder: V-BLD-4, V-BLD-8, V-APB-1, V-APB-8 -/

theorem test_bld_packs :
    feed (after [.ldfDmac 0x0123456789AB, .ldfSmac 0x020000000001, .ldfId 0xBEEF, .ldfTtl 0x40, .ldfProto 17,
      .ldfSrc 0xC0A8010A, .ldfDst 0x0A000001, .ldfFlags 5, .ldfFrag 0x1AEC]) 0x200000000000000000 (fun t =>
        bufIs [0x45, 0x00, 0x00, 0x00, 0xBE, 0xEF, 0xBA, 0xEC, 0x40, 0x11, 0x00, 0x00, 0xC0, 0xA8, 0x01, 0x0A,
          0x0A, 0x00, 0x00, 0x01] t &&
        decide (Memory.readBytes t.eth 0 14 = some [0x01, 0x23, 0x45, 0x67, 0x89, 0xAB, 0x02, 0x00, 0x00, 0x00, 0x00, 0x01,
          0x08, 0x00])) = true := by decide

theorem test_bld_twice_refused :
    feed (after [.bld]) 0x200000000000000000 (latch .illegalCommand .phase 0x20#8) = true := by decide

theorem test_apb_appends :
    feed (after [.bld]) 0x3000000000000000AB (fun t =>
      decide (t.readByte .buf 20 = some 0xAB#8 ∧ t.hlen = 21#16 ∧ t.ph = .built)) = true := by decide

/-- The capacity is checked before the operand; here the buffer is full at the smallest capacity R7 allows. -/
theorem test_apb_full_refused :
    feed { after [.bld] with params := ⟨20⟩ } 0x300000000000000100
      (fun t => latch .illegalCommand .capacity 0x30#8 t && decide (t.hlen = 20#16)) = true := by decide

/-! ### The Checksum Engine: V-PLN-2, V-PLN-5, V-CKS-3, V-CKS-6, V-PCK-2, V-PCK-5 -/

theorem test_pln_writes_length :
    feed (after [.bld, .apb 0xAB]) 0x400000000000000000 (fun t =>
      decide (Memory.readBytes t.buf 2 2 = some [0x00, 0x15] ∧ t.ph = .lenp)) = true := by decide

theorem test_pln_idle_refused :
    feed .reset 0x400000000000000000 (latch .illegalCommand .phase 0x40#8) = true := by decide

/-- The fields of the header that needs two fold passes (P2). -/
def twoPass : List Instr := [.ldfId 0xFFFF, .ldfFlags 5, .ldfFrag 0x1AEC, .ldfTtl 0, .ldfProto 0, .ldfSrc 0, .ldfDst 0]

theorem test_cks_folds_twice :
    feed (after (twoPass ++ [.bld, .pln])) 0x500000000000000000 (fun t =>
      decide (t.acc = 0x00000001#32 ∧ t.ck = 0xFFFE#16 ∧ t.ph = .summed)) = true := by decide

theorem test_cks_pads_low_byte :
    feed (after [.bld, .apb 0xAB, .pln]) 0x500000000000000000 (fun t =>
      decide (t.acc = 0x0000381A#32 ∧ t.ck = 0xC7E5#16)) = true := by decide

theorem test_pck_writes_checksum :
    feed (after (twoPass ++ [.bld, .pln, .cks])) 0x600000000000000000 (fun t =>
      bufIs [0x45, 0x00, 0x00, 0x14, 0xFF, 0xFF, 0xBA, 0xEC, 0x00, 0x00, 0xFF, 0xFE, 0x00, 0x00, 0x00, 0x00,
        0x00, 0x00, 0x00, 0x00] t && decide (t.ph = .done)) = true := by decide

theorem test_pck_lenp_refused :
    feed (after [.bld, .pln]) 0x600000000000000000 (fun t => latch .illegalCommand .phase 0x60#8 t &&
      decide (Memory.readBytes t.buf 10 2 = some [0x00, 0x00])) = true := by decide

/-- The table "Fold alone" of V-CKS, but for its large values, which `test_fold_table_large` shows by the closed form. -/
theorem test_fold_table :
    [0x0, 0x1, 0xFFFF].map fold = [0x0, 0x1, 0xFFFF] := by decide

theorem test_fold_table_large :
    fold 0x10000 = 0x1 ∧ fold 0x1FFFE = 0xFFFF ∧ fold 0x1FFFF = 0x1 ∧ fold 0xFFFF0000 = 0xFFFF ∧ fold 0xFFFFFFFF = 0xFFFF ∧
      fold 0x7FFF8000 = 0xFFFF ∧ fold 0xFFFFF7EC = 0xF7EC := by
  simp [Laws.fold_unfold, Laws.foldPass_eq]

/-! ### Hand-off and clear: V-EMT-1, V-EMT-2, V-CLR-2, V-CLR-4 -/

/-- `RUN` from reset. -/
def done : State := after [.bld, .pln, .cks, .pck]

theorem test_emt_sent :
    feed { done with tx := .sent 34#32 } 0x700000000000000000 (fun t =>
      decide (t.ph = .sent ∧ t.err = .none ∧ t.returnedCount = some 34#32 ∧ t.frame = some
        [0x00, 0x00, 0x00, 0x00, 0x00, 0x00, 0x00, 0x00, 0x00, 0x00, 0x00, 0x00, 0x08, 0x00, 0x45, 0x00, 0x00, 0x14,
          0x00, 0x00, 0x40, 0x00, 0x0A, 0x01, 0x72, 0xE7, 0x7F, 0x00, 0x00, 0x01, 0x7F, 0x00, 0x00, 0x01])) = true := by
  decide

theorem test_emt_fail :
    feed { done with tx := .fail } 0x700000000000000000 (fun t => latch .transmissionFailure .none 0x70#8 t &&
      decide (t.ph = .sent ∧ t.frameValid = true)) = true := by decide

theorem test_clr_clears_latch :
    feed (after [.ldfTtl 0x40, .ldfDmac 0x1000000000000]) 0x800000000000000000 (fun t => latch .none .none 0x00#8 t &&
      decide (t.ttl = 0x0A#8)) = true := by decide

theorem test_clr_ignores_operand :
    feed done 0x80FFFFFFFFFFFFFFFF (fun t => decide (t.ph = .idle ∧ t.hlen = 0#16 ∧ t.buf = [] ∧ t.ck = 0#16)) = true := by
  decide

/-! ### Priority: V-ERR-1, V-ERR-2, V-ERR-4 -/

theorem test_reserved_beats_phase :
    feed done 0x1C00000000FFFFFFFF (latch .illegalCommand .reserved 0x1C#8) = true := by decide

theorem test_phase_beats_width :
    feed (after [.bld]) 0x170000000000000100 (latch .illegalCommand .phase 0x17#8) = true := by decide

theorem test_first_error_stays :
    feed (after [.ldfVer 16]) 0x000000000000000000 (latch .invalidFieldWidth .none 0x13#8) = true := by decide

/-! ### The assembler: lines of P2, P4 and R64 -/

theorem test_assemble_mac :
    assemble ["LDF.DMAC FF:FF:FF:FF:FF:FF".toList, "LDF.ID 0xFFFF ; P2".toList] =
      some [0x100000FFFFFFFFFFFF#72, 0x14000000000000FFFF#72] := by decide

theorem test_assemble_send :
    assembleLine "SEND".toList = some [.bld, .pln, .cks, .pck, .emt] ∧ assembleLine "LDF.VER".toList = none := by decide

/-! ### One state of every phase, and that each satisfies the invariant -/

def built : State := after [.bld]
def full : State := { after [.bld] with params := ⟨20⟩ }
def lenp : State := after [.bld, .pln]
def lenpOdd : State := after [.bld, .apb 0xAB, .pln]
def summed : State := after [.bld, .pln, .cks]
def sent : State := after [.bld, .pln, .cks, .pck, .emt]
def tooWideState : State := after [.ldfVer 16]
def failed : State := after [.bld, .emt]

/-- The collaborator answered `Fail`. -/
def notSent : State := { sent with err := .transmissionFailure, ecmd := 0x70#8, tx := .fail }

theorem inv_reset : State.reset.Inv :=
  ⟨by decide, by decide, by decide, by decide, by decide, by decide, by decide, by decide, by decide, by decide, by decide,
    by decide, by decide⟩
theorem inv_built : built.Inv :=
  ⟨by decide, by decide, by decide, by decide, by decide, by decide, by decide, by decide, by decide, by decide, by decide,
    by decide, by decide⟩
theorem inv_full : full.Inv :=
  ⟨by decide, by decide, by decide, by decide, by decide, by decide, by decide, by decide, by decide, by decide, by decide,
    by decide, by decide⟩
theorem inv_lenp : lenp.Inv :=
  ⟨by decide, by decide, by decide, by decide, by decide, by decide, by decide, by decide, by decide, by decide, by decide,
    by decide, by decide⟩
theorem inv_lenpOdd : lenpOdd.Inv :=
  ⟨by decide, by decide, by decide, by decide, by decide, by decide, by decide, by decide, by decide, by decide, by decide,
    by decide, by decide⟩
theorem inv_summed : summed.Inv :=
  ⟨by decide, by decide, by decide, by decide, by decide, by decide, by decide, by decide, by decide, by decide, by decide,
    by decide, by decide⟩
theorem inv_done : done.Inv :=
  ⟨by decide, by decide, by decide, by decide, by decide, by decide, by decide, by decide, by decide, by decide, by decide,
    by decide, by decide⟩
theorem inv_sent : sent.Inv :=
  ⟨by decide, by decide, by decide, by decide, by decide, by decide, by decide, by decide, by decide, by decide, by decide,
    by decide, by decide⟩
theorem inv_tooWideState : tooWideState.Inv :=
  ⟨by decide, by decide, by decide, by decide, by decide, by decide, by decide, by decide, by decide, by decide, by decide,
    by decide, by decide⟩
theorem inv_failed : failed.Inv :=
  ⟨by decide, by decide, by decide, by decide, by decide, by decide, by decide, by decide, by decide, by decide, by decide,
    by decide, by decide⟩
theorem inv_notSent : notSent.Inv :=
  ⟨by decide, by decide, by decide, by decide, by decide, by decide, by decide, by decide, by decide, by decide, by decide,
    by decide, by decide⟩

/-! ### Witnesses: for every statement with hypotheses, states and operands that meet them, at the boundary of each clause -/

theorem witness_DecodeOfEncode : Instr.wf (.ldfDst (2 ^ 64 - 1)) = true ∧ Instr.wf .clr = true := by decide

theorem witness_EncodeOfDecode :
    decode 0x1AFFFFFFFFFFFFFFFF#72 = .ok (.ldfDst (2 ^ 64 - 1)) ∧ Instr.format (.ldfDst (2 ^ 64 - 1)) ≠ .N ∧
      decode 0x20FFFFFFFFFFFFFFFF#72 = .ok .bld ∧ Instr.format .bld = .N := by decide

/-- Each class of R58 at the ends of its range, and its neighbours that decode. -/
theorem witness_ReservedWords :
    decode 0x0F0000000000000000#72 = .error .opZero ∧ decode 0x900000000000000000#72 = .error .opUnassigned ∧
      decode 0xFF0000000000000000#72 = .error .opUnassigned ∧ decode 0x1B0000000000000000#72 = .error .loadSelector ∧
      decode 0x1F0000000000000000#72 = .error .loadSelector ∧ decode 0x210000000000000000#72 = .error .selectorNotZero ∧
      decode 0x8F0000000000000000#72 = .error .selectorNotZero := by decide

theorem witness_ReservedWords_clear :
    (presenting .reset 0#72).Presents 0#72 State.reset ∧ decode 0#72 = .error .opZero ∧ (presenting .reset 0#72).err = .none :=
  ⟨presents .reset _, by decide, rfl⟩

theorem witness_ReservedWords_latched :
    (presenting failed 0x900000000000000000#72).Presents 0x900000000000000000#72 { failed with inputs := [] } ∧
      (presenting failed 0x900000000000000000#72).err ≠ .none := ⟨presents failed _, by decide⟩

theorem witness_StepRunsDecodedCommand :
    (presenting built 0x400000000000000000#72).Presents 0x400000000000000000#72 { built with inputs := [] } ∧
      decode 0x400000000000000000#72 = .ok .pln := ⟨presents built _, by decide⟩

theorem witness_StepResetsOrIdles :
    (resetting done).PresentsReset { done with inputs := [] } ∧
      ({ done with inputs := [⟨false, false, 0#72, .fail⟩] } : State).inputs = [⟨false, false, 0#72, .fail⟩] ∧
      State.reset.inputs = [] := ⟨presents_reset done, rfl, rfl⟩

theorem witness_PresentedWordRunsNext : decodeTableWord 72 0x3000000000000000AB = some (.apb 0xAB) := by decide

theorem witness_StepAlwaysCompletes : State.Inv summed ∧ State.Inv sent := ⟨inv_summed, inv_sent⟩

theorem witness_ResetInputEqualsClear : decode 0x800000000000000000#72 = .ok .clr := by decide

/-- The largest operand of every width, and the smallest that does not fit. -/
theorem witness_FieldLoads :
    State.reset.err = .none ∧ State.reset.ph = .idle ∧ 2 ^ 48 - 1 < 2 ^ 48 ∧ 2 ^ 4 - 1 < 2 ^ 4 ∧ 2 ^ 3 - 1 < 2 ^ 3 ∧
      2 ^ 13 - 1 < 2 ^ 13 ∧ 2 ^ 32 - 1 < 2 ^ 32 ∧ 2 ^ 16 - 1 < 2 ^ 16 ∧ 2 ^ 8 - 1 < 2 ^ 8 := by decide

theorem witness_LoadTemplate_phase : built.err = .none ∧ built.ph ≠ .idle := by decide

theorem witness_LoadTemplate_width :
    State.reset.err = .none ∧ State.reset.ph = .idle ∧ 2 ^ Field.width .fragOff ≤ 0x2000 ∧ 0x1FFF < 2 ^ Field.width .fragOff := by
  decide

theorem witness_LoadBounds : State.reset.err = .none ∧ State.reset.ph = .idle ∧ 1 < 2 ^ Field.width .ttl := by decide

theorem witness_Build :
    built.err = .none ∧ built.ph ≠ .idle ∧ State.reset.err = .none ∧ State.reset.ph = .idle ∧
      ({ State.reset with params := ⟨20⟩ } : State).params.legal ∧
      ({ State.reset with params := ⟨65535⟩ } : State).params.legal := by decide

/-- Two states with the same fields that differ elsewhere. -/
theorem witness_BuildIsFunctionOfFields :
    (∀ f : Field, State.readField .reset f = State.readField { State.reset with ck := 1#16 } f) ∧
      (∃ t, exec .bld .reset = .next t) ∧ ∃ t, exec .bld { State.reset with ck := 1#16 } = .next t :=
  ⟨fun f => by cases f <;> rfl, next_of (by decide),
    next_of (by decide)⟩

theorem witness_Append_phase : lenp.err = .none ∧ lenp.ph ≠ .built := by decide

theorem witness_Append_capacity : full.err = .none ∧ full.ph = .built ∧ full.hlen.toNat = full.params.hdrCap := by decide

theorem witness_Append_width :
    built.err = .none ∧ built.ph = .built ∧ built.hlen.toNat ≠ built.params.hdrCap ∧ 2 ^ 8 ≤ 256 := by decide

/-- The last free byte. -/
theorem witness_Append_accepts :
    ({ built with params := ⟨21⟩ } : State).ph = .built ∧ ({ built with params := ⟨21⟩ } : State).params.legal ∧
      built.hlen.toNat < 21 ∧ 255 < 2 ^ 8 := by decide

theorem witness_PatchTotalLength : sent.err = .none ∧ sent.ph ≠ .built ∧ full.ph = .built ∧ full.params.legal := by decide

/-- One byte: the last word of an odd length is padded. -/
theorem witness_WordSumOfBytes : ∀ a < 1, Memory.read [(0, 0xAB#8)] a = some ((fun _ => 0xAB#8) a) := by decide

/-- The longest buffer, every byte 0xFF. -/
theorem witness_WordSumBound :
    ∃ S, wordSum ((List.range 65535).map fun a => (a, 0xFF#8)) 65535 = some S :=
  Laws.wordSum_of_range _ _ (by rw [List.map_map]; exact List.map_id _)

theorem witness_Checksum_phase : built.err = .none ∧ built.ph ≠ .lenp ∧ built.ph ≠ .done := by decide

theorem witness_Checksum_lenp :
    lenpOdd.err = .none ∧ lenpOdd.ph = .lenp ∧ ∀ a < lenpOdd.hlen.toNat, (lenpOdd.readByte .buf a).isSome := by decide

theorem witness_Checksum_done :
    done.err = .none ∧ done.ph = .done ∧ done.Inv ∧ ∀ a < done.hlen.toNat, (done.readByte .buf a).isSome :=
  ⟨by decide, by decide, inv_done, by decide⟩

theorem witness_FoldClosedForm :
    0 < 1 ∧ lenp.Inv ∧ lenp.err = .none ∧ lenp.ph = .lenp ∧ (∃ t, exec .cks lenp = .next t) ∧
      done.Inv ∧ done.ph = .done ∧ ∃ t, exec .cks done = .next t :=
  ⟨by decide, inv_lenp, by decide, by decide, next_of (by decide), inv_done,
    by decide, next_of (by decide)⟩

theorem witness_TwoFoldPasses :
    0xFFFFFFFF < 2 ^ 32 ∧ 0xFFFF < 0x10000 ∧ ¬ 0x10000 ≤ (0x10000 &&& 0xFFFF) + (0x10000 >>> 16) ∧
      0x10000 ≤ (0x1FFFF &&& 0xFFFF) + (0x1FFFF >>> 16) := by decide

/-- Two buffers of two words, the one in the other's order. -/
def twoWords (a b : Byte) : State :=
  { State.reset with ph := .lenp, hlen := 4#16, buf := [(0, a), (1, a), (2, b), (3, b)] }

theorem witness_ChecksumIgnoresWordOrder :
    List.Perm ((List.range (wordCount 4)).map (Machine.word (twoWords 1 2).buf 4))
        ((List.range (wordCount 4)).map (Machine.word (twoWords 2 1).buf 4)) ∧
      (twoWords 1 2).err = .none ∧ (twoWords 1 2).ph = .lenp ∧ (∃ t, exec .cks (twoWords 1 2) = .next t) ∧
      ∃ t, exec .cks (twoWords 2 1) = .next t :=
  ⟨by decide, rfl, rfl, next_of (by decide),
    next_of (by decide)⟩

theorem witness_PatchChecksum : done.err = .none ∧ done.ph ≠ .summed ∧ summed.ph = .summed ∧ summed.params.legal := by decide

theorem witness_PatchedHeaderVerifies :
    done.Inv ∧ done.err = .none ∧ done.ph = .done ∧ lenpOdd.Inv ∧ lenpOdd.err = .none ∧ lenpOdd.ph = .lenp :=
  ⟨inv_done, by decide, by decide, inv_lenpOdd, by decide, by decide⟩

theorem witness_SendEmits :
    State.reset.err = .none ∧ State.reset.ph = .idle ∧ State.reset.params.legal ∧ State.reset.tx = .sent 0#32 ∧
      ({ State.reset with tx := .fail } : State).tx = .fail ∧ sent.err = .none ∧ sent.ph ≠ .idle := by decide

/-- Bytes that fill the buffer, and none at the smallest capacity. -/
theorem witness_AppendedBytesAreSent :
    State.Inv .reset ∧ Config.ipHdrLen + (List.replicate 44 0x11#8).length ≤ State.reset.params.hdrCap ∧
      State.Inv { State.reset with params := ⟨20⟩ } ∧ Config.ipHdrLen + ([] : List Byte).length ≤ 20 :=
  ⟨inv_reset, by decide,
    ⟨by decide, by decide, by decide, by decide, by decide, by decide, by decide, by decide, by decide, by decide, by decide,
      by decide, by decide⟩, by decide⟩

theorem witness_HandOff :
    summed.err = .none ∧ summed.ph ≠ .done ∧ done.err = .none ∧ done.ph = .done ∧
      ({ done with tx := .sent 34#32 } : State).tx = .sent 34#32 ∧ ({ done with tx := .fail } : State).tx = .fail := by decide

theorem witness_Frame : done.frameValid = false ∧ sent.Inv ∧ sent.frameValid = true := ⟨by decide, inv_sent, by decide⟩

theorem witness_CheckOrder_latched :
    (presenting failed 0x200000000000000000#72).Presents 0x200000000000000000#72 { failed with inputs := [] } ∧
      failed.err ≠ .none ∧ cmdByte 0x200000000000000000#72 ≠ 0x80#8 := ⟨presents failed _, by decide, by decide⟩

theorem witness_CheckOrder_reserved :
    (presenting done 0x1C00000000FFFFFFFF#72).Presents 0x1C00000000FFFFFFFF#72 { done with inputs := [] } ∧
      done.err = .none ∧ decode 0x1C00000000FFFFFFFF#72 = .error .loadSelector := ⟨presents done _, by decide, by decide⟩

theorem witness_CheckOrder_phase :
    (presenting built 0x170000000000000100#72).Presents 0x170000000000000100#72 { built with inputs := [] } ∧
      built.err = .none ∧ decode 0x170000000000000100#72 = .ok (.ldfTtl 256) ∧ built.ph.admits (.ldfTtl 256) = false :=
  ⟨presents built _, by decide, by decide, by decide⟩

theorem witness_CheckOrder_capacity :
    (presenting full 0x300000000000000100#72).Presents 0x300000000000000100#72 { full with inputs := [] } ∧
      decode 0x300000000000000100#72 = .ok (.apb 256) ∧ full.ph.admits (.apb 256) = true ∧
      Instr.format (.apb 256) = .V ∧ full.hlen.toNat = full.params.hdrCap :=
  ⟨presents full _, by decide, by decide, by decide, by decide⟩

theorem witness_CheckOrder_width :
    (presenting built 0x300000000000000100#72).Presents 0x300000000000000100#72 { built with inputs := [] } ∧
      built.ph.admits (.apb 256) = true ∧ built.hlen.toNat ≠ built.params.hdrCap ∧
      Instr.operandWidth (.apb 256) = some 8 ∧ 2 ^ 8 ≤ Instr.operand (.apb 256) :=
  ⟨presents built _, by decide, by decide, by decide, by decide⟩

theorem witness_CheckOrder_execute :
    (presenting built 0x3000000000000000FF#72).Presents 0x3000000000000000FF#72 { built with inputs := [] } ∧
      decode 0x3000000000000000FF#72 = .ok (.apb 255) ∧ built.ph.admits (.apb 255) = true ∧
      (∀ w, Instr.operandWidth (.apb 255) = some w → Instr.operand (.apb 255) < 2 ^ w) ∧
      ∃ t, step (presenting built 0x3000000000000000FF#72) = .next t :=
  ⟨presents built _, by decide, by decide, fun w h => by cases h; decide,
    next_of (by decide)⟩

/-- A refused phase, and the five transitions in the states they start from. -/
theorem witness_PhaseTransitions :
    built.err = .none ∧ built.ph.admits .emt = false ∧ State.reset.ph.admits .bld = true ∧ built.ph.admits .pln = true ∧
      lenp.ph.admits .cks = true ∧ summed.ph.admits .pck = true ∧ done.ph.admits .emt = true ∧
      ran (exec .bld .reset) (fun t => t.ph = .built) = true ∧ ran (exec .pln built) (fun t => t.ph = .lenp) = true ∧
      ran (exec .cks lenp) (fun t => t.ph = .summed) = true ∧ ran (exec .pck summed) (fun t => t.ph = .done) = true ∧
      ran (exec .emt done) (fun t => t.ph = .sent) = true := by decide

/-- A step that raises each of the errors from a state with none latched. -/
theorem witness_ErrorsOfEachCommand :
    ran (step (presenting .reset 0#72)) (latch .illegalCommand .reserved 0x00#8) = true ∧
      ran (step (presenting done 0x600000000000000000#72)) (latch .illegalCommand .phase 0x60#8) = true ∧
      ran (step (presenting full 0x300000000000000000#72)) (latch .illegalCommand .capacity 0x30#8) = true ∧
      ran (step (presenting .reset 0x130000000000000010#72)) (latch .invalidFieldWidth .none 0x13#8) = true ∧
      ran (step (presenting { done with tx := .fail } 0x700000000000000000#72))
        (latch .transmissionFailure .none 0x70#8) = true := by decide

theorem witness_ErrorEntryIsPrecise :
    (presenting full 0x300000000000000000#72).Presents 0x300000000000000000#72 { full with inputs := [] } ∧
      full.err = .none ∧ ∃ t, step (presenting full 0x300000000000000000#72) = .next t ∧
        latch .illegalCommand .capacity 0x30#8 t = true :=
  ⟨presents full _, by decide, next_of_ran (by decide)⟩

theorem witness_ErrorStateIsFrozen :
    (presenting notSent 0x700000000000000000#72).Presents 0x700000000000000000#72 { notSent with inputs := [] } ∧
      (presenting notSent 0x700000000000000000#72).err ≠ .none ∧ cmdByte 0x700000000000000000#72 ≠ 0x80#8 :=
  ⟨presents notSent _, by decide, by decide⟩

theorem witness_OnlyClearLeavesErrorState :
    failed.err ≠ .none ∧ (∃ t, step failed = .next t) ∧
      (presenting failed 0x80FFFFFFFFFFFFFFFF#72).Presents 0x80FFFFFFFFFFFFFFFF#72 { failed with inputs := [] } ∧
      cmdByte 0x80FFFFFFFFFFFFFFFF#72 = 0x80#8 ∧ (resetting failed).PresentsReset { failed with inputs := [] } :=
  ⟨by decide, next_of (by decide), presents failed _, by decide,
    presents_reset failed⟩

/-- The invariant does not look at what is presented. -/
theorem inv_presenting_done : (presenting done 0x700000000000000000#72).Inv :=
  ⟨by decide, by decide, by decide, by decide, by decide, by decide, by decide, by decide, by decide, by decide, by decide,
    by decide, by decide⟩

theorem witness_FrameRisesOnceVerified :
    (presenting done 0x700000000000000000#72).Inv ∧ (presenting done 0x700000000000000000#72).frameValid = false ∧
      (∃ t, step (presenting done 0x700000000000000000#72) = .next t ∧ t.frameValid = true) ∧
      sent.Inv ∧ sent.frameValid = true ∧ ∃ t, step sent = .next t :=
  ⟨inv_presenting_done, by decide, by simpa using next_of_ran (p := fun t => t.frameValid) (by decide), inv_sent, by decide,
    next_of (by decide)⟩

/-- Each command of the frame statements, accepted and refused. -/
theorem witness_Frames :
    ran (exec (Field.load .ttl 255) .reset) (fun t => decide (t.err = .none)) = true ∧
      ran (exec (Field.load .ttl 256) .reset) (fun t => decide (t.err ≠ .none)) = true ∧
      ran (exec .cks lenp) (fun t => decide (t.err = .none)) = true ∧ ran (exec .cks built) (fun t => decide (t.err ≠ .none)) = true ∧
      ran (exec .emt done) (fun t => decide (t.err = .none)) = true ∧
      ran (exec .emt built) (fun t => decide (t.err = .illegalCommand)) = true ∧
      ran (exec .bld .reset) (fun t => decide (t.err = .none)) = true ∧ ran (exec .bld built) (fun t => decide (t.err ≠ .none)) = true ∧
      ran (exec (.apb 255) built) (fun t => decide (t.err = .none)) = true ∧
      ran (exec (.apb 256) built) (fun t => decide (t.err ≠ .none)) = true ∧
      ran (exec .pln full) (fun t => decide (t.err = .none)) = true ∧ ran (exec .pln lenp) (fun t => decide (t.err ≠ .none)) = true ∧
      ran (exec .pck summed) (fun t => decide (t.err = .none)) = true ∧ ran (exec .pck lenp) (fun t => decide (t.err ≠ .none)) = true := by
  decide

/-- A step that changes a field register, `PH` and the spaces, `HLEN`, `FRAME_VALID`, the checksum registers, the latch. -/
theorem witness_WritersOfEachRegister :
    ran (step (presenting .reset 0x170000000000000001#72)) (fun t => t.readField .ttl ≠ State.readField .reset .ttl) = true ∧
      ran (step (presenting .reset 0x200000000000000000#72)) (fun t => t.ph ≠ .idle ∧ t.eth ≠ [] ∧ t.buf ≠ []) = true ∧
      ran (step (presenting built 0x300000000000000000#72)) (fun t => t.hlen ≠ built.hlen) = true ∧
      ran (step (presenting done 0x700000000000000000#72)) (fun t => t.frameValid ≠ done.frameValid) = true ∧
      ran (step (presenting lenp 0x500000000000000000#72)) (fun t => t.acc ≠ lenp.acc ∧ t.ck ≠ lenp.ck) = true ∧
      ran (step (presenting .reset 0#72)) (fun t => t.err ≠ .none) = true := by decide

/-- Two states that differ in the data alone: another checksum, other bytes, another field. -/
theorem witness_ControlIgnoresData :
    lenp.ph = (after [.ldfTtl 1, .bld, .pln]).ph ∧ lenp.err = (after [.ldfTtl 1, .bld, .pln]).err ∧
      lenp.esub = (after [.ldfTtl 1, .bld, .pln]).esub ∧ lenp.ecmd = (after [.ldfTtl 1, .bld, .pln]).ecmd ∧
      lenp.hlen = (after [.ldfTtl 1, .bld, .pln]).hlen ∧ lenp.frameValid = (after [.ldfTtl 1, .bld, .pln]).frameValid ∧
      lenp.params = (after [.ldfTtl 1, .bld, .pln]).params ∧
      ran (step (presenting lenp 0x500000000000000000#72)) (fun _ => true) = true ∧
      ran (step (presenting (after [.ldfTtl 1, .bld, .pln]) 0x500000000000000000#72)) (fun _ => true) = true := by decide

/-- A buffer with a byte that holds no value, and a length beyond the capacity: states that no run reaches. -/
theorem witness_Stops :
    exec .cks { lenp with buf := [] } = .refused .unwrittenByte ∧
      exec (.apb 0) { built with hlen := 65#16 } = .fault (.outsideSpace .buf 65) ∧
      ({ built with hlen := 65#16 } : State).params.legal ∧ ({ built with hlen := 65#16 } : State).ph = .built ∧
      (64 : Nat) < (65#16).toNat := ⟨rfl, rfl, by decide, by decide, by decide⟩

/-- A store that ends at the end of the space, with the largest value that fits. -/
theorem witness_MemWrite : 12 + 2 ≤ State.spaceSize .reset .eth ∧ 0xFFFF < 2 ^ (8 * 2) := by decide

theorem witness_StepKeepsMemoryCanonical :
    Memory.wf (presenting built 0x3000000000000000AB#72).eth = true ∧
      Memory.wf (presenting built 0x3000000000000000AB#72).buf = true ∧
      ran (step (presenting built 0x3000000000000000AB#72)) (fun _ => true) = true := by decide

theorem witness_ResetSatisfiesInvariant : Config.Params.legal ⟨20⟩ ∧ Config.Params.legal ⟨65535⟩ := by decide

theorem witness_StepKeepsInvariant :
    (presenting done 0x700000000000000000#72).Inv ∧ ∃ t, step (presenting done 0x700000000000000000#72) = .next t :=
  ⟨inv_presenting_done, next_of (by decide)⟩

/-- A run reaches SENT, and one reaches it with an error latched. -/
theorem witness_Reachable_sent :
    ∃ t, Reachable t ∧ (t.ph = .sent ∧ t.frameValid = true ∧ t.err = .none) := by
  obtain ⟨t, h, hp⟩ := next_of_ran (r := steps 5 (driven (Pseudo.send.expand.map encode) (.sent 34#32)))
    (p := fun t => decide (t.ph = .sent ∧ t.frameValid = true ∧ t.err = .none)) (by decide)
  exact ⟨t, reachable_steps 5 (reachable_driven _ _) h, of_decide_eq_true hp⟩

theorem witness_Reachable_failed :
    ∃ t, Reachable t ∧ (t.ph = .sent ∧ t.frameValid = true ∧ t.err = .transmissionFailure) := by
  obtain ⟨t, h, hp⟩ := next_of_ran (r := steps 5 (driven (Pseudo.send.expand.map encode) .fail))
    (p := fun t => decide (t.ph = .sent ∧ t.frameValid = true ∧ t.err = .transmissionFailure)) (by decide)
  exact ⟨t, reachable_steps 5 (reachable_driven _ _) h, of_decide_eq_true hp⟩

theorem witness_Reachable_tooWide :
    ∃ t, Reachable t ∧ (t.ph = .built ∧ t.frameValid = false ∧ t.err = .invalidFieldWidth) := by
  obtain ⟨t, h, hp⟩ := next_of_ran (r := steps 2 (driven [encode .bld, encode (.apb 256)] .fail))
    (p := fun t => decide (t.ph = .built ∧ t.frameValid = false ∧ t.err = .invalidFieldWidth)) (by decide)
  exact ⟨t, reachable_steps 2 (reachable_driven _ _) h, of_decide_eq_true hp⟩

end Sys2Proof.Tests
end

section
/-! PROOF. The word count, the words and the unfolded sum of a buffer whose length is a 16-bit value (`00_scope.md` R8). -/

namespace Sys2Proof.Proofs

open Sys2Proof.Machine

/-- `NW` for every length `HLEN` can hold. -/
theorem wordCount_le (n : Nat) (hn : n ≤ 65535) : wordCount n ≤ 32768 := by
  unfold wordCount
  omega

/-- R8's first bound: the sum of the words against the most words there can be. -/
theorem wordSum_le (m : Memory) (n S : Nat) (hn : n ≤ 65535) (h : wordSum m n = some S) : S ≤ 32768 * 0xFFFF :=
  calc
    S ≤ wordCount n * 0xFFFF := Laws.sumWords_le m n (wordCount n) S h
    _ ≤ 32768 * 0xFFFF := Nat.mul_le_mul_right _ (wordCount_le n hn)

/-- Settles O22: the bound on one word times the bound on the number of words. -/
theorem wordSumBound : Obligations.WordSumBound := by
  unfold Obligations.WordSumBound
  intro m n hn
  refine ⟨wordCount_le n hn, Laws.word_le m n, fun S hS => ?_⟩
  have hle : S ≤ 32768 * 0xFFFF := wordSum_le m n S hn hS
  exact ⟨hle, hle, Laws.wordSum_lt m n S (Nat.lt_succ_of_le hn) hS⟩

end Sys2Proof.Proofs
end

section
/-! PROOF. The state: its reset values (`10_state.md` R35), the frame (R31), and the invariant over every step and every run
(R34). -/

namespace Sys2Proof.Proofs

open Sys2Proof.Machine

/-! ### The reset state -/

/-- R29, R30: no byte of either space holds a value after reset. -/
theorem readByte_reset (sp : Space) (a : Nat) : State.reset.readByte sp a = none := by
  cases sp with
  | eth => rfl
  | buf => rfl

/-- Settles O10: each register is read off the reset state. -/
theorem resetValues : Obligations.ResetValues :=
  ⟨rfl, rfl, rfl, rfl, rfl, rfl, rfl, rfl, rfl, rfl, rfl, rfl, rfl, rfl, rfl, rfl, rfl, rfl, rfl, readByte_reset⟩

/-! ### The frame -/

/-- Byte `k` of a sequence that was read is the byte at its offset. -/
theorem getElem?_of_readBytes {m : Memory} {a n : Nat} {bs : List Byte} (h : Memory.readBytes m a n = some bs) (k : Nat)
    (hk : k < n) : bs[k]? = Memory.read m (a + k) := by
  obtain ⟨hl, hb⟩ := (Laws.readBytes_eq_some m a n bs).1 h
  rw [List.getElem?_eq_getElem (hl ▸ hk), hb k (hl ▸ hk)]

/-- From `BLD` on, `ETH` lists its 14 offsets (R29). -/
theorem eth_filled_iff {s : State} (hp : s.ph ≠ .idle) :
    s.eth.map Prod.fst = List.range (if s.ph = .idle then 0 else Config.ethLen) ↔
      s.eth.map Prod.fst = List.range 14 := by
  rw [if_neg hp, Config.ethLen]

/-- R31's two parts, from bytes that were read. -/
theorem frame_of_readBytes {s : State} {e b : List Byte} (hv : s.frameValid = true)
    (he : Memory.readBytes s.eth 0 14 = some e) (hb : Memory.readBytes s.buf 0 s.hlen.toNat = some b) :
    s.frame = some (e ++ b) := by
  simp [State.frame, State.frameBytes, hv, Config.ethLen, he, hb]

/-- Settles O32: in SENT all 14 bytes of `ETH` and the first `HLEN` bytes of `BUF` hold a value, so both are read. -/
theorem frameIsEthThenBuf : Obligations.FrameIsEthThenBuf := by
  unfold Obligations.FrameIsEthThenBuf
  refine ⟨fun s hv => by simp [State.frame, hv], fun s hI hv => ?_⟩
  have hp : s.ph ≠ .idle := by simp [hI.frameSent.1 hv]
  obtain ⟨e, he, hel⟩ := Laws.readBytes_of_range s.eth 14 0 14 ((eth_filled_iff hp).1 hI.spaces.1) (by omega)
  obtain ⟨b, hb, hbl⟩ := Laws.readBytes_of_range s.buf s.hlen.toNat 0 s.hlen.toNat hI.spaces.2 (by omega)
  refine ⟨e ++ b, frame_of_readBytes hv he hb, by simp [hel, hbl], fun k hk => ?_, fun k hk => ?_⟩
  · rw [List.getElem?_append_left (by omega), getElem?_of_readBytes he k hk, Nat.zero_add, Laws.readByte_eth]
  · rw [← hel, List.getElem?_append_right (by omega), Nat.add_sub_cancel_left, getElem?_of_readBytes hb k hk,
      Nat.zero_add, Laws.readByte_buf]

/-! ### What the invariant says while no error is latched -/

/-- A step between two phases after IDLE that leaves `ETH` leaves it filled. -/
theorem eth_filled_of_ne_idle {s t : State} (h : s.Inv) (hs : s.ph ≠ .idle) (ht : t.ph ≠ .idle) (he : t.eth = s.eth) :
    t.eth.map Prod.fst = List.range (if t.ph = .idle then 0 else Config.ethLen) := by
  rw [eth_filled_iff ht, he]
  exact (eth_filled_iff hs).1 h.spaces.1

/-- A step between two phases after IDLE that leaves `HLEN` leaves it in its range. -/
theorem lengthInRange_of_ne_idle {s t : State} (h : s.Inv) (hs : s.ph ≠ .idle) (ht : t.ph ≠ .idle)
    (hl : t.hlen = s.hlen) (hp : t.params = s.params) : t.LengthInRange := by
  rw [State.LengthInRange, hl, hp]
  exact ⟨iff_of_false ht (mt h.length.1.2 hs), fun _ => h.length.2 hs⟩

theorem frameOnlySent_of_frameValid_eq_false {s : State} (hv : s.frameValid = false) (hp : s.ph ≠ .sent) :
    s.FrameOnlySent :=
  iff_of_false (Bool.eq_false_iff.1 hv) hp

theorem errorPhases_of_err_eq_none {s : State} (he : s.err = .none) : s.ErrorPhases := by
  simp [State.ErrorPhases, he]

theorem capacityCause_of_esub_eq_none {s : State} (hs : s.esub = .none) : s.CapacityCause := by
  simp [State.CapacityCause, hs]

theorem frameValid_eq_false {s : State} (h : s.Inv) (hp : s.ph ≠ .sent) : s.frameValid = false :=
  Bool.eq_false_iff.2 (mt h.frameSent.1 hp)

theorem esub_eq_none {s : State} (h : s.Inv) (he : s.err = .none) : s.esub = .none := by
  by_contra hne
  exact absurd (he.symm.trans (h.latch.1.2 hne)) nofun

/-! ### The updates that write no header byte keep the invariant -/

theorem inv_resetBlock {s : State} (hp : s.params.legal) : (resetBlock s).Inv where
  params := hp
  spaces := ⟨rfl, rfl⟩
  length := ⟨iff_of_true rfl rfl, fun h => absurd rfl h⟩
  checksumZero := nofun
  totalLength := ⟨nofun, fun h => absurd rfl h⟩
  verified := nofun
  frameSent := ⟨nofun, nofun⟩
  errorPhases := ⟨nofun, nofun, nofun⟩
  latch := ⟨⟨nofun, fun h => absurd rfl h⟩, fun _ => rfl⟩
  capacity := nofun
  hardwired := fun h => absurd rfl h
  checksum := ⟨fun _ => ⟨rfl, rfl⟩, nofun⟩
  summed := nofun

theorem inv_takeSample {s : State} (p : PortSample) (rest : List PortSample) (h : s.Inv) : (takeSample p rest s).Inv :=
  { h with }

theorem inv_writeField {s : State} (f : Field) (v : Nat) (h : s.Inv) : (s.writeField f v).Inv := by
  cases f <;> exact { h with }

/-- An IllegalCommand keeps the invariant in every phase; its capacity sub-cause only with `BUF` full (R108). -/
theorem inv_illegalCommand {s : State} {sub : SubCause} {c : Byte} (h : s.Inv) (hs : sub ≠ .none)
    (hc : sub = .capacity → s.ph = .built ∧ s.hlen.toNat = s.params.hdrCap ∧ c = 0x30#8) :
    (enterError .illegalCommand sub c s).Inv :=
  { h with
    errorPhases := ⟨nofun, nofun, fun _ hp => show s.frameValid = false from frameValid_eq_false h hp⟩
    latch := ⟨iff_of_true rfl hs, nofun⟩
    capacity := hc }

/-- R106: the two phases whose commands check an operand. -/
theorem inv_invalidFieldWidth {s : State} {c : Byte} (h : s.Inv) (hp : s.ph = .idle ∨ s.ph = .built) :
    (enterError .invalidFieldWidth .none c s).Inv :=
  have hf : s.frameValid = false := frameValid_eq_false h (by rcases hp with hp | hp <;> simp [hp])
  { h with
    errorPhases := ⟨fun _ => ⟨hp, hf⟩, nofun, nofun⟩
    latch := ⟨⟨nofun, fun hs => absurd rfl hs⟩, nofun⟩
    capacity := nofun }

/-- R107: only the hand-off raises it. -/
theorem inv_transmissionFailure {s : State} (h : s.Inv) (hp : s.ph = .sent) :
    (enterError .transmissionFailure .none 0x70#8 s).Inv :=
  { h with
    errorPhases := ⟨nofun, fun _ => ⟨hp, rfl⟩, nofun⟩
    latch := ⟨⟨nofun, fun hs => absurd rfl hs⟩, nofun⟩
    capacity := nofun }

theorem inv_noEffect {i : Instr} {ps : List Phase} {s t : State} (h : s.Inv) (hn : Laws.NoEffect i ps s t) : t.Inv := by
  obtain ⟨-, rfl⟩ | ⟨-, -, rfl⟩ := hn
  · exact h
  · exact inv_illegalCommand h nofun nofun

theorem inv_rejectReserved {s : State} (c : CmdWord) (h : s.Inv) : (rejectReserved c s).Inv := by
  by_cases he : s.err = .none
  · rw [Laws.rejectReserved_clear c s he]
    exact inv_illegalCommand h nofun nofun
  · rwa [Laws.rejectReserved_latched c s he]

/-! ### `BLD` and `APB` keep the invariant -/

/-- The bytes `BLD` stores in `BUF` (R82). -/
theorem read_built (s : State) (k : Nat) (hk : k < 20) :
    Memory.read (Laws.built s).buf k = some ((ip4Bytes s)[k]'(by simpa using hk)) := by
  rw [Laws.built_buf]
  simpa only [Nat.zero_add] using Laws.read_writeBytes_inside (ip4Bytes s) s.buf 0 k (by simpa using hk)

/-- R15, R82: the low nibble of the first header byte is `IHL` = 5. -/
theorem versionAndIhl_lowNibble : ∀ v : BitVec 4, versionAndIhl v &&& 0x0F#8 = 0x05#8 := by decide

theorem inv_built {s : State} (h : s.Inv) (he : s.err = .none) (hp : s.ph = .idle) (hc : 20 ≤ s.params.hdrCap) :
    (Laws.built s).Inv := by
  have hs : s.esub = .none := esub_eq_none h he
  obtain ⟨heth, hbuf⟩ := h.spaces
  rw [if_pos hp] at heth
  rw [h.length.1.1 hp] at hbuf
  have hf : s.frameValid = false := frameValid_eq_false h (by simp [hp])
  have hread := read_built s
  exact
    { h with
      spaces := ⟨(eth_filled_iff (by simp)).2
          (by simpa using Laws.keys_writeBytes_range (ethBytes s) s.eth 0 0 heth (Nat.le_refl 0)),
        by simpa using Laws.keys_writeBytes_range (ip4Bytes s) s.buf 0 0 hbuf (Nat.le_refl 0)⟩
      length := ⟨⟨nofun, nofun⟩, fun _ => ⟨Nat.le_refl 20, hc⟩⟩
      checksumZero := fun _ => ⟨hread 10 (by omega), hread 11 (by omega)⟩
      totalLength := ⟨fun _ => ⟨hread 2 (by omega), hread 3 (by omega)⟩, fun _ hb => absurd rfl hb⟩
      verified := nofun
      frameSent := frameOnlySent_of_frameValid_eq_false hf nofun
      errorPhases := errorPhases_of_err_eq_none he
      capacity := capacityCause_of_esub_eq_none hs
      hardwired := fun _ => ⟨by
        rw [Laws.readByte_buf, hread 0 (by omega)]
        exact congrArg some (versionAndIhl_lowNibble s.version), hread 1 (by omega)⟩
      checksum := ⟨fun _ => h.checksum.1 (.inl hp), nofun⟩
      summed := nofun }

theorem inv_appended {s : State} {v : Nat} (h : s.Inv) (he : s.err = .none) (hp : s.ph = .built)
    (hc : s.hlen.toNat < s.params.hdrCap) : (Laws.appended v s).Inv := by
  have hs : s.esub = .none := esub_eq_none h he
  have hbuilt : s.ph ≠ .idle := by simp [hp]
  have hlen : 20 ≤ s.hlen.toNat := (h.length.2 hbuilt).1
  have hcap : s.params.hdrCap ≤ 65535 := h.params.2
  have hsucc : (s.hlen + 1#16).toNat = s.hlen.toNat + 1 := by
    rw [BitVec.toNat_add, BitVec.toNat_ofNat]; omega
  have hread : ∀ a < 20, (Laws.appended v s).readByte .buf a = s.readByte .buf a := fun a ha =>
    Laws.read_write_other s.buf s.hlen.toNat a _ (by omega)
  exact
    { h with
      spaces := ⟨h.spaces.1, by
        rw [Laws.appended_buf, Laws.appended_hlen, hsucc, Laws.keys_write_range _ _ _ _ h.spaces.2 (Nat.le_refl _),
          Nat.max_eq_right (Nat.le_succ _)]⟩
      length := by
        refine ⟨iff_of_false hbuilt fun h0 => ?_, fun _ => ?_⟩
        · have : (s.hlen + 1#16).toNat = 0 := congrArg BitVec.toNat h0
          omega
        · rw [Laws.appended_hlen, hsucc, Laws.appended_params, Config.ipHdrLen]
          omega
      checksumZero := by rw [State.ChecksumFieldZero, hread 10 (by omega), hread 11 (by omega)]; exact h.checksumZero
      totalLength := by
        rw [State.TotalLengthField, hread 2 (by omega), hread 3 (by omega)]
        exact ⟨h.totalLength.1, fun _ hb => absurd hp hb⟩
      verified := by simp [hp]
      capacity := capacityCause_of_esub_eq_none hs
      hardwired := by rw [State.HardwiredFields, hread 0 (by omega), hread 1 (by omega)]; exact h.hardwired
      summed := by simp [hp] }

/-! ### `PLN`, `CKS` and `PCK` keep the invariant -/

/-- Two bytes stored by `MemWrite` are read back as the value (R41, R42). -/
theorem readValue_writeBytes_two (m : Memory) (a v : Nat) (hv : v < 65536) :
    Memory.readValue (Memory.writeBytes m a (beBytes 2 v)) a 2 = some v := by
  have := Laws.readBytes_writeBytes_same (beBytes 2 v) m a
  rw [Laws.length_beBytes] at this
  rw [Memory.readValue, this, Option.map_some, Laws.beValue_beBytes_two v hv]

/-- A store of two bytes inside the offsets listed leaves the same offsets listed. -/
theorem keys_writeBytes_two {m : Memory} {n a v : Nat} (h : m.map Prod.fst = List.range n) (ha : a + 2 ≤ n) :
    (Memory.writeBytes m a (beBytes 2 v)).map Prod.fst = List.range n := by
  rw [Laws.keys_writeBytes_range _ _ _ _ h (by omega), Laws.length_beBytes, Nat.max_eq_left ha]

theorem read_writeBytes_two {m : Memory} {a v x : Nat} (hx : x < a ∨ a + 2 ≤ x) :
    Memory.read (Memory.writeBytes m a (beBytes 2 v)) x = Memory.read m x :=
  Laws.read_writeBytes_outside _ m a x (by simpa using hx)

theorem inv_lengthPatched {s : State} (h : s.Inv) (he : s.err = .none) (hp : s.ph = .built) :
    (Laws.lengthPatched s).Inv := by
  have hs : s.esub = .none := esub_eq_none h he
  have hbuilt : s.ph ≠ .idle := by simp [hp]
  have hlen : 20 ≤ s.hlen.toNat := (h.length.2 hbuilt).1
  have hf : s.frameValid = false := frameValid_eq_false h (by simp [hp])
  have hkeys := keys_writeBytes_two (a := 2) (v := s.hlen.toNat) h.spaces.2 (by omega)
  have hread : ∀ a, a < 2 ∨ 2 + 2 ≤ a → (Laws.lengthPatched s).readByte .buf a = s.readByte .buf a := fun a ha =>
    read_writeBytes_two ha
  exact
    { h with
      spaces := ⟨eth_filled_of_ne_idle h hbuilt nofun rfl, hkeys⟩
      length := lengthInRange_of_ne_idle h hbuilt nofun rfl rfl
      checksumZero := fun _ => by
        rw [hread 10 (by omega), hread 11 (by omega)]
        exact h.checksumZero (.inl hp)
      totalLength := ⟨nofun, fun _ _ => readValue_writeBytes_two s.buf 2 s.hlen.toNat s.hlen.isLt⟩
      verified := nofun
      frameSent := frameOnlySent_of_frameValid_eq_false hf nofun
      errorPhases := errorPhases_of_err_eq_none he
      capacity := capacityCause_of_esub_eq_none hs
      hardwired := fun _ => by
        rw [hread 0 (by omega), hread 1 (by omega)]
        exact h.hardwired hbuilt
      checksum := ⟨fun _ => h.checksum.1 (.inr (.inl hp)), nofun⟩
      summed := nofun }

/-- R95: `Word(0)` of a built header is not 0, since `IHL` is 5, so neither is the sum. -/
theorem wordSum_pos {s : State} {S : Nat} (h : s.Inv) (hp : s.ph ≠ .idle) (hS : wordSum s.buf s.hlen.toNat = some S) :
    0 < S := by
  have h20 : 20 ≤ s.hlen.toNat := (h.length.2 hp).1
  obtain ⟨hIhl, hDscp⟩ := h.hardwired hp
  obtain ⟨b, hb, hb5⟩ := Option.map_eq_some_iff.1 hIhl
  have hb0 : b.toNat ≠ 0 := fun h0 => by
    obtain rfl : b = 0#8 := BitVec.eq_of_toNat_eq h0
    exact absurd hb5 (by decide)
  have hw := Laws.word_inside s.buf s.hlen.toNat 0 b 0x00#8 (by omega) hb hDscp
  have := Laws.word_le_sumWords s.buf s.hlen.toNat _ 0 S _ (by unfold wordCount; omega) hS hw
  omega

theorem toNat_acc_of_fold (S : Nat) : (BitVec.ofNat 32 (fold S)).toNat = fold S := by
  have := Laws.fold_le S
  rw [BitVec.toNat_ofNat]
  omega

/-- R95's range of `ACC` and its relation to `CK` hold of the folded sum of a built header. -/
theorem checksumRegisters_of_fold {S : Nat} (hS : 0 < S) :
    1 ≤ (BitVec.ofNat 32 (fold S)).toNat ∧ (BitVec.ofNat 32 (fold S)).toNat ≤ 0xFFFF ∧
      (complement16 (fold S)).toNat = 0xFFFF - (BitVec.ofNat 32 (fold S)).toNat := by
  rw [toNat_acc_of_fold]
  exact ⟨Laws.fold_pos S hS, Laws.fold_le S, Laws.complement16_toNat _ (Laws.fold_le S)⟩

theorem checksummed_of_lenp {s : State} (S : Nat) (hp : s.ph = .lenp) :
    Laws.checksummed S s =
      { s with acc := BitVec.ofNat 32 (fold S), ck := complement16 (fold S), ph := .summed } := by
  simp [Laws.checksummed, hp]

theorem checksummed_of_done {s : State} (S : Nat) (hp : s.ph = .done) :
    Laws.checksummed S s = { s with acc := BitVec.ofNat 32 (fold S), ck := complement16 (fold S) } := by
  simp [Laws.checksummed, hp]

theorem inv_checksummed {s : State} {S : Nat} (h : s.Inv) (he : s.err = .none) (hp : s.ph = .lenp ∨ s.ph = .done)
    (hS : wordSum s.buf s.hlen.toNat = some S) : (Laws.checksummed S s).Inv := by
  have hs : s.esub = .none := esub_eq_none h he
  have hbuilt : s.ph ≠ .idle := by rcases hp with hp | hp <;> simp [hp]
  have hregs := checksumRegisters_of_fold (wordSum_pos h hbuilt hS)
  rcases hp with hp | hp
  · have hf : s.frameValid = false := frameValid_eq_false h (by simp [hp])
    rw [checksummed_of_lenp S hp]
    exact
      { h with
        spaces := ⟨eth_filled_of_ne_idle h hbuilt nofun rfl, h.spaces.2⟩
        length := lengthInRange_of_ne_idle h hbuilt nofun rfl rfl
        checksumZero := fun _ => h.checksumZero (.inr (.inl hp))
        totalLength := ⟨nofun, fun _ _ => h.totalLength.2 hbuilt (by simp [hp])⟩
        verified := nofun
        frameSent := frameOnlySent_of_frameValid_eq_false hf nofun
        errorPhases := errorPhases_of_err_eq_none he
        capacity := capacityCause_of_esub_eq_none hs
        hardwired := fun _ => h.hardwired hbuilt
        checksum := ⟨nofun, fun _ => hregs⟩
        summed := fun _ => (congrArg (Option.map fold) hS).trans (congrArg some (toNat_acc_of_fold S).symm) }
  · rw [checksummed_of_done S hp]
    exact
      { h with
        checksum := ⟨by simp [hp], fun _ => hregs⟩
        summed := by simp [hp] }

/-- A sum that is a positive multiple of 0xFFFF folds to 0xFFFF, by the closed form of R95. -/
theorem fold_of_mod_eq_zero {S : Nat} (hpos : 0 < S) (hmod : S % 0xFFFF = 0) : fold S = 0xFFFF := by
  have := Laws.fold_le S
  have := Laws.fold_mod S
  have := Laws.fold_pos S hpos
  omega

/-- R94: `PCK` replaces the zero word at offset 10 by the complement of the folded sum. -/
theorem foldedSum_checksumPatched {s : State} (h : s.Inv) (hp : s.ph = .summed) :
    (Laws.checksumPatched s).foldedSum = some 0xFFFF := by
  have hbuilt : s.ph ≠ .idle := by simp [hp]
  have hlen : 20 ≤ s.hlen.toNat := (h.length.2 hbuilt).1
  obtain ⟨-, hle, hck⟩ := h.checksum.2 (.inl hp)
  obtain ⟨h10, h11⟩ := h.checksumZero (.inr (.inr hp))
  obtain ⟨S, hS, hfold⟩ := Option.map_eq_some_iff.1 (h.summed hp)
  have hword : word s.buf s.hlen.toNat 5 = some 0 :=
    Laws.word_inside s.buf s.hlen.toNat 5 0x00#8 0x00#8 (by omega) h10 h11
  have hpatched : word (Laws.checksumPatched s).buf s.hlen.toNat 5 = some s.ck.toNat := by
    rw [word, if_pos (by omega)]
    exact readValue_writeBytes_two s.buf 10 s.ck.toNat s.ck.isLt
  obtain ⟨S', hS', hsum⟩ := Laws.sumWords_replace s.buf (Laws.checksumPatched s).buf s.hlen.toNat
    (wordCount s.hlen.toNat) 5 S 0 s.ck.toNat (by unfold wordCount; omega) hS hword hpatched
    fun i _ hi => Laws.word_congr _ _ _ _ (read_writeBytes_two (by omega)) fun _ => read_writeBytes_two (by omega)
  have hpos : 0 < S := wordSum_pos h hbuilt hS
  have hmod := Laws.fold_mod S
  have : fold S' = 0xFFFF := fold_of_mod_eq_zero (by omega) (by omega)
  rw [State.foldedSum, wordSum, Laws.checksumPatched_hlen, hS', Option.map_some, this]

theorem inv_checksumPatched {s : State} (h : s.Inv) (he : s.err = .none) (hp : s.ph = .summed) :
    (Laws.checksumPatched s).Inv := by
  have hs : s.esub = .none := esub_eq_none h he
  have hbuilt : s.ph ≠ .idle := by simp [hp]
  have hlen : 20 ≤ s.hlen.toNat := (h.length.2 hbuilt).1
  have hf : s.frameValid = false := frameValid_eq_false h (by simp [hp])
  have hkeys := keys_writeBytes_two (a := 10) (v := s.ck.toNat) h.spaces.2 (by omega)
  have hread : ∀ a, a < 10 → (Laws.checksumPatched s).readByte .buf a = s.readByte .buf a := fun a ha =>
    read_writeBytes_two (.inl ha)
  have hbytes := Laws.readBytes_congr s.buf (Laws.checksumPatched s).buf 2 2 fun k hk => hread (2 + k) (by omega)
  have htotal : Memory.readValue (Laws.checksumPatched s).buf 2 2 = some s.hlen.toNat := by
    rw [Memory.readValue, hbytes]
    exact h.totalLength.2 hbuilt (by simp [hp])
  exact
    { h with
      spaces := ⟨eth_filled_of_ne_idle h hbuilt nofun rfl, hkeys⟩
      length := lengthInRange_of_ne_idle h hbuilt nofun rfl rfl
      checksumZero := nofun
      totalLength := ⟨nofun, fun _ _ => htotal⟩
      verified := fun _ => foldedSum_checksumPatched h hp
      frameSent := frameOnlySent_of_frameValid_eq_false hf nofun
      errorPhases := errorPhases_of_err_eq_none he
      capacity := capacityCause_of_esub_eq_none hs
      hardwired := fun _ => by
        rw [hread 0 (by omega), hread 1 (by omega)]
        exact h.hardwired hbuilt
      checksum := ⟨nofun, fun _ => h.checksum.2 (.inl hp)⟩
      summed := nofun }

/-! ### The hand-off keeps the invariant -/

theorem inv_handedOff {s : State} (h : s.Inv) (he : s.err = .none) (hp : s.ph = .done) : (Laws.handedOff s).Inv := by
  have hs : s.esub = .none := esub_eq_none h he
  have hbuilt : s.ph ≠ .idle := by simp [hp]
  exact
    { h with
      spaces := ⟨eth_filled_of_ne_idle h hbuilt nofun rfl, h.spaces.2⟩
      length := lengthInRange_of_ne_idle h hbuilt nofun rfl rfl
      checksumZero := nofun
      totalLength := ⟨nofun, fun _ _ => h.totalLength.2 hbuilt (by simp [hp])⟩
      verified := fun _ => h.verified (.inl hp)
      frameSent := iff_of_true rfl rfl
      errorPhases := errorPhases_of_err_eq_none he
      capacity := capacityCause_of_esub_eq_none hs
      hardwired := fun _ => h.hardwired hbuilt
      checksum := ⟨nofun, fun _ => h.checksum.2 (.inr (.inl hp))⟩
      summed := nofun }

/-! ### Every command, every step and every run keeps the invariant -/

theorem inv_exec {i : Instr} {s t : State} (h : s.Inv) (hx : exec i s = .next t) : t.Inv := by
  obtain ⟨f, v, rfl⟩ | rfl | ⟨v, rfl⟩ | rfl | rfl | rfl | rfl | rfl := Laws.instr_cases i
  · -- the eleven loads
    rw [Laws.exec_load] at hx
    obtain hn | ⟨-, hp, ⟨-, rfl⟩ | ⟨-, rfl⟩⟩ := Laws.loadField_eq_next hx
    · exact inv_noEffect h hn
    · exact inv_invalidFieldWidth h (.inl hp)
    · exact inv_writeField f v h
  · -- `BLD`
    obtain hn | ⟨he, hp, hc, rfl⟩ := Laws.execBld_eq_next hx
    · exact inv_noEffect h hn
    · exact inv_built h he hp hc
  · -- `APB`
    obtain hn | ⟨he, hp, ⟨hfull, rfl⟩ | ⟨-, -, rfl⟩ | ⟨hc, -, rfl⟩⟩ := Laws.execApb_eq_next hx
    · exact inv_noEffect h hn
    · exact inv_illegalCommand h nofun fun _ => ⟨hp, hfull, rfl⟩
    · exact inv_invalidFieldWidth h (.inr hp)
    · exact inv_appended h he hp hc
  · -- `PLN`
    obtain hn | ⟨he, hp, rfl⟩ := Laws.execPln_eq_next hx
    · exact inv_noEffect h hn
    · exact inv_lengthPatched h he hp
  · -- `CKS`
    obtain hn | ⟨he, hp, S, hS, rfl⟩ := Laws.execCks_eq_next hx
    · exact inv_noEffect h hn
    · exact inv_checksummed h he hp hS
  · -- `PCK`
    obtain hn | ⟨he, hp, rfl⟩ := Laws.execPck_eq_next hx
    · exact inv_noEffect h hn
    · exact inv_checksumPatched h he hp
  · -- `EMT`
    obtain hn | ⟨he, hp, ⟨-, -, rfl⟩ | ⟨-, rfl⟩⟩ := Laws.execEmt_eq_next hx
    · exact inv_noEffect h hn
    · exact inv_handedOff h he hp
    · exact inv_transmissionFailure (inv_handedOff h he hp) rfl
  · -- `CLR`
    cases hx
    exact inv_resetBlock h.params

theorem inv_step {s t : State} (h : s.Inv) (hx : step s = .next t) : t.Inv := by
  obtain ⟨-, hs⟩ | ⟨p, rest, -, ⟨-, hs⟩ | ⟨-, -, hs⟩ | ⟨-, -, ⟨-, -, hs⟩ | ⟨i, -, hs⟩⟩⟩ := Laws.step_cases s <;>
    rw [hs] at hx
  · cases hx
    exact h
  · cases hx
    exact inv_resetBlock h.params
  · cases hx
    exact inv_takeSample p rest h
  · cases hx
    exact inv_rejectReserved p.cmd (inv_takeSample p rest h)
  · exact inv_exec (inv_takeSample p rest h) hx

theorem inv_reachable {s : State} (h : Reachable s) : s.Inv := by
  induction h with
  | start params tx inputs hp => exact inv_resetBlock (s := { State.reset with params, tx, inputs }) hp
  | step s t _ hx ih => exact inv_step ih hx

/-! ### What a step can do while an error is latched or the frame is out -/

/-- The phase, the frame flag and both byte spaces stand as they did. -/
structure SamePacket (s t : State) : Prop where
  ph : t.ph = s.ph
  frameValid : t.frameValid = s.frameValid
  eth : t.eth = s.eth
  buf : t.buf = s.buf

theorem samePacket_noEffect {i : Instr} {ps : List Phase} {s t : State} (h : Laws.NoEffect i ps s t) :
    SamePacket s t := by
  obtain ⟨-, rfl⟩ | ⟨-, -, rfl⟩ := h <;> exact ⟨rfl, rfl, rfl, rfl⟩

theorem samePacket_rejectReserved (c : CmdWord) (s : State) : SamePacket s (rejectReserved c s) := by
  by_cases he : s.err = .none
  · rw [Laws.rejectReserved_clear c s he]
    exact ⟨rfl, rfl, rfl, rfl⟩
  · rw [Laws.rejectReserved_latched c s he]
    exact ⟨rfl, rfl, rfl, rfl⟩

/-- R21: SENT admits no command but `CLR`. -/
theorem exec_eq_whenAdmitted (i : Instr) (s : State) (hi : i ≠ .clr) :
    ∃ ps r, Phase.sent ∉ ps ∧ exec i s = whenAdmitted i ps s r := by
  obtain ⟨f, v, rfl⟩ | rfl | ⟨v, rfl⟩ | rfl | rfl | rfl | rfl | rfl := Laws.instr_cases i
  · exact ⟨[.idle], _, by simp, Laws.exec_load f v s⟩
  · exact ⟨[.idle], _, by simp, rfl⟩
  · exact ⟨[.built], _, by simp, rfl⟩
  · exact ⟨[.built], _, by simp, rfl⟩
  · exact ⟨[.lenp, .done], _, by simp, rfl⟩
  · exact ⟨[.summed], _, by simp, rfl⟩
  · exact ⟨[.done], _, by simp, rfl⟩
  · exact absurd rfl hi

/-- R22, R113: in the error state, and in SENT, only `CLR` does more than latch an error. -/
theorem exec_closed {i : Instr} {s t : State} (hx : exec i s = .next t) (hs : s.err ≠ .none ∨ s.ph = .sent) :
    t = resetBlock s ∨ SamePacket s t := by
  by_cases hi : i = .clr
  · subst hi
    cases hx
    exact .inl rfl
  · obtain ⟨ps, r, hsent, hr⟩ := exec_eq_whenAdmitted i s hi
    obtain hn | ⟨he, hp, -⟩ := Laws.whenAdmitted_eq_next (hr ▸ hx)
    · exact .inr (samePacket_noEffect hn)
    · rcases hs with hs | hs
      · exact absurd he hs
      · exact absurd (hs ▸ hp) hsent

/-- R66, R113: the same of a step, which a reset may end as well. -/
theorem step_closed {s t : State} (hx : step s = .next t) (hs : s.err ≠ .none ∨ s.ph = .sent) :
    t = { State.reset with params := s.params, tx := t.tx, inputs := t.inputs } ∨ SamePacket s t := by
  obtain ⟨-, hr⟩ | ⟨p, rest, -, ⟨-, hr⟩ | ⟨-, -, hr⟩ | ⟨-, -, ⟨-, -, hr⟩ | ⟨i, -, hr⟩⟩⟩ := Laws.step_cases s <;>
    rw [hr] at hx
  · cases hx
    exact .inr ⟨rfl, rfl, rfl, rfl⟩
  · cases hx
    exact .inl rfl
  · cases hx
    exact .inr ⟨rfl, rfl, rfl, rfl⟩
  · cases hx
    obtain ⟨hph, hfv, heth, hbuf⟩ := samePacket_rejectReserved p.cmd (takeSample p rest s)
    exact .inr ⟨hph, hfv, heth, hbuf⟩
  · obtain rfl | ⟨hph, hfv, heth, hbuf⟩ := exec_closed hx hs
    · exact .inl rfl
    · exact .inr ⟨hph, hfv, heth, hbuf⟩

/-- R34 items 6 and 7, what they say of one step. -/
theorem step_keeps_packet {s t : State} (hx : step s = .next t) :
    t = { State.reset with params := s.params, tx := t.tx, inputs := t.inputs } ∨
      ((s.err ≠ .none → t.ph = s.ph ∧ t.frameValid = s.frameValid) ∧
        (s.ph = .sent → ∀ (sp : Space) (a : Nat), t.readByte sp a = s.readByte sp a)) := by
  by_cases hs : s.err ≠ .none ∨ s.ph = .sent
  · refine (step_closed hx hs).imp_right fun hk => ⟨fun _ => ⟨hk.ph, hk.frameValid⟩, fun _ sp a => ?_⟩
    cases sp with
    | eth => rw [Laws.readByte_eth, Laws.readByte_eth, hk.eth]
    | buf => rw [Laws.readByte_buf, Laws.readByte_buf, hk.buf]
  · exact .inr ⟨fun he => absurd (.inl he) hs, fun hp => absurd (.inr hp) hs⟩

/-- Settles O50: items 1 to 6 are parts of the invariant, which every run keeps; the last two speak of a step. -/
theorem reachableStatesMeetR34 : Obligations.ReachableStatesMeetR34 := by
  unfold Obligations.ReachableStatesMeetR34
  intro s hs
  have hI := inv_reachable hs
  obtain ⟨hzero, hpatched⟩ := hI.totalLength
  obtain ⟨hwidth, htx, hillegal⟩ := hI.errorPhases
  exact ⟨hI.length, hI.checksumZero, hzero, hpatched, hI.verified, hI.frameSent, hwidth, htx, hillegal,
    fun _ hx => step_keeps_packet hx⟩

end Sys2Proof.Proofs
end

section
/-! PROOF. The memory: a store of any width and its read (`20_memory.md` R41, R42), and the words of a buffer with their sum
(R43, `42_checksum_patch.md` R90). -/

namespace Sys2Proof.Proofs

open Sys2Proof.Machine

/-! ### `BE_n` and its value -/

/-- The last byte of a sequence is the least significant one (R9). -/
theorem beValue_concat (bs : List Byte) (b : Byte) : beValue (bs ++ [b]) = beValue bs * 256 + b.toNat := by
  rw [beValue, List.foldl_append]
  exact Laws.shiftLeft_or _ _ 8 b.isLt

/-- `BE_(n+1)(v)` ends in the low byte of `v`; the bytes before it are those of the rest of `v` (R10). -/
theorem beBytes_succ (n v : Nat) : beBytes (n + 1) v = beBytes n (v / 256) ++ [BitVec.ofNat 8 v] := by
  have hshift : ∀ k < n, v >>> (8 * (n + 1 - 1 - k)) = (v / 256) >>> (8 * (n - 1 - k)) := fun k hk => by
    rw [show 8 * (n + 1 - 1 - k) = 8 + 8 * (n - 1 - k) by omega, Nat.shiftRight_add, Nat.shiftRight_eq_div_pow v 8]
  rw [beBytes, List.range_succ, List.map_append]
  congr 1
  · exact List.map_congr_left fun k hk => congrArg _ (hshift k (List.mem_range.1 hk))
  · simp

/-- `n` bytes give back every value that fits them. -/
theorem beValue_beBytes (n v : Nat) (hv : v < 2 ^ (8 * n)) : beValue (beBytes n v) = v := by
  induction n generalizing v with
  | zero =>
    obtain rfl : v = 0 := by simpa using hv
    rfl
  | succ n ih =>
    have hrest : v / 256 < 2 ^ (8 * n) := Nat.div_lt_of_lt_mul (by rwa [Nat.mul_succ, Nat.pow_add, Nat.mul_comm] at hv)
    rw [beBytes_succ, beValue_concat, ih _ hrest, BitVec.toNat_ofNat]
    exact Nat.div_add_mod' v 256

/-! ### `MemWrite` -/

theorem space_setSpace_same (s : State) (sp : Space) (m : Memory) : (s.setSpace sp m).space sp = m := by
  cases sp <;> rfl

/-- `MemRead` after `MemWrite` at the same offsets (R41, R42). -/
theorem readValue_writeBytes_beBytes (m : Memory) (a n v : Nat) (hv : v < 2 ^ (8 * n)) :
    Memory.readValue (Memory.writeBytes m a (beBytes n v)) a n = some v := by
  have hread := Laws.readBytes_writeBytes_same (beBytes n v) m a
  rw [Laws.length_beBytes] at hread
  rw [Memory.readValue, hread, Option.map_some, beValue_beBytes n v hv]

/-- Settles O46: a store that fits replaces the space's bytes by `BE_n(v)` at its offsets; what is read inside, outside and
back are the laws of stored byte sequences. -/
theorem memWriteIsBigEndian : Obligations.MemWriteIsBigEndian := by
  unfold Obligations.MemWriteIsBigEndian
  intro s sp a n v hfit hv
  refine ⟨_, Laws.memWrite_inside sp a n v s hfit, fun k hk => ?_, fun x hx => ?_, ?_⟩
  · rw [State.readByte, space_setSpace_same, Laws.read_writeBytes_inside _ _ _ _ (by simpa using hk),
      Laws.getElem_beBytes, Nat.shiftRight_eq_div_pow, Nat.sub_right_comm]
  · rw [State.readByte, space_setSpace_same, Laws.read_writeBytes_outside _ _ _ _ (by simpa using hx), State.readByte]
  · rw [space_setSpace_same, readValue_writeBytes_beBytes _ _ _ _ hv]

/-! ### `WordSum` -/

/-- The first `k` words have a sum where each has a value (R90). -/
theorem sumWords_eq_sum (m : Memory) (n k : Nat) (w : Nat → Nat) (h : ∀ i < k, word m n i = some (w i)) :
    sumWords m n k = some ((List.range k).map w).sum := by
  induction k with
  | zero => rfl
  | succ k ih =>
    rw [sumWords, ih fun i hi => h i (Nat.lt_succ_of_lt hi), h k (Nat.lt_succ_self k)]
    simp [List.range_succ]

section
variable {m : Memory} {n : Nat} {b : Nat → Byte} (hb : ∀ a < n, Memory.read m a = some (b a))
include hb

/-- R43: a word of two valid bytes. -/
theorem word_of_two_bytes {i : Nat} (hi : 2 * i + 1 < n) :
    word m n i = some (((b (2 * i)).toNat <<< 8) ||| (b (2 * i + 1)).toNat) := by
  rw [Laws.shiftLeft_or _ _ _ (b (2 * i + 1)).isLt]
  exact Laws.word_inside m n i _ _ hi (hb _ (Nat.lt_of_succ_lt hi)) (hb _ hi)

/-- R43: the last word of an odd length, its low byte zero. -/
theorem word_of_last_byte {i : Nat} (hi : 2 * i + 1 = n) : word m n i = some ((b (2 * i)).toNat <<< 8) := by
  rw [Laws.word_last m n i _ hi.not_lt (hb _ (hi ▸ Nat.lt_succ_self _)), Nat.shiftLeft_eq]

/-- R43: below `NW` a word has one of the two forms. -/
theorem word_of_bytes {i : Nat} (hi : i < wordCount n) :
    word m n i = some
      (if 2 * i + 1 < n then ((b (2 * i)).toNat <<< 8) ||| (b (2 * i + 1)).toNat else (b (2 * i)).toNat <<< 8) := by
  split_ifs with htwo
  · exact word_of_two_bytes hb htwo
  · have hlast : 2 * i + 1 = n := by unfold wordCount at hi; omega
    exact word_of_last_byte hb hlast

end

/-- Settles O21: each word by its form, the sum word by word, and R8's bound on it. -/
theorem wordSumOfBytes : Obligations.WordSumOfBytes := by
  unfold Obligations.WordSumOfBytes
  intro m n b hb
  have hsum := sumWords_eq_sum m n (wordCount n) _ fun _ hi => word_of_bytes hb hi
  exact ⟨fun _ hi => word_of_two_bytes hb hi, fun _ hi => word_of_last_byte hb hi, _, hsum, rfl,
    fun hn => wordSum_le m n _ hn hsum⟩

end Sys2Proof.Proofs
end

section
/-! PROOF. The decoder by classes of words and by command byte (`30_encoding.md` R57, R58), and what a presented word does
(R66). -/

namespace Sys2Proof.Proofs

open Sys2Proof.Machine

/-! ### The command byte -/

theorem cmdOp_commandWord (b : Byte) (v : BitVec 64) : cmdOp (commandWord b v) = b.extractLsb' 4 4 := by
  rw [Laws.cmdOp_eq, Laws.cmdByte_commandWord]

theorem cmdSel_commandWord (b : Byte) (v : BitVec 64) : cmdSel (commandWord b v) = b.extractLsb' 0 4 := by
  rw [Laws.cmdSel_eq, Laws.cmdByte_commandWord]

/-- `OP` and `SEL` are the two nibbles of the command byte (R53). -/
theorem toNat_cmdByte (c : CmdWord) : (cmdByte c).toNat = 16 * (cmdOp c).toNat + (cmdSel c).toNat := by
  have hlt := (cmdByte c).isLt
  rw [Laws.cmdOp_eq, Laws.cmdSel_eq, BitVec.extractLsb'_toNat, BitVec.extractLsb'_toNat, Nat.shiftRight_eq_div_pow]
  omega

/-- The word of a command's byte and operand is that command; a command of format N takes any operand (R57, R61). -/
theorem decode_commandWord (i : Instr) (v : BitVec 64) (hv : i.format ≠ .N → i.operand = v.toNat) :
    decode (commandWord i.commandByte v) = .ok i := by
  rw [decode, cmdOp_commandWord, cmdSel_commandWord, Laws.cmdOperand_commandWord]
  cases i with
  | bld | pln | cks | pck | emt | clr => rfl
  | ldfDmac a | ldfSmac a | ldfEtype a | ldfVer a | ldfId a | ldfFlags a | ldfFrag a | ldfTtl a | ldfProto a | ldfSrc a
  | ldfDst a | apb a =>
    obtain rfl : a = v.toNat := hv nofun
    simp only [Instr.commandByte]
    rfl

/-! ### The classes of words -/

/-- R57: a load of one of the eleven registers, or one of the seven other opcodes with the selector 0. -/
def Assigned (c : CmdWord) : Prop :=
  (cmdOp c = 0x1#4 ∧ (cmdSel c).toNat ≤ 10) ∨
    (2 ≤ (cmdOp c).toNat ∧ (cmdOp c).toNat ≤ 8 ∧ cmdSel c = 0x0#4)

/-- The words of each class of R58. -/
def ReservedAs (c : CmdWord) : Reserved → Prop
  | .opZero => cmdOp c = 0x0#4
  | .opUnassigned => 9 ≤ (cmdOp c).toNat
  | .loadSelector => cmdOp c = 0x1#4 ∧ 11 ≤ (cmdSel c).toNat
  | .selectorNotZero => 2 ≤ (cmdOp c).toNat ∧ (cmdOp c).toNat ≤ 8 ∧ cmdSel c ≠ 0x0#4

theorem reservedAs_unique {c : CmdWord} {e e' : Reserved} (h : ReservedAs c e) (h' : ReservedAs c e') : e = e' := by
  cases e <;> cases e' <;> simp only [ReservedAs, reduceCtorEq] at h h' ⊢ <;> bv_omega

theorem not_assigned_of_reservedAs {c : CmdWord} {e : Reserved} (h : ReservedAs c e) : ¬ Assigned c := by
  unfold Assigned
  cases e <;> simp only [ReservedAs] at h <;> bv_omega

/-! ### What the decoder can answer -/

/-- R54, R58: the selector of a load names a field register, or is reserved. -/
theorem decodeLoad_cases (sel : BitVec 4) (v : Nat) :
    (11 ≤ sel.toNat ∧ decodeLoad sel v = .error .loadSelector) ∨
      (sel.toNat ≤ 10 ∧ ∃ i, decodeLoad sel v = .ok i ∧ i.commandByte.toNat = 0x10 + sel.toNat) := by
  unfold decodeLoad
  split
  case h_12 => exact .inl ⟨by simp only [imp_false] at *; omega, rfl⟩
  all_goals
    rename_i hsel
    exact .inr ⟨by omega, _, rfl, by rw [hsel]; rfl⟩

/-- R53, R58: the selector of every other opcode is 0, or is reserved. -/
theorem decodeUnselected_cases (sel : BitVec 4) (i : Instr) :
    (sel ≠ 0x0#4 ∧ decodeUnselected sel i = .error .selectorNotZero) ∨
      (sel = 0x0#4 ∧ decodeUnselected sel i = .ok i) := by
  by_cases hsel : sel = 0x0#4
  · exact .inr ⟨hsel, if_pos hsel⟩
  · exact .inl ⟨hsel, if_neg hsel⟩

/-- R57, R58: what the opcode alone decides. -/
theorem decode_op_cases (c : CmdWord) :
    (cmdOp c = 0x0#4 ∧ decode c = .error .opZero) ∨
      (9 ≤ (cmdOp c).toNat ∧ decode c = .error .opUnassigned) ∨
      (cmdOp c = 0x1#4 ∧ decode c = decodeLoad (cmdSel c) (cmdOperand c).toNat) ∨
      (2 ≤ (cmdOp c).toNat ∧ (cmdOp c).toNat ≤ 8 ∧
        ∃ i, decode c = decodeUnselected (cmdSel c) i ∧ i.commandByte.toNat = 16 * (cmdOp c).toNat) := by
  unfold decode
  split
  case h_1 hop => exact .inl ⟨BitVec.eq_of_toNat_eq hop, rfl⟩
  case h_2 hop => exact .inr (.inr (.inl ⟨BitVec.eq_of_toNat_eq hop, rfl⟩))
  case h_10 => exact .inr (.inl ⟨by simp only [imp_false] at *; omega, rfl⟩)
  all_goals
    rename_i hop
    exact .inr (.inr (.inr ⟨by omega, by omega, _, rfl, by rw [hop]; rfl⟩))

/-- R57, R58: a word is reserved and answered by its class, or assigned and answered by the command of its byte. -/
theorem decode_cases (c : CmdWord) :
    (∃ e, ReservedAs c e ∧ decode c = .error e) ∨
      (Assigned c ∧ ∃ i, decode c = .ok i ∧ i.commandByte = cmdByte c) := by
  have hbyte := toNat_cmdByte c
  obtain ⟨hop, hd⟩ | ⟨hop, hd⟩ | ⟨hop, hd⟩ | ⟨hlo, hhi, i, hd, hi⟩ := decode_op_cases c
  · exact .inl ⟨.opZero, hop, hd⟩
  · exact .inl ⟨.opUnassigned, hop, hd⟩
  · obtain ⟨hsel, hl⟩ | ⟨hsel, i, hl, hi⟩ := decodeLoad_cases (cmdSel c) (cmdOperand c).toNat
    · exact .inl ⟨.loadSelector, ⟨hop, hsel⟩, hd.trans hl⟩
    · rw [hop] at hbyte
      exact .inr ⟨.inl ⟨hop, hsel⟩, i, hd.trans hl, BitVec.eq_of_toNat_eq (hi.trans hbyte.symm)⟩
  · obtain ⟨hsel, hu⟩ | ⟨hsel, hu⟩ := decodeUnselected_cases (cmdSel c) i
    · exact .inl ⟨.selectorNotZero, ⟨hlo, hhi, hsel⟩, hd.trans hu⟩
    · rw [hsel] at hbyte
      exact .inr ⟨.inr ⟨hlo, hhi, hsel⟩, i, hd.trans hu, BitVec.eq_of_toNat_eq (hi.trans hbyte.symm)⟩

theorem commandByte_of_decode {c : CmdWord} {i : Instr} (hd : decode c = .ok i) : i.commandByte = cmdByte c := by
  obtain ⟨e, -, he⟩ | ⟨-, j, hj, hb⟩ := decode_cases c
  · cases hd.symm.trans he
  · cases hd.symm.trans hj
    exact hb

theorem exists_decode_iff (c : CmdWord) : (∃ i, decode c = .ok i) ↔ Assigned c := by
  obtain ⟨e, hr, he⟩ | ⟨ha, i, hi, -⟩ := decode_cases c
  · exact iff_of_false (by simp [he]) (not_assigned_of_reservedAs hr)
  · exact iff_of_true ⟨i, hi⟩ ha

theorem decode_eq_error_iff (c : CmdWord) (e : Reserved) : decode c = .error e ↔ ReservedAs c e := by
  obtain ⟨e', hr, he⟩ | ⟨ha, i, hi, -⟩ := decode_cases c
  · rw [he, Except.error.injEq]
    exact ⟨fun h => h ▸ hr, reservedAs_unique hr⟩
  · exact iff_of_false (by simp [hi]) fun hr => not_assigned_of_reservedAs hr ha

/-- R57, its last sentence: the 256 command bytes, tried one by one. -/
theorem count_commandBytes :
    ((List.range 256).filter fun b => (decode (commandWord (BitVec.ofNat 8 b) 0#64)).isOk).length = 18 := by decide

/-- Settles O3: a word decodes exactly when it is assigned, and each command is read back from its byte with any operand. -/
theorem decoderReadsCommandByte : Obligations.DecoderReadsCommandByte := by
  unfold Obligations.DecoderReadsCommandByte
  exact ⟨exists_decode_iff,
    fun v =>
      ⟨decode_commandWord (.ldfDmac _) v fun _ => rfl, decode_commandWord (.ldfSmac _) v fun _ => rfl,
        decode_commandWord (.ldfEtype _) v fun _ => rfl, decode_commandWord (.ldfVer _) v fun _ => rfl,
        decode_commandWord (.ldfId _) v fun _ => rfl, decode_commandWord (.ldfFlags _) v fun _ => rfl,
        decode_commandWord (.ldfFrag _) v fun _ => rfl, decode_commandWord (.ldfTtl _) v fun _ => rfl,
        decode_commandWord (.ldfProto _) v fun _ => rfl, decode_commandWord (.ldfSrc _) v fun _ => rfl,
        decode_commandWord (.ldfDst _) v fun _ => rfl, decode_commandWord .bld v (absurd rfl),
        decode_commandWord (.apb _) v fun _ => rfl, decode_commandWord .pln v (absurd rfl),
        decode_commandWord .cks v (absurd rfl), decode_commandWord .pck v (absurd rfl),
        decode_commandWord .emt v (absurd rfl), decode_commandWord .clr v (absurd rfl)⟩,
    Laws.commandWord_eta, count_commandBytes⟩

/-! ### A presented word -/

/-- R66: a presented word runs at the state with the sample taken. -/
theorem step_of_presents {s s' : State} {c : CmdWord} (hp : s.Presents c s') : step s = runWord exec c s' := by
  obtain ⟨p, rest, hin, hrst, hvalid, rfl, rfl⟩ := hp
  rw [Laws.step_cons s p rest hin, runSample, hrst, hvalid]
  rfl

theorem step_of_decode_ok {s s' : State} {c : CmdWord} {i : Instr} (hp : s.Presents c s') (hd : decode c = .ok i) :
    step s = exec i s' := by
  rw [step_of_presents hp, runWord, hd]

theorem step_of_decode_error {s s' : State} {c : CmdWord} {e : Reserved} (hp : s.Presents c s')
    (hd : decode c = .error e) : step s = .next (rejectReserved c s') := by
  rw [step_of_presents hp, runWord, hd]

theorem err_of_presents {s s' : State} {c : CmdWord} (hp : s.Presents c s') : s'.err = s.err := by
  obtain ⟨p, rest, -, -, -, -, rfl⟩ := hp
  rfl

/-- Settles O4: the classes are what the decoder answers, and a reserved word is rejected with the latch as it stood. -/
theorem reservedWordsRaiseIllegalCommand : Obligations.ReservedWordsRaiseIllegalCommand := by
  unfold Obligations.ReservedWordsRaiseIllegalCommand
  refine ⟨fun c => ⟨decode_eq_error_iff c .opZero, decode_eq_error_iff c .opUnassigned,
    decode_eq_error_iff c .loadSelector, decode_eq_error_iff c .selectorNotZero⟩,
    (decode_eq_error_iff _ .opZero).2 rfl, fun s s' c e hp hd => ?_⟩
  rw [step_of_decode_error hp hd, ← err_of_presents hp]
  refine ⟨fun he => ?_, fun he => ?_⟩
  · rw [Laws.rejectReserved_clear c s' he, enterError]
  · rw [Laws.rejectReserved_latched c s' he]

end Sys2Proof.Proofs
end

section
/-! PROOF. The order of the checks on one presented command word (`30_encoding.md` R60). -/

namespace Sys2Proof.Proofs

open Sys2Proof.Machine

/-! ### The admission of a command -/

/-- The admission table of R21, read by command. -/
def admittingPhases : Instr → List Phase
  | .apb _ | .pln => [.built]
  | .cks => [.lenp, .done]
  | .pck => [.summed]
  | .emt => [.done]
  | .clr => [.idle, .built, .lenp, .summed, .done, .sent]
  | _ => [.idle]

theorem mem_admittingPhases (p : Phase) (i : Instr) : p ∈ admittingPhases i ↔ p.admits i = true := by
  have htable : decide (p ∈ admittingPhases i) = p.admits i := by
    cases p <;> cases i <;> rfl
  rw [← htable, decide_eq_true_iff]

theorem admittingPhases_load (f : Field) (v : Nat) : admittingPhases (f.load v) = [.idle] := by
  cases f <;> rfl

/-- Lines 1 and 3 of R60 stand before every command but `CLR`. -/
theorem exec_eq_whenAdmitted_admittingPhases (i : Instr) (s : State) (hi : i ≠ .clr) :
    ∃ r, exec i s = whenAdmitted i (admittingPhases i) s r := by
  obtain ⟨f, v, rfl⟩ | rfl | ⟨v, rfl⟩ | rfl | rfl | rfl | rfl | rfl := Laws.instr_cases i
  · rw [admittingPhases_load]
    exact ⟨_, Laws.exec_load f v s⟩
  · exact ⟨_, rfl⟩
  · exact ⟨_, rfl⟩
  · exact ⟨_, rfl⟩
  · exact ⟨_, rfl⟩
  · exact ⟨_, rfl⟩
  · exact ⟨_, rfl⟩
  · exact absurd rfl hi

theorem admits_clr (p : Phase) : p.admits .clr = true := by
  cases p <;> rfl

/-- A command that had no effect with `ERR` = 0 was not admitted. -/
theorem not_admits_of_noEffect {i : Instr} {s t : State} (he : s.err = .none)
    (hn : Laws.NoEffect i (admittingPhases i) s t) : s.ph.admits i = false := by
  obtain ⟨hne, -⟩ | ⟨-, hp, -⟩ := hn
  · exact absurd he hne
  · exact Bool.eq_false_iff.2 (mt (mem_admittingPhases _ _).2 hp)

/-! ### The lines of R60 -/

/-- Line 1: the latch. -/
theorem exec_latched {i : Instr} {s : State} (he : s.err ≠ .none) (hi : i ≠ .clr) : exec i s = .next s := by
  obtain ⟨r, hr⟩ := exec_eq_whenAdmitted_admittingPhases i s hi
  rw [hr, Laws.whenAdmitted_latched _ _ _ _ he]

/-- Line 3: the phase. -/
theorem exec_refused {i : Instr} {s : State} (he : s.err = .none) (ha : s.ph.admits i = false) :
    exec i s = .next (enterError .illegalCommand .phase i.commandByte s) := by
  have hi : i ≠ .clr := by
    rintro rfl
    exact absurd (admits_clr s.ph) (Bool.eq_false_iff.1 ha)
  obtain ⟨r, hr⟩ := exec_eq_whenAdmitted_admittingPhases i s hi
  rw [hr, Laws.whenAdmitted_refused _ _ _ _ he (mt (mem_admittingPhases _ _).1 (Bool.eq_false_iff.1 ha))]

theorem eq_apb_of_format {i : Instr} (hf : i.format = .V) : ∃ v, i = .apb v := by
  cases i with
  | apb v => exact ⟨v, rfl⟩
  | _ => cases hf

/-- Line 4: the capacity. -/
theorem exec_full {i : Instr} {s : State} (he : s.err = .none) (ha : s.ph.admits i = true) (hf : i.format = .V)
    (hfull : s.hlen.toNat = s.params.hdrCap) :
    exec i s = .next (enterError .illegalCommand .capacity i.commandByte s) := by
  obtain ⟨v, rfl⟩ := eq_apb_of_format hf
  have hp : s.ph ∈ [Phase.built] := (mem_admittingPhases s.ph (.apb v)).2 ha
  exact (Laws.whenAdmitted_admitted _ _ _ _ he hp).trans (if_pos hfull)

theorem operandWidth_load (f : Field) (v : Nat) : (f.load v).operandWidth = some f.width := by
  cases f <;> rfl

theorem operand_load (f : Field) (v : Nat) : (f.load v).operand = v := by
  cases f <;> rfl

/-- Line 5: the width of the operand. -/
theorem exec_tooWide {i : Instr} {s : State} {w : Nat} (he : s.err = .none) (ha : s.ph.admits i = true)
    (hroom : i.format = .V → s.hlen.toNat ≠ s.params.hdrCap) (hw : i.operandWidth = some w) (hv : 2 ^ w ≤ i.operand) :
    exec i s = .next (enterError .invalidFieldWidth .none i.commandByte s) := by
  have hp : s.ph ∈ admittingPhases i := (mem_admittingPhases s.ph i).2 ha
  obtain ⟨f, v, rfl⟩ | rfl | ⟨v, rfl⟩ | rfl | rfl | rfl | rfl | rfl := Laws.instr_cases i
  · rw [operandWidth_load, Option.some.injEq] at hw
    rw [operand_load, ← hw] at hv
    rw [admittingPhases_load] at hp
    rw [Laws.exec_load, loadField, Laws.whenAdmitted_admitted _ _ _ _ he hp, Laws.whenFits_tooWide _ _ _ _ _ hv]
  · cases hw
  · cases hw
    exact (Laws.whenAdmitted_admitted _ _ _ _ he hp).trans
      ((if_neg (hroom rfl)).trans (Laws.whenFits_tooWide _ _ _ _ _ hv))
  all_goals cases hw

/-- Line 6: a command that runs with `ERR` = 0 leaves it 0, unless a line before stopped it or the hand-off failed. -/
theorem err_of_exec {i : Instr} {s t : State} (he : s.err = .none) (hx : exec i s = .next t) :
    t.err = .none ∨ s.ph.admits i = false ∨ (i.format = .V ∧ s.hlen.toNat = s.params.hdrCap) ∨
      (∃ w, i.operandWidth = some w ∧ 2 ^ w ≤ i.operand) ∨
      (i = .emt ∧ s.tx = .fail ∧ t.err = .transmissionFailure) := by
  obtain ⟨f, v, rfl⟩ | rfl | ⟨v, rfl⟩ | rfl | rfl | rfl | rfl | rfl := Laws.instr_cases i
  · -- the eleven loads
    rw [Laws.exec_load] at hx
    obtain hn | ⟨-, -, ⟨hv, -⟩ | ⟨-, rfl⟩⟩ := Laws.loadField_eq_next hx
    · exact .inr (.inl (not_admits_of_noEffect he (by rwa [admittingPhases_load])))
    · exact .inr (.inr (.inr (.inl ⟨f.width, operandWidth_load f v, by rwa [operand_load]⟩)))
    · exact .inl ((Laws.writeField_err s f v).trans he)
  · -- `BLD`
    obtain hn | ⟨-, -, -, rfl⟩ := Laws.execBld_eq_next hx
    · exact .inr (.inl (not_admits_of_noEffect he hn))
    · exact .inl he
  · -- `APB`
    obtain hn | ⟨-, -, ⟨hfull, -⟩ | ⟨-, hv, -⟩ | ⟨-, -, rfl⟩⟩ := Laws.execApb_eq_next hx
    · exact .inr (.inl (not_admits_of_noEffect he hn))
    · exact .inr (.inr (.inl ⟨rfl, hfull⟩))
    · exact .inr (.inr (.inr (.inl ⟨8, rfl, hv⟩)))
    · exact .inl he
  · -- `PLN`
    obtain hn | ⟨-, -, rfl⟩ := Laws.execPln_eq_next hx
    · exact .inr (.inl (not_admits_of_noEffect he hn))
    · exact .inl he
  · -- `CKS`
    obtain hn | ⟨-, -, S, -, rfl⟩ := Laws.execCks_eq_next hx
    · exact .inr (.inl (not_admits_of_noEffect he hn))
    · exact .inl he
  · -- `PCK`
    obtain hn | ⟨-, -, rfl⟩ := Laws.execPck_eq_next hx
    · exact .inr (.inl (not_admits_of_noEffect he hn))
    · exact .inl he
  · -- `EMT`
    obtain hn | ⟨-, -, ⟨-, -, rfl⟩ | ⟨htx, rfl⟩⟩ := Laws.execEmt_eq_next hx
    · exact .inr (.inl (not_admits_of_noEffect he hn))
    · exact .inl he
    · exact .inr (.inr (.inr (.inr ⟨rfl, htx, rfl⟩)))
  · -- `CLR`
    cases hx
    exact .inl rfl

/-- Line 6, once the lines before have passed. -/
theorem err_of_exec_passed {i : Instr} {s t : State} (he : s.err = .none) (ha : s.ph.admits i = true)
    (hroom : i.format = .V → s.hlen.toNat ≠ s.params.hdrCap)
    (hfits : ∀ w, i.operandWidth = some w → i.operand < 2 ^ w) (hx : exec i s = .next t) :
    t.err = .none ∨ (i = .emt ∧ s.tx = .fail ∧ t.err = .transmissionFailure) := by
  obtain hnone | hrefused | ⟨hf, hfull⟩ | ⟨w, hw, hv⟩ | hfail := err_of_exec he hx
  · exact .inl hnone
  · exact absurd ha (Bool.eq_false_iff.1 hrefused)
  · exact absurd hfull (hroom hf)
  · exact absurd (hfits w hw) (Nat.not_lt.2 hv)
  · exact .inr hfail

/-- Line 1 for a word: with an error latched, only the byte of `CLR` has an effect (R113). -/
theorem step_latched {s s' : State} {c : CmdWord} (hp : s.Presents c s') (he : s'.err ≠ .none)
    (hc : cmdByte c ≠ 0x80#8) : step s = .next s' := by
  cases hd : decode c with
  | error e => rw [step_of_decode_error hp hd, Laws.rejectReserved_latched c s' he]
  | ok i =>
    have hi : i ≠ .clr := by
      rintro rfl
      exact hc (commandByte_of_decode hd).symm
    rw [step_of_decode_ok hp hd, exec_latched he hi]

/-- Settles O34: one lemma for each line of R60, in its order. -/
theorem checkOrder : Obligations.CheckOrder := by
  unfold Obligations.CheckOrder
  intro s s' c hp
  refine ⟨step_latched hp, fun he e hd => ?_, fun he i hd => ?_⟩
  · rw [step_of_decode_error hp hd, Laws.rejectReserved_clear c s' he, enterError]
  · rw [step_of_decode_ok hp hd, ← commandByte_of_decode hd]
    exact ⟨exec_refused he, fun ha => ⟨exec_full he ha, fun hroom => ⟨fun _ => exec_tooWide he ha hroom,
      fun hfits => ⟨rfl, fun _ => err_of_exec_passed he ha hroom hfits⟩⟩⟩⟩

end Sys2Proof.Proofs
end

section
/-! PROOF. The template of the eleven field loads (`40_field_load.md` R67). -/

namespace Sys2Proof.Proofs

open Sys2Proof.Machine

/-! ### What a load is -/

theorem format_load (f : Field) (v : Nat) : (f.load v).format = .L :=
  (Laws.format_L_iff _).2 ⟨f, v, rfl⟩

/-- R54: the command byte of a load is opcode 1 with the number of its register as selector. -/
theorem commandByte_load (f : Field) (v : Nat) : (f.load v).commandByte = BitVec.ofNat 8 (0x10 + f.selector) := by
  cases f <;> rfl

theorem selector_le (f : Field) : f.selector ≤ 10 := by
  cases f <;> decide

theorem toNat_commandByte_load (f : Field) (v : Nat) : (f.load v).commandByte.toNat = 0x10 + f.selector := by
  have := selector_le f
  rw [commandByte_load, BitVec.toNat_ofNat]
  omega

theorem admits_load_iff (p : Phase) (f : Field) (v : Nat) : p.admits (f.load v) = true ↔ p = .idle := by
  rw [← mem_admittingPhases, admittingPhases_load, List.mem_singleton]

/-! ### What a load does with `ERR` = 0 -/

theorem exec_load_refused {s : State} (f : Field) (v : Nat) (he : s.err = .none) (hp : s.ph ≠ .idle) :
    exec (f.load v) s = .next (enterError .illegalCommand .phase (BitVec.ofNat 8 (0x10 + f.selector)) s) := by
  rw [exec_refused he (Bool.eq_false_iff.2 (mt (admits_load_iff _ f v).1 hp)), commandByte_load]

theorem exec_load_tooWide {s : State} {f : Field} {v : Nat} (he : s.err = .none) (hp : s.ph = .idle)
    (hv : 2 ^ f.width ≤ v) :
    exec (f.load v) s = .next (enterError .invalidFieldWidth .none (BitVec.ofNat 8 (0x10 + f.selector)) s) := by
  have hroom : (f.load v).format = .V → s.hlen.toNat ≠ s.params.hdrCap := by simp [format_load]
  rw [exec_tooWide he ((admits_load_iff _ f v).2 hp) hroom (operandWidth_load f v) (by rwa [operand_load]),
    commandByte_load]

theorem exec_load_fits {s : State} {f : Field} {v : Nat} (he : s.err = .none) (hp : s.ph = .idle)
    (hv : v < 2 ^ f.width) : exec (f.load v) s = .next (s.writeField f v) := by
  rw [Laws.exec_load, loadField, Laws.whenAdmitted_admitted _ _ _ _ he (List.mem_singleton.2 hp),
    Laws.whenFits_fits _ _ _ _ _ hv]

/-- The frame of `F[i] <- V[w-1:0]`: with the eleven field registers put back, the state is the one before. -/
theorem writeField_frame (s : State) (f : Field) (v : Nat) :
    { s.writeField f v with
      dstMac := s.dstMac, srcMac := s.srcMac, etherType := s.etherType, version := s.version, ident := s.ident,
      flags := s.flags, fragOff := s.fragOff, ttl := s.ttl, proto := s.proto, srcAddr := s.srcAddr,
      dstAddr := s.dstAddr } = s := by
  cases f <;> rfl

/-- Settles O14: the refusals are lines 3 and 5 of R60 with the command byte of the load, and past them the load is one
write of `F[i]`. -/
theorem loadTemplate : Obligations.LoadTemplate := by
  unfold Obligations.LoadTemplate
  intro f v s he
  refine ⟨format_load f v, ?_, exec_load_refused f v he, exec_load_tooWide he, fun hp hv =>
    ⟨s.writeField f v, exec_load_fits he hp hv, ?_, fun g hg => Laws.readField_writeField_other s f g v hg,
      writeField_frame s f v⟩⟩
  · rw [Laws.cmdByte_encode, toNat_commandByte_load]
  · rw [Laws.readField_writeField_same, Nat.mod_eq_of_lt hv]

end Sys2Proof.Proofs
end

section
/-! PROOF. The Header Builder: the bytes `BLD` stores, bit by bit (`41_header_build.md` R81 to R83, R85), and the append of
one byte (R84). -/

namespace Sys2Proof.Proofs

open Sys2Proof.Machine

/-! ### The built bytes, bit by bit -/

/-- R83: `BE_n` of a register cuts it into bytes, the most significant one first. -/
theorem ethBytes_eq_wireEth (s : State) : ethBytes s = s.wireEth := rfl

/-- R82: the OR of the shifted `VERSION` with `IHL` puts two nibbles side by side. -/
theorem versionAndIhl_eq_append : ∀ v : BitVec 4, versionAndIhl v = v ++ 0x5#4 := by decide

/-- R82: the OR of the shifted `FLAGS` with `FRAG_OFF` puts the two registers side by side. -/
theorem flagsAndFragmentOffset_eq_append (f : BitVec 3) (o : BitVec 13) :
    flagsAndFragmentOffset f o = (f ++ o).toNat := (BitVec.toNat_append f o).symm

/-- R82: byte 6 is `FLAGS[2:0] ‖ FRAG_OFF[12:8]` and byte 7 is `FRAG_OFF[7:0]`. -/
theorem beBytes_flagsAndFragmentOffset (f : BitVec 3) (o : BitVec 13) :
    beBytes 2 (flagsAndFragmentOffset f o) = [(f ++ o.extractLsb' 8 5 : BitVec 8), o.extractLsb' 0 8] := by
  have hhigh : (f ++ o).extractLsb' 8 8 = (f ++ o.extractLsb' 8 5 : BitVec 8) := by
    rw [BitVec.extractLsb'_append_eq_ite]
    simp
  have hlow : (f ++ o).extractLsb' 0 8 = o.extractLsb' 0 8 :=
    BitVec.extractLsb'_append_eq_of_add_le (by omega)
  rw [flagsAndFragmentOffset_eq_append, ← hhigh, ← hlow]
  rfl

/-- R82: the 20 bytes, both patched fields still zero. -/
theorem ip4Bytes_eq_wireIp4 (s : State) : ip4Bytes s = s.wireIp4 0#16 0#16 := by
  rw [ip4Bytes, versionAndIhl_eq_append, beBytes_flagsAndFragmentOffset]
  rfl

/-! ### `BLD` -/

theorem readBytes_eth_built (s : State) : Memory.readBytes (Laws.built s).eth 0 14 = some (ethBytes s) := by
  rw [Laws.built_eth, ← Laws.length_ethBytes s, Laws.readBytes_writeBytes_same]

theorem readBytes_buf_built (s : State) : Memory.readBytes (Laws.built s).buf 0 20 = some (ip4Bytes s) := by
  rw [Laws.built_buf, ← Laws.length_ip4Bytes s, Laws.readBytes_writeBytes_same]

theorem read_eth_built_above {s : State} {a : Nat} (ha : 14 ≤ a) :
    Memory.read (Laws.built s).eth a = Memory.read s.eth a := by
  rw [Laws.built_eth, Laws.read_writeBytes_outside _ _ _ _ (.inr (by simpa using ha))]

theorem read_buf_built_above {s : State} {a : Nat} (ha : 20 ≤ a) :
    Memory.read (Laws.built s).buf a = Memory.read s.buf a := by
  rw [Laws.built_buf, Laws.read_writeBytes_outside _ _ _ _ (.inr (by simpa using ha))]

theorem admits_bld_iff (p : Phase) : p.admits .bld = true ↔ p = .idle :=
  (mem_admittingPhases p .bld).symm.trans List.mem_singleton

/-- Settles O16: outside IDLE line 3 of R60 refuses `BLD`, and in IDLE it leaves the two headers, whose bytes are the wire
format bit by bit. -/
theorem buildWritesBothHeaders : Obligations.BuildWritesBothHeaders := by
  unfold Obligations.BuildWritesBothHeaders
  refine ⟨by decide, fun s he => ⟨fun hp => ?_, fun hp hlegal => ?_⟩⟩
  · exact exec_refused he (Bool.eq_false_iff.2 (mt (admits_bld_iff s.ph).1 hp))
  · refine ⟨Laws.built s, Laws.execBld_admitted s he hp hlegal.1, ?_, ?_, rfl, rfl,
      fun a ha => read_eth_built_above ha, fun a ha => read_buf_built_above ha, rfl⟩
    · rw [readBytes_eth_built, ethBytes_eq_wireEth]
    · rw [readBytes_buf_built, ip4Bytes_eq_wireIp4]

/-- Settles O17: `BLD` stores `EthBytes` and `Ip4Bytes`, and these are computed from the fields of the two states. -/
theorem buildFixedPoints : Obligations.BuildFixedPoints := by
  unfold Obligations.BuildFixedPoints
  refine ⟨⟨Laws.built _, Laws.execBld_admitted _ rfl rfl (by decide), ?_⟩,
    ⟨Laws.built _, Laws.execBld_admitted _ rfl rfl (by decide), ?_, ?_⟩⟩
  · rw [readBytes_buf_built]
    decide
  · rw [readBytes_eth_built]
    decide
  · rw [readBytes_buf_built]
    decide

/-! ### `APB` -/

theorem admits_apb_iff (p : Phase) (v : Nat) : p.admits (.apb v) = true ↔ p = .built :=
  (mem_admittingPhases p (.apb v)).symm.trans List.mem_singleton

/-- `HLEN + 1` does not wrap below a legal capacity (R7). -/
theorem toNat_hlen_appended {s : State} (v : Nat) (hlegal : s.params.legal) (hc : s.hlen.toNat < s.params.hdrCap) :
    (Laws.appended v s).hlen.toNat = s.hlen.toNat + 1 := by
  have hcap : s.params.hdrCap ≤ 65535 := hlegal.2
  exact BitVec.toNat_add_of_lt (show s.hlen.toNat + 1 < 2 ^ 16 by omega)

/-- Settles O19: the three refusals are lines 3 to 5 of R60 in their order, and past them `APB` is one store at `HLEN`. -/
theorem appendOneByte : Obligations.AppendOneByte := by
  unfold Obligations.AppendOneByte
  intro s v he
  have hadmits := admits_apb_iff s.ph v
  refine ⟨Laws.cmdByte_encode _, fun hp => ?_, fun hp hfull => ?_, fun hp hroom hv => ?_, fun hp hlegal hc hv => ?_⟩
  · exact exec_refused he (Bool.eq_false_iff.2 (mt hadmits.1 hp))
  · exact exec_full he (hadmits.2 hp) rfl hfull
  · exact exec_tooWide he (hadmits.2 hp) (fun _ => hroom) rfl hv
  · exact ⟨Laws.appended v s, Laws.execApb_admitted v s he hp hc hv, Laws.read_write_same _ _ _,
      toNat_hlen_appended v hlegal hc, fun a ha => Laws.read_write_other _ _ _ _ ha, rfl⟩

end Sys2Proof.Proofs
end

section
/-! PROOF. The Checksum Engine: the two patches (`42_checksum_patch.md` R88, R93), the sum and its fold (R89, R95, R98), and
the patched header's verification (R94). -/

namespace Sys2Proof.Proofs

open Sys2Proof.Machine

/-! ### The patches -/

theorem admits_pln_iff (p : Phase) : p.admits .pln = true ↔ p = .built :=
  (mem_admittingPhases p .pln).symm.trans List.mem_singleton

theorem admits_cks_iff (p : Phase) : p.admits .cks = true ↔ p = .lenp ∨ p = .done :=
  (mem_admittingPhases p .cks).symm.trans List.mem_pair

theorem admits_pck_iff (p : Phase) : p.admits .pck = true ↔ p = .summed :=
  (mem_admittingPhases p .pck).symm.trans List.mem_singleton

section
variable (m : Memory) (a : Nat) (r : BitVec 16)

/-- R10: `BE_2` of a 16-bit register puts its high byte first. -/
theorem read_writeBytes_register_high :
    Memory.read (Memory.writeBytes m a (beBytes 2 r.toNat)) a = some (r.extractLsb' 8 8) :=
  Laws.read_writeBytes_inside (beBytes 2 r.toNat) m a 0 (by simp)

/-- R10: `BE_2` of a 16-bit register puts its low byte second. -/
theorem read_writeBytes_register_low :
    Memory.read (Memory.writeBytes m a (beBytes 2 r.toNat)) (a + 1) = some (r.extractLsb' 0 8) :=
  Laws.read_writeBytes_inside (beBytes 2 r.toNat) m a 1 (by simp)

end

/-- Settles O20: outside BUILT line 3 of R60 refuses `PLN`, and in BUILT it is one store of `HLEN` at offset 2. -/
theorem patchTotalLength : Obligations.PatchTotalLength := by
  unfold Obligations.PatchTotalLength
  refine ⟨by decide, fun s he => ⟨fun hp => ?_, fun hp hlegal => ?_⟩⟩
  · exact exec_refused he (Bool.eq_false_iff.2 (mt (admits_pln_iff s.ph).1 hp))
  · have hcap : 4 ≤ s.params.hdrCap := le_trans (by decide) hlegal.1
    exact ⟨Laws.lengthPatched s, Laws.execPln_admitted s he hp hcap, read_writeBytes_register_high s.buf 2 s.hlen,
      read_writeBytes_register_low s.buf 2 s.hlen, rfl, fun a h2 h3 => read_writeBytes_two (by omega), rfl⟩

/-- Settles O27: outside SUMMED line 3 of R60 refuses `PCK`, and in SUMMED it is one store of `CK` at offset 10. -/
theorem patchChecksum : Obligations.PatchChecksum := by
  unfold Obligations.PatchChecksum
  refine ⟨by decide, fun s he => ⟨fun hp => ?_, fun hp hlegal => ?_⟩⟩
  · exact exec_refused he (Bool.eq_false_iff.2 (mt (admits_pck_iff s.ph).1 hp))
  · have hcap : 12 ≤ s.params.hdrCap := le_trans (by decide) hlegal.1
    exact ⟨Laws.checksumPatched s, Laws.execPck_admitted s he hp hcap, read_writeBytes_register_high s.buf 10 s.ck,
      read_writeBytes_register_low s.buf 10 s.ck, rfl, fun a h10 h11 => read_writeBytes_two (by omega), rfl⟩

/-! ### `CKS` -/

/-- R90: a buffer whose bytes below its length all hold a value has a word sum. -/
theorem exists_wordSum {m : Memory} {n : Nat} (hm : ∀ a < n, (Memory.read m a).isSome) : ∃ S, wordSum m n = some S := by
  have hread : ∀ a < n, Memory.read m a = some ((Memory.read m a).getD 0x00#8) := fun a ha => by
    obtain ⟨b, hb⟩ := Option.isSome_iff_exists.1 (hm a ha)
    rw [hb, Option.getD_some]
  exact ⟨_, sumWords_eq_sum m n (wordCount n) _ fun _ hi => word_of_bytes hread hi⟩

/-- An admitted `CKS` that answers a next state found the word sum and wrote its fold. -/
theorem checksummed_of_exec {s t : State} (he : s.err = .none) (hp : s.ph = .lenp ∨ s.ph = .done)
    (hx : exec .cks s = .next t) : ∃ S, wordSum s.buf s.hlen.toNat = some S ∧ t = Laws.checksummed S s := by
  obtain hn | ⟨-, -, hS⟩ := Laws.execCks_eq_next hx
  · exact absurd ((admits_cks_iff s.ph).2 hp) (Bool.eq_false_iff.1 (not_admits_of_noEffect he hn))
  · exact hS

/-- R34 item 4, R94: in DONE the words of `BUF` fold to 0xFFFF. -/
theorem checksummed_of_verified {s : State} {S : Nat} (h : s.Inv) (hp : s.ph = .done)
    (hS : wordSum s.buf s.hlen.toNat = some S) :
    Laws.checksummed S s = { s with acc := 0x0000FFFF#32, ck := 0x0000#16 } := by
  have hfold : fold S = 0xFFFF := by simpa [State.foldedSum, hS] using h.verified (.inl hp)
  have hck : complement16 0xFFFF = 0x0000#16 := by decide
  rw [checksummed_of_done S hp, hfold, hck]

/-- Settles O23: outside LENP and DONE line 3 of R60 refuses `CKS`; in them the buffer has a word sum below R8's bound, and
`CKS` writes its fold and the complement. -/
theorem checksumOfBuffer : Obligations.ChecksumOfBuffer := by
  unfold Obligations.ChecksumOfBuffer
  refine ⟨by decide, fun s he => ⟨fun hlenp hdone => ?_, fun hp hbytes => ?_⟩⟩
  · have hph : ¬ (s.ph = .lenp ∨ s.ph = .done) := not_or.2 ⟨hlenp, hdone⟩
    exact exec_refused he (Bool.eq_false_iff.2 (mt (admits_cks_iff s.ph).1 hph))
  · obtain ⟨S, hS⟩ := exists_wordSum hbytes
    have hle : S ≤ 32768 * 0xFFFF := wordSum_le _ _ S (Nat.le_of_lt_succ s.hlen.isLt) hS
    refine ⟨S, Laws.checksummed S s, hS, by omega, Laws.execCks_admitted s S he hp hS, Laws.fold_le S,
      toNat_acc_of_fold S, Laws.complement16_toNat _ (Laws.fold_le S), rfl, fun hl => if_pos hl, fun hd => ?_,
      fun h hd => ?_, rfl⟩
    · rw [checksummed_of_done S hd, hd]
    · rw [checksummed_of_verified h hd hS]
      exact ⟨rfl, rfl⟩

/-! ### The closed form of the fold -/

/-- R95: the fold is positive, at most 0xFFFF and congruent to the sum, and these three fix it. -/
theorem fold_eq_closedForm {S : Nat} (hS : 0 < S) : fold S = (S - 1) % 0xFFFF + 1 := by
  have hle := Laws.fold_le S
  have hmod := Laws.fold_mod S
  have hpos := Laws.fold_pos S hS
  omega

theorem fold_eq_ones_iff (S : Nat) : fold S = 0xFFFF ↔ 0 < S ∧ 0xFFFF ∣ S := by
  obtain rfl | hS := Nat.eq_zero_or_pos S
  · decide
  · rw [fold_eq_closedForm hS]
    omega

/-- R82: a byte whose low nibble is `IHL` = 5 is at least 5. -/
theorem five_le_of_lowNibble {b : Byte} (hb : b &&& 0x0F#8 = 0x05#8) : 5 ≤ b.toNat :=
  calc
    5 = (b &&& 0x0F#8).toNat := by rw [hb]; rfl
    _ ≤ b.toNat := by rw [BitVec.toNat_and]; exact Nat.and_le_left

/-- R95: `Word(0)` of a built header is `VERSION ‖ IHL ‖ DSCP_ECN`. -/
theorem word_zero_ge {s : State} (h : s.Inv) (hp : s.ph ≠ .idle) :
    ∃ w, word s.buf s.hlen.toNat 0 = some w ∧ 0x0500 ≤ w := by
  have h20 : 20 ≤ s.hlen.toNat := (h.length.2 hp).1
  obtain ⟨hIhl, hDscp⟩ := h.hardwired hp
  obtain ⟨b, hb, hb5⟩ := Option.map_eq_some_iff.1 hIhl
  have h5 := five_le_of_lowNibble hb5
  exact ⟨_, Laws.word_inside s.buf s.hlen.toNat 0 b 0x00#8 (by omega) hb hDscp, by omega⟩

/-- Settles O24: the closed form by congruence, and the corners of `ACC` and `CK` because the sum of a built header is
positive. -/
theorem foldClosedForm : Obligations.FoldClosedForm := by
  unfold Obligations.FoldClosedForm
  refine ⟨rfl, fun S hS => fold_eq_closedForm hS, fold_eq_ones_iff, fun s h hp => word_zero_ge h hp,
    fun s t h he hp hx => ?_⟩
  obtain ⟨S, hS, rfl⟩ := checksummed_of_exec he hp hx
  have hbuilt : s.ph ≠ .idle := by rcases hp with hp | hp <;> simp [hp]
  obtain ⟨hacc, -, hck⟩ := checksumRegisters_of_fold (wordSum_pos h hbuilt hS)
  refine ⟨fun h0 => ?_, fun hF => ?_⟩
  · rw [Laws.checksummed_acc] at h0
    simp [h0] at hacc
  · rw [Laws.checksummed_ck] at hF
    rw [hF, BitVec.toNat_ofNat] at hck
    omega

/-! ### The order of the words -/

/-- One pass of the loop of R90: a sum of two values, and no value where one of them is missing. -/
theorem sumWords_succ (m : Memory) (n k : Nat) :
    sumWords m n (k + 1) = Option.map₂ (· + ·) (sumWords m n k) (word m n k) := by
  rw [sumWords]
  cases sumWords m n k <;> cases word m n k <;> rfl

/-- The loop of R90 adds up a list of words, and has no sum once one of them has no value. -/
theorem sumWords_eq_foldl (m : Memory) (n k : Nat) :
    sumWords m n k = ((List.range k).map (word m n)).foldl (Option.map₂ (· + ·)) (some 0) := by
  induction k with
  | zero => rfl
  | succ k ih =>
    rw [List.range_succ, List.map_append, List.foldl_append, ← ih, sumWords_succ]
    rfl

/-- R98: addition is commutative, so only which words there are counts. -/
theorem wordSum_of_perm {m m' : Memory} {n n' : Nat}
    (hperm : List.Perm ((List.range (wordCount n)).map (word m n)) ((List.range (wordCount n')).map (word m' n'))) :
    wordSum m n = wordSum m' n' := by
  have hcomm : RightCommutative (Option.map₂ (α := Nat) (· + ·)) :=
    ⟨fun _ _ _ => Option.map₂_right_comm Nat.add_right_comm⟩
  rw [wordSum, wordSum, sumWords_eq_foldl, sumWords_eq_foldl]
  exact hperm.foldl_eq (some 0)

/-- Settles O26: the two buffers have one word sum, and `CKS` writes registers that depend on it alone. Swapping the bytes
0 and 1 of one word changes its sum from 1 to 256. -/
theorem checksumIgnoresWordOrder : Obligations.ChecksumIgnoresWordOrder := by
  unfold Obligations.ChecksumIgnoresWordOrder
  refine ⟨fun m m' n n' hperm => wordSum_of_perm hperm, fun s s' t t' he he' hp hp' hperm hx hx' => ?_,
    0x00#8, 0x01#8, by decide⟩
  obtain ⟨S, hS, rfl⟩ := checksummed_of_exec he hp hx
  obtain ⟨S', hS', rfl⟩ := checksummed_of_exec he' hp' hx'
  have hsum := wordSum_of_perm hperm
  obtain rfl : S = S' := by rwa [hS, hS', Option.some.injEq] at hsum
  exact ⟨hsum, rfl, rfl⟩

/-! ### The patched header verifies -/

/-- In a state of the invariant every byte below `HLEN` holds a value, so an admitted `CKS` completes. -/
theorem exec_cks_of_inv {s : State} (h : s.Inv) (he : s.err = .none) (hp : s.ph = .lenp ∨ s.ph = .done) :
    ∃ S, wordSum s.buf s.hlen.toNat = some S ∧ exec .cks s = .next (Laws.checksummed S s) := by
  obtain ⟨S, hS⟩ := Laws.wordSum_of_range s.buf s.hlen.toNat h.spaces.2
  exact ⟨S, hS, Laws.execCks_admitted s S he hp hS⟩

/-- R94: a `CKS` in DONE verifies the header. -/
theorem exec_cks_done {s : State} (h : s.Inv) (he : s.err = .none) (hp : s.ph = .done) :
    exec .cks s = .next { s with acc := 0x0000FFFF#32, ck := 0x0000#16 } := by
  obtain ⟨S, hS, hx⟩ := exec_cks_of_inv h he (.inr hp)
  rw [hx, checksummed_of_verified h hp hS]

/-- Settles O28: `CKS` and `PCK` lead from LENP to a DONE state of the invariant, and there a `CKS` verifies. -/
theorem patchedHeaderVerifies : Obligations.PatchedHeaderVerifies := by
  unfold Obligations.PatchedHeaderVerifies
  refine ⟨fun s h he hp => exec_cks_done h he hp, fun s h he hp => ?_⟩
  have hcap : 12 ≤ s.params.hdrCap := le_trans (by decide) h.params.1
  obtain ⟨S, -, hcks⟩ := exec_cks_of_inv h he (.inl hp)
  have hsummed : (Laws.checksummed S s).ph = .summed := if_pos hp
  have hpck := Laws.execPck_admitted (Laws.checksummed S s) he hsummed hcap
  have hverify := exec_cks_done (inv_exec (inv_exec h hcks) hpck) he rfl
  refine ⟨_, Eq.trans ?_ hverify, rfl, he, rfl, rfl⟩
  simp only [execAll, hcks, hpck, hverify, Laws.andThen_next]

end Sys2Proof.Proofs
end

section
/-! PROOF. The clear `CLR` (`43_control.md` R102): the state it leaves is the reset state, register by register. -/

namespace Sys2Proof.Proofs

open Sys2Proof.Machine

/-- R35: the field registers after a reset are those of the reset state, whatever they held before. -/
theorem readField_resetBlock (s : State) (f : Field) : (resetBlock s).readField f = State.reset.readField f := by
  cases f <;> simp [State.readField]

/-- R29, R30: after a reset neither byte space holds a value, whatever was stored before. -/
theorem readByte_resetBlock (s : State) (sp : Space) (a : Nat) : (resetBlock s).readByte sp a = none :=
  calc
    (resetBlock s).readByte sp a = State.reset.readByte sp a := by cases sp <;> simp
    _ = none := readByte_reset sp a

/-- Settles O11: the byte 0x80 decodes to `CLR` with any operand, and `CLR` takes the reset state with no test of the phase
or of the error latch. -/
theorem clearRestoresReset : Obligations.ClearRestoresReset := by
  unfold Obligations.ClearRestoresReset
  refine ⟨fun v => decode_commandWord .clr v (absurd rfl), fun s => ⟨resetBlock s, Laws.execClr_eq s, ?_⟩⟩
  exact ⟨readField_resetBlock s, rfl, rfl, rfl, rfl, rfl, rfl, rfl, rfl, readByte_resetBlock s⟩

end Sys2Proof.Proofs
end

section
/-! PROOF. The errors of each command (`60_exceptions.md` R109, R112, R113): what raises one, the state it leaves, and that
nothing more happens while it is latched. -/

namespace Sys2Proof.Proofs

open Sys2Proof.Machine

/-! ### The causes of the table -/

/-- R109, the causes a command can have in a state: its phase, a full buffer, the width of its operand, a failed hand-off. -/
def ErrorCause (i : Instr) (s : State) : Prop :=
  s.ph.admits i = false ∨ (i.format = .V ∧ s.hlen.toNat = s.params.hdrCap) ∨
    (∃ w, i.operandWidth = some w ∧ 2 ^ w ≤ i.operand) ∨ (i = .emt ∧ s.tx = .fail)

/-- R109, R112: the state each error of a command leaves, with the row of the table that raises it. -/
inductive ErrorEntry (i : Instr) (s : State) : State → Prop where
  | phase (ha : s.ph.admits i = false) : ErrorEntry i s (enterError .illegalCommand .phase i.commandByte s)
  | capacity (hp : s.ph = .built) (hf : i.format = .V) (hfull : s.hlen.toNat = s.params.hdrCap) :
      ErrorEntry i s (enterError .illegalCommand .capacity i.commandByte s)
  | width (w : Nat) (hw : i.operandWidth = some w) (hv : 2 ^ w ≤ i.operand) :
      ErrorEntry i s (enterError .invalidFieldWidth .none i.commandByte s)
  | handOff (hi : i = .emt) (htx : s.tx = .fail) :
      ErrorEntry i s (enterError .transmissionFailure .none i.commandByte (Laws.handedOff s))

theorem err_of_errorEntry {i : Instr} {s t : State} (h : ErrorEntry i s t) : t.err ≠ .none := by
  cases h <;> nofun

theorem ecmd_of_errorEntry {i : Instr} {s t : State} (h : ErrorEntry i s t) : t.ecmd = i.commandByte := by
  cases h <;> rfl

theorem admits_emt_iff (p : Phase) : p.admits .emt = true ↔ p = .done :=
  (mem_admittingPhases p .emt).symm.trans List.mem_singleton

/-- Each cause raises an error; where a command has several, the first in the order of R60 does. -/
theorem errorEntry_of_cause {i : Instr} {s t : State} (he : s.err = .none) (hx : exec i s = .next t)
    (hc : ErrorCause i s) : ErrorEntry i s t := by
  by_cases ha : s.ph.admits i = true
  · by_cases hfull : i.format = .V ∧ s.hlen.toNat = s.params.hdrCap
    · obtain ⟨hf, hcap⟩ := hfull
      rw [exec_full he ha hf hcap] at hx
      cases hx
      obtain ⟨v, rfl⟩ := eq_apb_of_format hf
      exact .capacity ((admits_apb_iff s.ph v).1 ha) hf hcap
    · obtain hrefused | hfull' | ⟨w, hw, hv⟩ | ⟨rfl, htx⟩ := hc
      · exact absurd ha (Bool.eq_false_iff.1 hrefused)
      · exact absurd hfull' hfull
      · rw [exec_tooWide he ha (fun hf hcap => hfull ⟨hf, hcap⟩) hw hv] at hx
        cases hx
        exact .width w hw hv
      · rw [Laws.execEmt_fail s he ((admits_emt_iff s.ph).1 ha) htx] at hx
        cases hx
        exact .handOff rfl htx
  · have ha := Bool.eq_false_iff.2 ha
    rw [exec_refused he ha] at hx
    cases hx
    exact .phase ha

/-- There is no error without one of the causes. -/
theorem errorEntry_of_err {i : Instr} {s t : State} (he : s.err = .none) (hx : exec i s = .next t)
    (ht : t.err ≠ .none) : ErrorEntry i s t := by
  refine errorEntry_of_cause he hx ?_
  obtain hnone | hrefused | hfull | hwide | ⟨hi, htx, -⟩ := err_of_exec he hx
  · exact absurd hnone ht
  · exact .inl hrefused
  · exact .inr (.inl hfull)
  · exact .inr (.inr (.inl hwide))
  · exact .inr (.inr (.inr ⟨hi, htx⟩))

theorem ne_clr_of_err {i : Instr} {s t : State} (hx : exec i s = .next t) (ht : t.err ≠ .none) : i ≠ .clr := by
  rintro rfl
  cases hx
  exact ht rfl

/-! ### The words -/

/-- R57, R58: with `ERR` = 0 a presented word is either reserved, and latches that, or runs the command it decodes to. -/
theorem step_presented_cases {s s' t : State} {c : CmdWord} (hp : s.Presents c s') (he : s'.err = .none)
    (hx : step s = .next t) :
    (∃ e, decode c = .error e ∧ t = enterError .illegalCommand .reserved (cmdByte c) s') ∨
      ∃ i, decode c = .ok i ∧ i.commandByte = cmdByte c ∧ exec i s' = .next t := by
  cases hd : decode c with
  | error e =>
    rw [step_of_decode_error hp hd, Laws.rejectReserved_clear c s' he] at hx
    cases hx
    exact .inl ⟨e, rfl, rfl⟩
  | ok i =>
    rw [step_of_decode_ok hp hd] at hx
    exact .inr ⟨i, rfl, commandByte_of_decode hd, hx⟩

/-- Settles O36: a reserved word is an error of its own; for a command, causes and errors meet in `ErrorEntry`. -/
theorem errorsOfEachCommand : Obligations.ErrorsOfEachCommand := by
  unfold Obligations.ErrorsOfEachCommand
  intro s s' t c hp he hx
  obtain ⟨e, hd, rfl⟩ | ⟨i, hd, hb, hx⟩ := step_presented_cases hp he hx
  · exact ⟨fun _ => nofun, fun _ => ⟨rfl, .inl ⟨e, hd, rfl, rfl⟩⟩⟩
  · refine ⟨fun hcause => ?_, fun ht => ?_⟩
    · obtain ⟨e, hd'⟩ | ⟨j, hd', hc⟩ := hcause <;> cases hd.symm.trans hd'
      exact err_of_errorEntry (errorEntry_of_cause he hx hc)
    · have hentry := errorEntry_of_err he hx ht
      refine ⟨(ecmd_of_errorEntry hentry).trans hb, .inr ⟨i, hd, ne_clr_of_err hx ht, ?_⟩⟩
      cases hentry with
      | phase ha => exact .inl ⟨rfl, rfl, ha⟩
      | capacity hph hf hfull => exact .inr (.inl ⟨rfl, rfl, hph, hf, hfull⟩)
      | width w hw hv => exact .inr (.inr (.inl ⟨rfl, rfl, w, hw, hv⟩))
      | handOff hi htx => exact .inr (.inr (.inr ⟨rfl, rfl, hi, htx⟩))

/-- Settles O37: every entry but the failed hand-off is `enterError` at the state before the command. -/
theorem errorEntryIsPrecise : Obligations.ErrorEntryIsPrecise := by
  unfold Obligations.ErrorEntryIsPrecise
  intro s s' t c hp he hx
  obtain ⟨e, hd, rfl⟩ | ⟨i, hd, hb, hx⟩ := step_presented_cases hp he hx
  · exact ⟨nofun, fun _ => ⟨nofun, rfl⟩, nofun⟩
  · by_cases ht : t.err = .none
    · rw [ht]
      exact ⟨nofun, nofun, nofun⟩
    · rw [← hb]
      cases errorEntry_of_err he hx ht with
      | phase => exact ⟨nofun, fun _ => ⟨nofun, rfl⟩, nofun⟩
      | capacity => exact ⟨nofun, fun _ => ⟨nofun, rfl⟩, nofun⟩
      | width => exact ⟨fun _ => rfl, nofun, nofun⟩
      | handOff hi => exact ⟨nofun, nofun, fun _ => ⟨hi ▸ hd, rfl⟩⟩

/-- Settles O38: taking the input sample does not touch the latch, and line 1 of R60 then stops the word. -/
theorem errorStateIsFrozen : Obligations.ErrorStateIsFrozen := by
  unfold Obligations.ErrorStateIsFrozen
  intro s s' c hp he hc
  exact step_latched hp (by rwa [err_of_presents hp]) hc

end Sys2Proof.Proofs
end

section
/-! PROOF. The round trip of the encoding, in both directions (`30_encoding.md` R53 to R56, R61), and the words the spec
prints. -/

namespace Sys2Proof.Proofs

open Sys2Proof.Machine

/-! ### The operand of a command -/

/-- R61, R63 for every command: the lemmas of each constructor, collected. -/
theorem operandForm (i : Instr) : Laws.OperandForm.Statement i := by
  cases i with
  | ldfDmac v => exact Laws.OperandForm.ldfDmac v
  | ldfSmac v => exact Laws.OperandForm.ldfSmac v
  | ldfEtype v => exact Laws.OperandForm.ldfEtype v
  | ldfVer v => exact Laws.OperandForm.ldfVer v
  | ldfId v => exact Laws.OperandForm.ldfId v
  | ldfFlags v => exact Laws.OperandForm.ldfFlags v
  | ldfFrag v => exact Laws.OperandForm.ldfFrag v
  | ldfTtl v => exact Laws.OperandForm.ldfTtl v
  | ldfProto v => exact Laws.OperandForm.ldfProto v
  | ldfSrc v => exact Laws.OperandForm.ldfSrc v
  | ldfDst v => exact Laws.OperandForm.ldfDst v
  | bld => exact Laws.OperandForm.bld
  | apb v => exact Laws.OperandForm.apb v
  | pln => exact Laws.OperandForm.pln
  | cks => exact Laws.OperandForm.cks
  | pck => exact Laws.OperandForm.pck
  | emt => exact Laws.OperandForm.emt
  | clr => exact Laws.OperandForm.clr

theorem wf_iff_operand_lt (i : Instr) : i.wf = true ↔ i.operand < 2 ^ 64 := (operandForm i).1

theorem operand_eq_zero {i : Instr} (hf : i.format = .N) : i.operand = 0 := (operandForm i).2 hf

/-- Settles O1: the word carries the whole operand of a well-formed command, and a word of a command's byte and operand
decodes to it. -/
theorem decodeOfEncode : Obligations.DecodeOfEncode := by
  unfold Obligations.DecodeOfEncode
  intro i hwf
  have hoperand : i.operand = (BitVec.ofNat 64 i.operand).toNat := by
    rw [BitVec.toNat_ofNat, Nat.mod_eq_of_lt ((wf_iff_operand_lt i).1 hwf)]
  exact decode_commandWord i _ fun _ => hoperand

/-! ### The word of a decoded command -/

/-- R57: the command byte and, where it is decoded, the operand fix what a word decodes to. -/
theorem decode_eq_ok {c : CmdWord} {i : Instr} (hb : i.commandByte = cmdByte c)
    (hv : i.format ≠ .N → i.operand = (cmdOperand c).toNat) : decode c = .ok i :=
  calc
    decode c = decode (commandWord i.commandByte (cmdOperand c)) := by rw [hb, Laws.commandWord_eta]
    _ = .ok i := decode_commandWord i (cmdOperand c) hv

/-- R53: a decoded command of format L or V carries the 64 operand bits of its word. -/
theorem operand_of_decode {c : CmdWord} {i : Instr} (hd : decode c = .ok i) (hf : i.format ≠ .N) :
    i.operand = (cmdOperand c).toNat := by
  have hb := commandByte_of_decode hd
  obtain ⟨f, v, rfl⟩ | rfl | ⟨v, rfl⟩ | rfl | rfl | rfl | rfl | rfl := Laws.instr_cases i
  · -- the eleven loads: the command byte names the register, whatever the operand
    rw [commandByte_load, ← commandByte_load f (cmdOperand c).toNat] at hb
    have hi : f.load v = f.load (cmdOperand c).toNat :=
      Except.ok.inj (hd.symm.trans (decode_eq_ok hb fun _ => operand_load f _))
    rw [hi, operand_load]
  · exact absurd rfl hf
  · -- `APB`
    cases hd.symm.trans (decode_eq_ok (i := .apb (cmdOperand c).toNat) hb fun _ => rfl)
    rfl
  all_goals exact absurd rfl hf

theorem wf_of_decode {c : CmdWord} {i : Instr} (hd : decode c = .ok i) : i.wf = true := by
  rw [wf_iff_operand_lt]
  by_cases hf : i.format = .N
  · rw [operand_eq_zero hf]
    decide
  · rw [operand_of_decode hd hf]
    exact (cmdOperand c).isLt

/-- R53: no bit of a word that carries an operand is lost. -/
theorem encode_of_decode {c : CmdWord} {i : Instr} (hd : decode c = .ok i) (hf : i.format ≠ .N) : encode i = c := by
  rw [encode, commandByte_of_decode hd, operand_of_decode hd hf, BitVec.ofNat_toNat, BitVec.setWidth_eq,
    Laws.commandWord_eta]

/-- Settles O2: command byte and operand of the decoded command are those of the word; a command of format N decodes
from its byte with any operand. -/
theorem encodeOfDecode : Obligations.EncodeOfDecode := by
  unfold Obligations.EncodeOfDecode
  intro c i hd
  refine ⟨wf_of_decode hd, ?_, encode_of_decode hd, fun hN v => ?_⟩
  · rw [Laws.cmdByte_encode, commandByte_of_decode hd]
  · rw [← commandByte_of_decode hd]
    exact decode_commandWord i v (absurd hN)

/-! ### The words the spec prints -/

/-- Settles O5: the thirteen words, decoded. -/
theorem writtenOutWordsDecode : Obligations.WrittenOutWordsDecode := by
  unfold Obligations.WrittenOutWordsDecode
  decide

/-- Settles O52: the lines, assembled. -/
theorem assemblerWritesSpecWords : Obligations.AssemblerWritesSpecWords := by
  unfold Obligations.AssemblerWritesSpecWords
  exact ⟨by decide, by decide, by decide⟩

end Sys2Proof.Proofs
end

section
/-! PROOF. One step (`30_encoding.md` R66): what the host presents decides it, and it keeps the invariant (`10_state.md`
R34, R35, `70_reset_and_hazards.md` R125). -/

namespace Sys2Proof.Proofs

open Sys2Proof.Machine

/-- Settles O49: a step is a reset, one command, a rejected word or nothing, and each of them keeps the invariant. -/
theorem stepKeepsInvariant : Obligations.StepKeepsInvariant := by
  unfold Obligations.StepKeepsInvariant
  exact fun s t h hx => inv_step h hx

/-- Settles O48: the reset state is what a reset leaves, whatever the arguments of the coming steps. -/
theorem resetSatisfiesInvariant : Obligations.ResetSatisfiesInvariant := by
  unfold Obligations.ResetSatisfiesInvariant
  exact fun params tx inputs hp => inv_resetBlock (s := { State.reset with params, tx, inputs }) hp

/-- Settles O6: a presented word that decodes is run. -/
theorem stepRunsDecodedCommand : Obligations.StepRunsDecodedCommand := by
  unfold Obligations.StepRunsDecodedCommand
  exact fun s s' c i hp hd => step_of_decode_ok hp hd

/-! ### Reset, clear, or nothing -/

/-- R66: `RST` decides first. -/
theorem step_of_presentsReset {s s' : State} (hr : s.PresentsReset s') : step s = .next (resetBlock s') := by
  obtain ⟨p, rest, hin, hrst, rfl⟩ := hr
  rw [Laws.step_cons s p rest hin, runSample, if_pos hrst]
  rfl

/-- R66: a sample without `RST` and without a command is taken, and nothing else happens. -/
theorem step_of_no_command {s : State} {p : PortSample} {rest : List PortSample} (hin : s.inputs = p :: rest)
    (hrst : p.rst = false) (hvalid : p.cmdValid = false) : step s = .next (takeSample p rest s) := by
  rw [Laws.step_cons s p rest hin, runSample, hrst, hvalid]
  rfl

/-- R102: a presented `CLR` takes the reset state. -/
theorem step_of_decode_clr {s s' : State} {c : CmdWord} (hp : s.Presents c s') (hd : decode c = .ok .clr) :
    step s = .next (resetBlock s') := by
  rw [step_of_decode_ok hp hd, Laws.execClr_eq]

/-- Settles O7: the three cases of R66 without a command. -/
theorem stepResetsOrIdles : Obligations.StepResetsOrIdles := by
  unfold Obligations.StepResetsOrIdles
  refine ⟨fun s s' hr => ?_, fun s p rest hin hrst hvalid => step_of_no_command hin hrst hvalid,
    fun s hin => Laws.step_nil s hin⟩
  rw [step_of_presentsReset hr]
  obtain ⟨p, rest, -, -, rfl⟩ := hr
  rfl

theorem presentsReset_cons {s : State} {p : PortSample} {rest : List PortSample} (hin : s.inputs = p :: rest)
    (hrst : p.rst = true) : s.PresentsReset (takeSample p rest s) :=
  ⟨p, rest, hin, hrst, rfl⟩

theorem presents_cons {s : State} {p : PortSample} {rest : List PortSample} (hin : s.inputs = p :: rest)
    (hrst : p.rst = false) (hvalid : p.cmdValid = true) : s.Presents p.cmd (takeSample p rest s) :=
  ⟨p, rest, hin, hrst, hvalid, rfl, rfl⟩

/-- Settles O12: both steps reset the state with the sample taken, which is the same state. -/
theorem resetInputEqualsClear : Obligations.ResetInputEqualsClear := by
  unfold Obligations.ResetInputEqualsClear
  intro s c d valid tx rest hd
  have hreset := presentsReset_cons (s := { s with inputs := ⟨true, valid, c, tx⟩ :: rest }) rfl rfl
  have hclear := presents_cons (s := { s with inputs := ⟨false, true, d, tx⟩ :: rest }) rfl rfl rfl
  exact (step_of_presentsReset hreset).trans (step_of_decode_clr hclear hd).symm

/-! ### The word placed by `withFetchWord` -/

/-- Taking the sample that was placed leads back to the state it was placed on. -/
theorem presents_withFetchWord (s : State) (nbits w : Nat) :
    (s.withFetchWord nbits w).Presents (tableWord nbits w) s :=
  ⟨commandSample (tableWord nbits w) s, s.inputs, rfl, rfl, rfl, rfl, rfl⟩

theorem decode_of_decodeTableWord {nbits w : Nat} {i : Instr} (h : decodeTableWord nbits w = some i) :
    decode (tableWord nbits w) = .ok i := by
  unfold decodeTableWord at h
  split at h
  · cases h
    assumption
  · cases h

/-- Settles O8: the word is presented on the state as it stood, and is run. -/
theorem presentedWordRunsNext : Obligations.PresentedWordRunsNext := by
  unfold Obligations.PresentedWordRunsNext
  exact fun s w i h => step_of_decode_ok (presents_withFetchWord s 72 w) (decode_of_decodeTableWord h)

end Sys2Proof.Proofs
end

section
/-! PROOF. Consequences of the templates of the field loads, of `BLD`, of the fold and of the hand-off
(`40_field_load.md` R68 to R79, `41_header_build.md` R86, `42_checksum_patch.md` R91, R96, `43_control.md` R101). -/

namespace Sys2Proof.Proofs

open Sys2Proof.Machine

/-! ### Field loads -/

/-- Settles O13: the template of R67 for each of the eleven registers. -/
theorem fieldLoadsComplete : Obligations.FieldLoadsComplete := by
  unfold Obligations.FieldLoadsComplete
  intro s v he hp
  have hload : ∀ f : Field, v < 2 ^ f.width → exec (f.load v) s = .next (s.writeField f v) := fun _ hv =>
    exec_load_fits he hp hv
  exact ⟨hload .dstMac, hload .srcMac, hload .etherType, hload .version, hload .ident, hload .flags, hload .fragOff,
    hload .ttl, hload .proto, hload .srcAddr, hload .dstAddr⟩

/-- Of two writes of one register the second alone counts. -/
theorem writeField_writeField (s : State) (f : Field) (v w : Nat) :
    (s.writeField f v).writeField f w = s.writeField f w := by
  cases f <;> rfl

/-- Settles O15: 2^w - 1 passes the width check and is stored whole, 2^w does not pass, and a second load overwrites the
first. -/
theorem loadBoundsAndLastWins : Obligations.LoadBoundsAndLastWins := by
  unfold Obligations.LoadBoundsAndLastWins
  intro f s he hp
  have hmax : 2 ^ f.width - 1 < 2 ^ f.width := Nat.sub_lt (Nat.two_pow_pos _) Nat.one_pos
  refine ⟨⟨_, exec_load_fits he hp hmax, ?_, ?_⟩, ⟨_, exec_load_tooWide he hp (Nat.le_refl _), ?_, rfl⟩,
    fun v w hv hw => ?_⟩
  · rw [Laws.readField_writeField_same, Nat.mod_eq_of_lt hmax]
  · rw [Laws.writeField_err, he]
  · rfl
  · rw [exec_load_fits he hp hv, Laws.andThen_next,
      exec_load_fits ((Laws.writeField_err s f v).trans he) ((Laws.writeField_ph s f v).trans hp) hw,
      exec_load_fits he hp hw, writeField_writeField]

/-! ### `BLD` -/

theorem built_of_exec {s t : State} (he : s.err = .none) (hp : s.ph = .idle) (hx : exec .bld s = .next t) :
    t = Laws.built s := by
  obtain hn | ⟨-, -, -, ht⟩ := Laws.execBld_eq_next hx
  · exact absurd ((admits_bld_iff s.ph).2 hp) (Bool.eq_false_iff.1 (not_admits_of_noEffect he hn))
  · exact ht

section
variable {s s' : State} (h : ∀ f : Field, s.readField f = s'.readField f)
include h

/-- R83, R86. -/
theorem ethBytes_congr : ethBytes s = ethBytes s' := by
  have hdst : s.dstMac.toNat = s'.dstMac.toNat := h .dstMac
  have hsrc : s.srcMac.toNat = s'.srcMac.toNat := h .srcMac
  have htype : s.etherType.toNat = s'.etherType.toNat := h .etherType
  rw [ethBytes, hdst, hsrc, htype, ethBytes]

/-- R82, R86. -/
theorem ip4Bytes_congr : ip4Bytes s = ip4Bytes s' := by
  have hversion : s.version = s'.version := BitVec.eq_of_toNat_eq (h .version)
  have hident : s.ident.toNat = s'.ident.toNat := h .ident
  have hflags : s.flags = s'.flags := BitVec.eq_of_toNat_eq (h .flags)
  have hfrag : s.fragOff = s'.fragOff := BitVec.eq_of_toNat_eq (h .fragOff)
  have httl : s.ttl = s'.ttl := BitVec.eq_of_toNat_eq (h .ttl)
  have hproto : s.proto = s'.proto := BitVec.eq_of_toNat_eq (h .proto)
  have hsrc : s.srcAddr.toNat = s'.srcAddr.toNat := h .srcAddr
  have hdst : s.dstAddr.toNat = s'.dstAddr.toNat := h .dstAddr
  rw [ip4Bytes, hversion, hident, hflags, hfrag, httl, hproto, hsrc, hdst, ip4Bytes]

end

/-- Two memories read back as the same sequence agree on its offsets, and hold a value there. -/
theorem read_eq_of_readBytes {m m' : Memory} {n : Nat} {bs : List Byte} (h : Memory.readBytes m 0 n = some bs)
    (h' : Memory.readBytes m' 0 n = some bs) (a : Nat) (ha : a < n) :
    Memory.read m a = Memory.read m' a ∧ (Memory.read m a).isSome := by
  obtain ⟨hl, -⟩ := (Laws.readBytes_eq_some m 0 n bs).1 h
  have hread := getElem?_of_readBytes h a ha
  have hread' := getElem?_of_readBytes h' a ha
  rw [Nat.zero_add] at hread hread'
  refine ⟨hread.symm.trans hread', ?_⟩
  rw [← hread, List.getElem?_eq_getElem (hl ▸ ha), Option.isSome_some]

/-- Settles O18: the stored sequences `EthBytes` and `Ip4Bytes` are functions of the field registers. -/
theorem buildIsFunctionOfFields : Obligations.BuildIsFunctionOfFields := by
  unfold Obligations.BuildIsFunctionOfFields
  intro s s' t t' he he' hp hp' hfields hx hx'
  obtain rfl := built_of_exec he hp hx
  obtain rfl := built_of_exec he' hp' hx'
  have heth := readBytes_eth_built s'
  have hbuf := readBytes_buf_built s'
  rw [← ethBytes_congr hfields] at heth
  rw [← ip4Bytes_congr hfields] at hbuf
  exact ⟨rfl, rfl, read_eq_of_readBytes (readBytes_eth_built s) heth, read_eq_of_readBytes (readBytes_buf_built s) hbuf⟩

/-! ### The passes of the fold -/

theorem fold_of_le {S : Nat} (h : S ≤ 0xFFFF) : fold S = S := by
  rw [Laws.fold_unfold, if_neg (Nat.not_lt.2 h)]

theorem fold_of_gt {S : Nat} (h : 0xFFFF < S) : fold S = fold (foldPass S) := by
  rw [Laws.fold_unfold, if_pos h]

theorem fold_ne_self_iff (S : Nat) : fold S ≠ S ↔ 0xFFFF < S := by
  have hle := Laws.fold_le S
  refine ⟨fun hne => ?_, fun h => by omega⟩
  by_contra h
  exact hne (fold_of_le (Nat.not_lt.1 h))

/-- R96: below 2^32 the first pass leaves at most 0x1FFFE, and the second at most 0xFFFF. -/
theorem foldPass_foldPass_le {S : Nat} (h : S < 2 ^ 32) : foldPass (foldPass S) ≤ 0xFFFF := by
  rw [Laws.foldPass_eq, Laws.foldPass_eq]
  omega

/-- Settles O25: the loop unrolled once; twice for a sum below 2^32; and the second pass runs exactly when the first one
leaves more than 16 bits. -/
theorem twoFoldPassesSuffice : Obligations.TwoFoldPassesSuffice := by
  unfold Obligations.TwoFoldPassesSuffice
  refine ⟨Laws.fold_unfold, fun S hS => ?_, fun S hS => ?_⟩
  · split_ifs with hzero hone
    · exact fold_of_le hzero
    · rw [fold_of_gt (Nat.not_le.1 hzero), fold_of_le hone]
    · rw [fold_of_gt (Nat.not_le.1 hzero), fold_of_gt (Nat.not_le.1 hone), fold_of_le (foldPass_foldPass_le hS)]
  · rw [fold_of_gt hS]
    exact fold_ne_self_iff (foldPass S)

/-! ### The hand-off and the output ports -/

/-- The state `EMT` leaves in DONE: the frame is out whatever the collaborator answers, and `Fail` is latched (R101). -/
def answered (s : State) : State :=
  match s.tx with
  | .sent _ => Laws.handedOff s
  | .fail => enterError .transmissionFailure .none 0x70#8 (Laws.handedOff s)

theorem answered_sent {s : State} {n : BitVec 32} (htx : s.tx = .sent n) : answered s = Laws.handedOff s := by
  rw [answered, htx]

theorem answered_fail {s : State} (htx : s.tx = .fail) :
    answered s = enterError .transmissionFailure .none 0x70#8 (Laws.handedOff s) := by
  rw [answered, htx]

theorem exec_emt_done {s : State} (he : s.err = .none) (hp : s.ph = .done) : exec .emt s = .next (answered s) := by
  cases htx : s.tx with
  | sent n => rw [answered_sent htx, Laws.execEmt_sent s n he hp htx]
  | fail => rw [answered_fail htx, Laws.execEmt_fail s he hp htx]

/-- The answer decides the latch alone: the packet is that of the hand-off. -/
theorem answered_packet (s : State) :
    (answered s).ph = .sent ∧ (answered s).frameValid = true ∧ (answered s).hlen = s.hlen ∧ (answered s).eth = s.eth ∧
      (answered s).buf = s.buf := by
  cases htx : s.tx with
  | sent n =>
    rw [answered_sent htx]
    exact ⟨rfl, rfl, rfl, rfl, rfl⟩
  | fail =>
    rw [answered_fail htx]
    exact ⟨rfl, rfl, rfl, rfl, rfl⟩

/-- R31: what the hand-off presents. -/
theorem frame_answered (s : State) : (answered s).frame = s.frameBytes := by
  obtain ⟨-, hv, hlen, heth, hbuf⟩ := answered_packet s
  rw [State.frame, if_pos hv, State.frameBytes, hlen, heth, hbuf, State.frameBytes]

/-- Settles O31: outside DONE line 3 of R60 refuses `EMT`, and in DONE it leaves `answered`. -/
theorem handOff : Obligations.HandOff := by
  unfold Obligations.HandOff
  refine ⟨by decide, fun s he => ⟨fun hp => ?_, fun hp n htx => ⟨Laws.execEmt_sent s n he hp htx, ?_⟩,
    fun hp htx => Laws.execEmt_fail s he hp htx, fun hp t hx => ?_⟩⟩
  · exact exec_refused he (Bool.eq_false_iff.2 (mt (admits_emt_iff s.ph).1 hp))
  · rw [State.returnedCount, htx]
  · rw [exec_emt_done he hp] at hx
    cases hx
    exact frame_answered s

/-- Settles O33: each port is its register, and the codes are those of R21 to R23. -/
theorem outputsShowRegisters : Obligations.OutputsShowRegisters := by
  unfold Obligations.OutputsShowRegisters
  exact ⟨fun s => ⟨rfl, rfl, rfl, rfl, rfl, rfl, rfl, rfl, fun hv => if_pos hv⟩, by decide, by decide, by decide⟩

end Sys2Proof.Proofs
end

section
/-! PROOF. What each command leaves unchanged, command by command, and which commands write which register
(`10_state.md` R14, R20, R27 to R30, `20_memory.md` R48). -/

namespace Sys2Proof.Proofs

open Sys2Proof.Machine

/-! ### A command that has no effect of its own -/

/-- R59, R113: it writes the three latch registers at most. -/
theorem enterError_of_noEffect {i : Instr} {ps : List Phase} {s t : State} (h : Laws.NoEffect i ps s t) :
    ∃ e sub c, t = enterError e sub c s := by
  obtain ⟨-, rfl⟩ | ⟨-, -, rfl⟩ := h
  · exact ⟨t.err, t.esub, t.ecmd, rfl⟩
  · exact ⟨_, _, _, rfl⟩

/-- R112: every error but the failed hand-off writes the three latch registers alone. -/
theorem exec_load_cases {f : Field} {v : Nat} {s t : State} (hx : exec (f.load v) s = .next t) :
    (∃ e sub c, t = enterError e sub c s) ∨ (s.err = .none ∧ s.ph = .idle ∧ t = s.writeField f v) := by
  rw [Laws.exec_load] at hx
  obtain hn | ⟨he, hp, ⟨-, rfl⟩ | ⟨-, rfl⟩⟩ := Laws.loadField_eq_next hx
  · exact .inl (enterError_of_noEffect hn)
  · exact .inl ⟨_, _, _, rfl⟩
  · exact .inr ⟨he, hp, rfl⟩

theorem exec_apb_cases {v : Nat} {s t : State} (hx : exec (.apb v) s = .next t) :
    (∃ e sub c, t = enterError e sub c s) ∨ (s.err = .none ∧ t = Laws.appended v s) := by
  obtain hn | ⟨he, -, ⟨-, rfl⟩ | ⟨-, -, rfl⟩ | ⟨-, -, rfl⟩⟩ := Laws.execApb_eq_next hx
  · exact .inl (enterError_of_noEffect hn)
  · exact .inl ⟨_, _, _, rfl⟩
  · exact .inl ⟨_, _, _, rfl⟩
  · exact .inr ⟨he, rfl⟩

/-! ### The commands that store no byte -/

theorem readByte_writeField (s : State) (f : Field) (v : Nat) (sp : Space) (a : Nat) :
    (s.writeField f v).readByte sp a = s.readByte sp a := by
  cases f <;> rfl

/-- The frame of a load, whether it loads or is refused. -/
theorem load_frame (s : State) (f : Field) (v : Nat) :
    { s.writeField f v with
      dstMac := s.dstMac, srcMac := s.srcMac, etherType := s.etherType, version := s.version, ident := s.ident,
      flags := s.flags, fragOff := s.fragOff, ttl := s.ttl, proto := s.proto, srcAddr := s.srcAddr,
      dstAddr := s.dstAddr, err := s.err, esub := s.esub, ecmd := s.ecmd } = s := by
  cases f <;> rfl

/-- Settles O41: a refusal is one `enterError`, and past it each command is one update of its own registers. -/
theorem registerCommandsFrame : Obligations.RegisterCommandsFrame := by
  unfold Obligations.RegisterCommandsFrame
  refine ⟨fun f v s t hx => ?_, fun s t hx => ?_, fun s t hx => ?_⟩
  · obtain ⟨e, sub, c, rfl⟩ | ⟨-, -, rfl⟩ := exec_load_cases hx
    · exact ⟨fun _ _ => rfl, fun _ _ => rfl, fun _ => rfl, rfl⟩
    · exact ⟨fun g hg => Laws.readField_writeField_other s f g v hg, readByte_writeField s f v,
        fun hne => absurd (Laws.writeField_err s f v) hne, load_frame s f v⟩
  · obtain hn | ⟨-, -, S, -, rfl⟩ := Laws.execCks_eq_next hx
    · obtain ⟨e, sub, c, rfl⟩ := enterError_of_noEffect hn
      exact ⟨fun _ _ => rfl, fun _ => ⟨rfl, rfl, rfl⟩, rfl⟩
    · exact ⟨fun _ _ => rfl, fun hne => absurd rfl hne, rfl⟩
  · obtain hn | ⟨he, -, ⟨-, -, rfl⟩ | ⟨-, rfl⟩⟩ := Laws.execEmt_eq_next hx
    · obtain ⟨e, sub, c, rfl⟩ := enterError_of_noEffect hn
      exact ⟨fun _ _ => rfl, fun _ => ⟨rfl, rfl⟩, rfl⟩
    · exact ⟨fun _ _ => rfl, fun hill => absurd (he.symm.trans hill) nofun, rfl⟩
    · exact ⟨fun _ _ => rfl, nofun, rfl⟩

/-! ### The commands that store -/

/-- Settles O42: a refusal is one `enterError`; past it no error is latched, and each command stores the bytes at its own
offsets. -/
theorem storingCommandsFrame : Obligations.StoringCommandsFrame := by
  unfold Obligations.StoringCommandsFrame
  refine ⟨fun s t hx => ?_, fun v s t hx => ?_, fun s t hx => ?_, fun s t hx => ?_⟩
  · obtain hn | ⟨he, -, -, rfl⟩ := Laws.execBld_eq_next hx
    · obtain ⟨e, sub, c, rfl⟩ := enterError_of_noEffect hn
      exact ⟨fun _ _ => rfl, fun _ _ => rfl, fun _ => ⟨rfl, rfl, rfl, rfl⟩, rfl⟩
    · exact ⟨fun a ha => read_eth_built_above ha, fun a ha => read_buf_built_above ha, fun hne => absurd he hne, rfl⟩
  · obtain ⟨e, sub, c, rfl⟩ | ⟨he, rfl⟩ := exec_apb_cases hx
    · exact ⟨fun _ _ => rfl, fun _ => ⟨rfl, rfl⟩, rfl⟩
    · refine ⟨fun a ha => Laws.read_write_other _ _ _ _ ?_, fun hne => absurd he hne, rfl⟩
      rw [appendOffset] at ha
      omega
  · obtain hn | ⟨he, -, rfl⟩ := Laws.execPln_eq_next hx
    · obtain ⟨e, sub, c, rfl⟩ := enterError_of_noEffect hn
      exact ⟨fun _ _ => rfl, fun _ => ⟨rfl, rfl⟩, rfl⟩
    · exact ⟨fun a ha => read_writeBytes_two ha, fun hne => absurd he hne, rfl⟩
  · obtain hn | ⟨he, -, rfl⟩ := Laws.execPck_eq_next hx
    · obtain ⟨e, sub, c, rfl⟩ := enterError_of_noEffect hn
      exact ⟨fun _ _ => rfl, fun _ => ⟨rfl, rfl⟩, rfl⟩
    · exact ⟨fun a ha => read_writeBytes_two ha, fun hne => absurd he hne, rfl⟩

end Sys2Proof.Proofs
end

section
/-! PROOF. What one command can do, over all commands at once, and the properties of every command that follow from it:
the phase transitions (`10_state.md` R21), the writers of each register (R14, R20, R27 to R30), that control does not
depend on data (`43_control.md` R133), and the canonical form of the memories. -/

namespace Sys2Proof.Proofs

open Sys2Proof.Machine

/-! ### What one command can do -/

/-- The states a command can lead to, each with the conditions of R60 under which it does. -/
inductive Effect (i : Instr) (s : State) : State → Prop where
  | cleared (hi : i = .clr) : Effect i s (resetBlock s)
  | latched (hi : i ≠ .clr) (he : s.err ≠ .none) : Effect i s s
  | refused (he : s.err = .none) (ha : s.ph.admits i = false) :
      Effect i s (enterError .illegalCommand .phase i.commandByte s)
  | full (he : s.err = .none) (ha : s.ph.admits i = true) (hf : i.format = .V)
      (hfull : s.hlen.toNat = s.params.hdrCap) : Effect i s (enterError .illegalCommand .capacity i.commandByte s)
  | tooWide (w : Nat) (he : s.err = .none) (ha : s.ph.admits i = true)
      (hroom : i.format = .V → s.hlen.toNat ≠ s.params.hdrCap) (hw : i.operandWidth = some w) (hv : 2 ^ w ≤ i.operand) :
      Effect i s (enterError .invalidFieldWidth .none i.commandByte s)
  | loaded (f : Field) (v : Nat) (hi : i = f.load v) (he : s.err = .none) (hp : s.ph = .idle) (hv : v < 2 ^ f.width) :
      Effect i s (s.writeField f v)
  | built (hi : i = .bld) (he : s.err = .none) (hp : s.ph = .idle) (hc : 20 ≤ s.params.hdrCap) :
      Effect i s (Laws.built s)
  | appended (v : Nat) (hi : i = .apb v) (he : s.err = .none) (hp : s.ph = .built)
      (hc : s.hlen.toNat < s.params.hdrCap) (hv : v < 2 ^ 8) : Effect i s (Laws.appended v s)
  | lengthPatched (hi : i = .pln) (he : s.err = .none) (hp : s.ph = .built) : Effect i s (Laws.lengthPatched s)
  | checksummed (S : Nat) (hi : i = .cks) (he : s.err = .none) (hp : s.ph = .lenp ∨ s.ph = .done) :
      Effect i s (Laws.checksummed S s)
  | checksumPatched (hi : i = .pck) (he : s.err = .none) (hp : s.ph = .summed) : Effect i s (Laws.checksumPatched s)
  | handedOver (hi : i = .emt) (he : s.err = .none) (hp : s.ph = .done) : Effect i s (answered s)

theorem effect_of_noEffect {i : Instr} {s t : State} (hi : i ≠ .clr)
    (hn : Laws.NoEffect i (admittingPhases i) s t) : Effect i s t := by
  obtain ⟨he, rfl⟩ | ⟨he, hp, rfl⟩ := hn
  · exact .latched hi he
  · exact .refused he (Bool.eq_false_iff.2 (mt (mem_admittingPhases _ _).2 hp))

/-- A command that answers a next state has one of these effects. -/
theorem effect_of_exec {i : Instr} {s t : State} (hx : exec i s = .next t) : Effect i s t := by
  obtain ⟨f, v, rfl⟩ | rfl | ⟨v, rfl⟩ | rfl | rfl | rfl | rfl | rfl := Laws.instr_cases i
  · -- the eleven loads
    rw [Laws.exec_load] at hx
    have hi : f.load v ≠ .clr := by cases f <;> nofun
    have hroom : (f.load v).format = .V → s.hlen.toNat ≠ s.params.hdrCap := by simp [format_load]
    obtain hn | ⟨he, hp, ⟨hv, rfl⟩ | ⟨hv, rfl⟩⟩ := Laws.loadField_eq_next hx
    · exact effect_of_noEffect hi (by rwa [admittingPhases_load])
    · exact .tooWide f.width he ((admits_load_iff _ f v).2 hp) hroom (operandWidth_load f v) (by rwa [operand_load])
    · exact .loaded f v rfl he hp hv
  · -- `BLD`
    obtain hn | ⟨he, hp, hc, rfl⟩ := Laws.execBld_eq_next hx
    · exact effect_of_noEffect nofun hn
    · exact .built rfl he hp hc
  · -- `APB`
    obtain hn | ⟨he, hp, ⟨hfull, rfl⟩ | ⟨hroom, hv, rfl⟩ | ⟨hc, hv, rfl⟩⟩ := Laws.execApb_eq_next hx
    · exact effect_of_noEffect nofun hn
    · exact .full he ((admits_apb_iff _ v).2 hp) rfl hfull
    · exact .tooWide 8 he ((admits_apb_iff _ v).2 hp) (fun _ => hroom) rfl hv
    · exact .appended v rfl he hp hc hv
  · -- `PLN`
    obtain hn | ⟨he, hp, rfl⟩ := Laws.execPln_eq_next hx
    · exact effect_of_noEffect nofun hn
    · exact .lengthPatched rfl he hp
  · -- `CKS`
    obtain hn | ⟨he, hp, S, -, rfl⟩ := Laws.execCks_eq_next hx
    · exact effect_of_noEffect nofun hn
    · exact .checksummed S rfl he hp
  · -- `PCK`
    obtain hn | ⟨he, hp, rfl⟩ := Laws.execPck_eq_next hx
    · exact effect_of_noEffect nofun hn
    · exact .checksumPatched rfl he hp
  · -- `EMT`
    obtain hn | ⟨he, hp, -⟩ := Laws.execEmt_eq_next hx
    · exact effect_of_noEffect nofun hn
    · rw [exec_emt_done he hp] at hx
      cases hx
      exact .handedOver rfl he hp
  · -- `CLR`
    cases hx
    exact .cleared rfl

/-! ### The phase transitions -/

/-- R21: the phase an admitted command leads to. -/
def nextPhase (p : Phase) : Instr → Phase
  | .bld => .built
  | .pln => .lenp
  | .cks => if p = .lenp then .summed else p
  | .pck => .done
  | .emt => .sent
  | .clr => .idle
  | _ => p

theorem nextPhase_load (p : Phase) (f : Field) (v : Nat) : nextPhase p (f.load v) = p := by
  cases f <;> rfl

theorem nextPhase_of_operandWidth {p : Phase} {i : Instr} {w : Nat} (hw : i.operandWidth = some w) :
    nextPhase p i = p := by
  obtain ⟨f, v, rfl⟩ | rfl | ⟨v, rfl⟩ | rfl | rfl | rfl | rfl | rfl := Laws.instr_cases i
  · exact nextPhase_load p f v
  · cases hw
  · rfl
  all_goals cases hw

/-- The phase of an admitted command's next state, also where the command raises an error. -/
theorem ph_of_exec {i : Instr} {s t : State} (he : s.err = .none) (ha : s.ph.admits i = true)
    (hx : exec i s = .next t) : t.ph = nextPhase s.ph i := by
  cases effect_of_exec hx with
  | cleared hi => subst hi; rfl
  | latched _ hne => exact absurd he hne
  | refused _ hr => exact absurd ha (Bool.eq_false_iff.1 hr)
  | full _ _ hf _ => obtain ⟨v, rfl⟩ := eq_apb_of_format hf; rfl
  | tooWide w _ _ _ hw _ => exact (nextPhase_of_operandWidth hw).symm
  | loaded f v hi _ _ _ => rw [hi, nextPhase_load, Laws.writeField_ph]
  | built hi _ _ _ => subst hi; rfl
  | appended v hi _ _ _ _ => subst hi; rfl
  | lengthPatched hi _ _ => subst hi; rfl
  | checksummed S hi _ _ => subst hi; rfl
  | checksumPatched hi _ _ => subst hi; rfl
  | handedOver hi _ _ => subst hi; exact (answered_packet s).1

/-- The arrows of R21, and no others. -/
def Transition (p : Phase) (i : Instr) (q : Phase) : Prop :=
  (p = .idle ∧ i = .bld ∧ q = .built) ∨ (p = .built ∧ i = .pln ∧ q = .lenp) ∨ (p = .lenp ∧ i = .cks ∧ q = .summed) ∨
    (p = .summed ∧ i = .pck ∧ q = .done) ∨ (p = .done ∧ i = .emt ∧ q = .sent)

/-- R21: an admitted command stays, clears, or takes an arrow. -/
theorem nextPhase_cases {p : Phase} {i : Instr} (ha : p.admits i = true) :
    nextPhase p i = p ∨ (i = .clr ∧ nextPhase p i = .idle) ∨ Transition p i (nextPhase p i) := by
  unfold Transition
  obtain ⟨f, v, rfl⟩ | rfl | ⟨v, rfl⟩ | rfl | rfl | rfl | rfl | rfl := Laws.instr_cases i
  · exact .inl (nextPhase_load p f v)
  · exact .inr (.inr (.inl ⟨(admits_bld_iff p).1 ha, rfl, rfl⟩))
  · exact .inl rfl
  · exact .inr (.inr (.inr (.inl ⟨(admits_pln_iff p).1 ha, rfl, rfl⟩)))
  · obtain rfl | rfl := (admits_cks_iff p).1 ha
    · exact .inr (.inr (.inr (.inr (.inl ⟨rfl, rfl, rfl⟩))))
    · exact .inl rfl
  · exact .inr (.inr (.inr (.inr (.inr (.inl ⟨(admits_pck_iff p).1 ha, rfl, rfl⟩)))))
  · exact .inr (.inr (.inr (.inr (.inr (.inr ⟨(admits_emt_iff p).1 ha, rfl, rfl⟩)))))
  · exact .inr (.inl ⟨rfl, rfl⟩)

/-- R21: no command changes the phase in any other way. -/
theorem ph_of_exec_cases {i : Instr} {s t : State} (hx : exec i s = .next t) :
    t.ph = s.ph ∨ (i = .clr ∧ t.ph = .idle) ∨ (s.err = .none ∧ Transition s.ph i t.ph) := by
  by_cases hi : i = .clr
  · subst hi
    cases hx
    exact .inr (.inl ⟨rfl, rfl⟩)
  by_cases he : s.err = .none
  · by_cases ha : s.ph.admits i = true
    · rw [ph_of_exec he ha hx]
      exact (nextPhase_cases ha).imp_right (Or.imp_right fun h => ⟨he, h⟩)
    · rw [exec_refused he (Bool.eq_false_iff.2 ha)] at hx
      cases hx
      exact .inl rfl
  · rw [exec_latched he hi] at hx
    cases hx
    exact .inl rfl

/-- Settles O35: a command that is not admitted is refused, and an admitted one leads to `nextPhase`. -/
theorem phaseTransitions : Obligations.PhaseTransitions := by
  unfold Obligations.PhaseTransitions
  refine fun s t i => ⟨exec_refused, ph_of_exec_cases, fun he ha hx => ?_⟩
  rw [ph_of_exec he ha hx]
  refine ⟨?_, ?_, ?_, ?_, ?_, ?_, ?_, fun hL => ?_, fun hV => ?_⟩
  · rintro rfl; rfl
  · rintro rfl; rfl
  · rintro rfl hp; exact if_pos hp
  · rintro rfl hp; rw [hp]; rfl
  · rintro rfl; rfl
  · rintro rfl; rfl
  · rintro rfl; rfl
  · obtain ⟨f, v, rfl⟩ := (Laws.format_L_iff i).1 hL
    rw [nextPhase_load, (admits_load_iff _ f v).1 ha]
  · obtain ⟨v, rfl⟩ := eq_apb_of_format hV
    exact (admits_apb_iff _ v).1 ha

/-! ### The writers of each register -/

/-- The registers and byte spaces whose writers the spec lists; the latch is apart, since any command may write it. -/
inductive Register where
  | field (f : Field)
  | ph
  | hlen
  | frameValid
  | checksum
  | eth
  | buf

/-- The register holds what it held. -/
def Register.Unchanged (s t : State) : Register → Prop
  | .field f => t.readField f = s.readField f
  | .ph => t.ph = s.ph
  | .hlen => t.hlen = s.hlen
  | .frameValid => t.frameValid = s.frameValid
  | .checksum => t.acc = s.acc ∧ t.ck = s.ck
  | .eth => t.eth = s.eth
  | .buf => t.buf = s.buf

/-- The writers beside `CLR` (R14, R20, R27 to R30). -/
def Register.WrittenBy (i : Instr) : Register → Prop
  | .field f => ∃ v, i = f.load v
  | .ph => i = .bld ∨ i = .pln ∨ i = .cks ∨ i = .pck ∨ i = .emt
  | .hlen => i = .bld ∨ ∃ v, i = .apb v
  | .frameValid => i = .emt
  | .checksum => i = .cks
  | .eth => i = .bld
  | .buf => (i = .bld ∨ i = .pln ∨ i = .pck) ∨ ∃ v, i = .apb v

theorem unchanged_enterError (e : ErrCode) (sub : SubCause) (c : Byte) (s : State) (r : Register) :
    r.Unchanged s (enterError e sub c s) := by
  cases r with
  | checksum => exact ⟨rfl, rfl⟩
  | _ => rfl

theorem unchanged_writeField {s : State} {f : Field} {v : Nat} {r : Register} (hr : r ≠ .field f) :
    r.Unchanged s (s.writeField f v) := by
  cases r with
  | field g => exact Laws.readField_writeField_other s f g v fun hg => hr (hg ▸ rfl)
  | checksum => exact ⟨Laws.writeField_acc s f v, Laws.writeField_ck s f v⟩
  | ph => exact Laws.writeField_ph s f v
  | hlen => exact Laws.writeField_hlen s f v
  | frameValid => exact Laws.writeField_frameValid s f v
  | eth => exact Laws.writeField_eth s f v
  | buf => exact Laws.writeField_buf s f v

theorem readField_answered (s : State) (f : Field) : (answered s).readField f = s.readField f := by
  unfold answered
  split <;> rfl

theorem checksum_answered (s : State) : (answered s).acc = s.acc ∧ (answered s).ck = s.ck := by
  unfold answered
  split <;> exact ⟨rfl, rfl⟩

/-- What a command does not write stays as it was. -/
theorem unchanged_of_exec {i : Instr} {s t : State} {r : Register} (hx : exec i s = .next t) (hi : i ≠ .clr)
    (hr : ¬ r.WrittenBy i) : r.Unchanged s t := by
  cases effect_of_exec hx with
  | cleared hclr => exact absurd hclr hi
  | latched => exact unchanged_enterError s.err s.esub s.ecmd s r
  | refused => exact unchanged_enterError _ _ _ s r
  | full => exact unchanged_enterError _ _ _ s r
  | tooWide => exact unchanged_enterError _ _ _ s r
  | loaded f v hi =>
    refine unchanged_writeField ?_
    rintro rfl
    exact hr ⟨v, hi⟩
  | built hi =>
    cases r with
    | ph => exact absurd (.inl hi) hr
    | hlen => exact absurd (.inl hi) hr
    | eth => exact absurd hi hr
    | buf => exact absurd (.inl (.inl hi)) hr
    | checksum => exact ⟨rfl, rfl⟩
    | field | frameValid => rfl
  | appended v hi =>
    cases r with
    | hlen => exact absurd (.inr ⟨v, hi⟩) hr
    | buf => exact absurd (.inr ⟨v, hi⟩) hr
    | checksum => exact ⟨rfl, rfl⟩
    | field | ph | frameValid | eth => rfl
  | lengthPatched hi =>
    cases r with
    | ph => exact absurd (.inr (.inl hi)) hr
    | buf => exact absurd (.inl (.inr (.inl hi))) hr
    | checksum => exact ⟨rfl, rfl⟩
    | field | hlen | frameValid | eth => rfl
  | checksummed S hi =>
    cases r with
    | ph => exact absurd (.inr (.inr (.inl hi))) hr
    | checksum => exact absurd hi hr
    | field | hlen | frameValid | eth | buf => rfl
  | checksumPatched hi =>
    cases r with
    | ph => exact absurd (.inr (.inr (.inr (.inl hi)))) hr
    | buf => exact absurd (.inl (.inr (.inr hi))) hr
    | checksum => exact ⟨rfl, rfl⟩
    | field | hlen | frameValid | eth => rfl
  | handedOver hi =>
    obtain ⟨-, -, hhlen, heth, hbuf⟩ := answered_packet s
    cases r with
    | ph => exact absurd (.inr (.inr (.inr (.inr hi)))) hr
    | frameValid => exact absurd hi hr
    | field f => exact readField_answered s f
    | hlen => exact hhlen
    | checksum => exact checksum_answered s
    | eth => exact heth
    | buf => exact hbuf

/-- R13: no command writes the arguments of a step. -/
theorem arguments_of_exec {i : Instr} {s t : State} (hx : exec i s = .next t) :
    t.params = s.params ∧ t.inputs = s.inputs := by
  cases effect_of_exec hx with
  | loaded f v => exact ⟨Laws.writeField_params s f v, Laws.writeField_inputs s f v⟩
  | handedOver =>
    unfold answered
    split <;> exact ⟨rfl, rfl⟩
  | _ => exact ⟨rfl, rfl⟩

/-- R66: what a presented word does is a rejection, which changes the latch at most, or one command. -/
theorem step_presents_cases {s s' t : State} {c : CmdWord} (hp : s.Presents c s') (hx : step s = .next t) :
    (∃ e sub b, t = enterError e sub b s') ∨ ∃ i, decode c = .ok i ∧ exec i s' = .next t := by
  cases hd : decode c with
  | error e =>
    rw [step_of_decode_error hp hd] at hx
    cases hx
    by_cases he : s'.err = .none
    · exact .inl ⟨_, _, _, Laws.rejectReserved_clear c s' he⟩
    · exact .inl ⟨s'.err, s'.esub, s'.ecmd, Laws.rejectReserved_latched c s' he⟩
  | ok i =>
    rw [step_of_decode_ok hp hd] at hx
    exact .inr ⟨i, rfl, hx⟩

theorem unchanged_of_presents {s s' t : State} {c : CmdWord} (hp : s.Presents c s') (r : Register) :
    r.Unchanged s' t ↔ r.Unchanged s t := by
  obtain ⟨p, rest, -, -, -, -, rfl⟩ := hp
  cases r <;> rfl

/-- A register that a presented word changes is one that the word's command writes. -/
theorem writer_of_changed {s s' t : State} {c : CmdWord} {r : Register} (hp : s.Presents c s') (hx : step s = .next t)
    (hr : ¬ r.Unchanged s t) : ∃ i, decode c = .ok i ∧ exec i s' = .next t ∧ (i = .clr ∨ r.WrittenBy i) := by
  rw [← unchanged_of_presents hp] at hr
  obtain ⟨e, sub, b, rfl⟩ | ⟨i, hd, hx⟩ := step_presents_cases hp hx
  · exact absurd (unchanged_enterError e sub b s' r) hr
  · refine ⟨i, hd, hx, ?_⟩
    by_contra hnot
    obtain ⟨hi, hw⟩ := not_or.1 hnot
    exact hr (unchanged_of_exec hx hi hw)

/-- R14: a field register is only loaded in IDLE, with no error latched. -/
theorem loader_of_changed {s s' t : State} {c : CmdWord} {f : Field} (hp : s.Presents c s') (hx : step s = .next t)
    (hr : t.readField f ≠ s.readField f) :
    decode c = .ok .clr ∨ (s.ph = .idle ∧ s.err = .none ∧ ∃ v, decode c = .ok (f.load v)) := by
  obtain ⟨i, hd, hx, rfl | ⟨v, rfl⟩⟩ := writer_of_changed (r := .field f) hp hx hr
  · exact .inl hd
  · have hchanged : ¬ (Register.field f).Unchanged s' t := mt (unchanged_of_presents hp (.field f)).1 hr
    obtain ⟨e, sub, b, rfl⟩ | ⟨he, hidle, -⟩ := exec_load_cases hx
    · exact absurd (unchanged_enterError e sub b s' (.field f)) hchanged
    · obtain ⟨p, rest, -, -, -, -, rfl⟩ := hp
      exact .inr ⟨hidle, he, v, hd⟩

/-- R20, R113: a latched error is only taken back by `CLR`. -/
theorem latch_of_presents {s s' t : State} {c : CmdWord} (hp : s.Presents c s') (hx : step s = .next t)
    (he : s.err ≠ .none) (hd : decode c ≠ .ok .clr) : t.err = s.err ∧ t.esub = s.esub ∧ t.ecmd = s.ecmd := by
  have hbyte : cmdByte c ≠ 0x80#8 := fun hb => hd (decode_eq_ok hb.symm (absurd rfl))
  rw [step_latched hp (by rwa [err_of_presents hp]) hbyte] at hx
  cases hx
  obtain ⟨p, rest, -, -, -, -, rfl⟩ := hp
  exact ⟨rfl, rfl, rfl⟩

theorem arguments_of_presents {s s' t : State} {c : CmdWord} (hp : s.Presents c s') (hx : step s = .next t) :
    t.params = s.params ∧ t.inputs = s'.inputs := by
  have hparams : s'.params = s.params := by
    obtain ⟨p, rest, -, -, -, -, rfl⟩ := hp
    rfl
  rw [← hparams]
  obtain ⟨e, sub, b, rfl⟩ | ⟨i, -, hx⟩ := step_presents_cases hp hx
  · exact ⟨rfl, rfl⟩
  · exact arguments_of_exec hx

/-- Settles O43: the writers of each register, read off `Register.WrittenBy`. -/
theorem writersOfEachRegister : Obligations.WritersOfEachRegister := by
  unfold Obligations.WritersOfEachRegister
  intro s s' t c hp hx
  refine ⟨fun f hr => loader_of_changed hp hx hr, fun hr => ?_, fun hr => ?_, fun hr => ?_, fun hr => ?_, fun hr => ?_,
    fun hr => ?_, fun hr => ?_, arguments_of_presents hp hx⟩
  · -- `PH`
    obtain ⟨i, hd, -, hw⟩ := writer_of_changed (r := .ph) hp hx hr
    refine ⟨i, ?_, hd⟩
    obtain rfl | rfl | rfl | rfl | rfl | rfl := hw <;> decide
  · -- the latch
    by_contra hnot
    obtain ⟨hd, he⟩ := not_or.1 hnot
    obtain ⟨herr, hesub, hecmd⟩ := latch_of_presents hp hx he hd
    obtain hr | hr | hr := hr
    · exact hr herr
    · exact hr hesub
    · exact hr hecmd
  · -- `HLEN`
    obtain ⟨i, hd, -, rfl | rfl | ⟨v, rfl⟩⟩ := writer_of_changed (r := .hlen) hp hx hr
    · exact .inr (.inr hd)
    · exact .inl hd
    · exact .inr (.inl ⟨v, hd⟩)
  · -- `FRAME_VALID`
    obtain ⟨i, hd, -, rfl | rfl⟩ := writer_of_changed (r := .frameValid) hp hx hr
    · exact .inr hd
    · exact .inl hd
  · -- `ACC` and `CK`
    obtain ⟨i, hd, -, rfl | rfl⟩ := writer_of_changed (r := .checksum) hp hx (not_and_or.2 hr)
    · exact .inr hd
    · exact .inl hd
  · -- `ETH`
    obtain ⟨i, hd, -, rfl | rfl⟩ := writer_of_changed (r := .eth) hp hx hr
    · exact .inr hd
    · exact .inl hd
  · -- `BUF`
    obtain ⟨i, hd, -, hi | hi | ⟨v, rfl⟩⟩ := writer_of_changed (r := .buf) hp hx hr
    · exact .inl ⟨i, by simp [hi], hd⟩
    · exact .inl ⟨i, by obtain rfl | rfl | rfl := hi <;> decide, hd⟩
    · exact .inr ⟨v, hd⟩

/-! ### Control does not depend on data -/

/-- R133: the control registers and the arguments a command can read are the same. -/
structure SameControl (s t : State) : Prop where
  ph : s.ph = t.ph
  err : s.err = t.err
  esub : s.esub = t.esub
  ecmd : s.ecmd = t.ecmd
  hlen : s.hlen = t.hlen
  frameValid : s.frameValid = t.frameValid
  params : s.params = t.params
  tx : s.tx = t.tx

theorem SameControl.enterError {s₁ s₂ : State} (h : SameControl s₁ s₂) (e : ErrCode) (sub : SubCause) (c : Byte) :
    SameControl (enterError e sub c s₁) (enterError e sub c s₂) :=
  { h with err := rfl, esub := rfl, ecmd := rfl }

theorem SameControl.resetBlock {s₁ s₂ : State} (h : SameControl s₁ s₂) :
    SameControl (resetBlock s₁) (resetBlock s₂) :=
  ⟨rfl, rfl, rfl, rfl, rfl, rfl, h.params, h.tx⟩

theorem SameControl.writeField {s₁ s₂ : State} (h : SameControl s₁ s₂) (f : Field) (v : Nat) :
    SameControl (s₁.writeField f v) (s₂.writeField f v) := by
  cases f <;> exact { h with }

theorem SameControl.answered {s₁ s₂ : State} (h : SameControl s₁ s₂) : SameControl (answered s₁) (answered s₂) := by
  have hout : SameControl (Laws.handedOff s₁) (Laws.handedOff s₂) := { h with ph := rfl, frameValid := rfl }
  cases htx : s₂.tx with
  | sent n =>
    rw [answered_sent (h.tx.trans htx), answered_sent htx]
    exact hout
  | fail =>
    rw [answered_fail (h.tx.trans htx), answered_fail htx]
    exact hout.enterError _ _ _

/-- R133 for one command: the conditions of every effect are conditions on the control registers. -/
theorem SameControl.exec {i : Instr} {s₁ s₂ t₁ t₂ : State} (h : SameControl s₁ s₂) (hx₁ : exec i s₁ = .next t₁)
    (hx₂ : exec i s₂ = .next t₂) : SameControl t₁ t₂ := by
  have herr := h.err
  have hph := h.ph
  have hhlen := h.hlen
  have hparams := h.params
  cases effect_of_exec hx₁ with
  | cleared hi =>
    subst hi
    cases hx₂
    exact h.resetBlock
  | latched hi he =>
    rw [exec_latched (herr ▸ he) hi] at hx₂
    cases hx₂
    exact h
  | refused he ha =>
    rw [exec_refused (herr ▸ he) (hph ▸ ha)] at hx₂
    cases hx₂
    exact h.enterError _ _ _
  | full he ha hf hfull =>
    rw [exec_full (herr ▸ he) (hph ▸ ha) hf (hhlen ▸ hparams ▸ hfull)] at hx₂
    cases hx₂
    exact h.enterError _ _ _
  | tooWide w he ha hroom hw hv =>
    rw [exec_tooWide (herr ▸ he) (hph ▸ ha) (hhlen ▸ hparams ▸ hroom) hw hv] at hx₂
    cases hx₂
    exact h.enterError _ _ _
  | loaded f v hi he hp hv =>
    rw [hi, exec_load_fits (herr ▸ he) (hph ▸ hp) hv] at hx₂
    cases hx₂
    exact h.writeField f v
  | built hi he hp hc =>
    rw [hi, Laws.execBld_admitted s₂ (herr ▸ he) (hph ▸ hp) (hparams ▸ hc)] at hx₂
    cases hx₂
    exact { h with ph := rfl, hlen := rfl }
  | appended v hi he hp hc hv =>
    rw [hi, Laws.execApb_admitted v s₂ (herr ▸ he) (hph ▸ hp) (hhlen ▸ hparams ▸ hc) hv] at hx₂
    cases hx₂
    exact { h with hlen := congrArg (· + 1#16) hhlen }
  | lengthPatched hi he hp =>
    subst hi
    obtain hn | ⟨-, -, rfl⟩ := Laws.execPln_eq_next hx₂
    · exact absurd ((admits_pln_iff _).2 (hph ▸ hp)) (Bool.eq_false_iff.1 (not_admits_of_noEffect (herr ▸ he) hn))
    · exact { h with ph := rfl }
  | checksummed S hi he hp =>
    subst hi
    obtain ⟨S₂, -, rfl⟩ := checksummed_of_exec (herr ▸ he) (hph ▸ hp) hx₂
    exact { h with ph := by rw [Laws.checksummed_ph, Laws.checksummed_ph, hph] }
  | checksumPatched hi he hp =>
    subst hi
    obtain hn | ⟨-, -, rfl⟩ := Laws.execPck_eq_next hx₂
    · exact absurd ((admits_pck_iff _).2 (hph ▸ hp)) (Bool.eq_false_iff.1 (not_admits_of_noEffect (herr ▸ he) hn))
    · exact { h with ph := rfl }
  | handedOver hi he hp =>
    rw [hi, exec_emt_done (herr ▸ he) (hph ▸ hp)] at hx₂
    cases hx₂
    exact h.answered

theorem SameControl.rejectReserved {s₁ s₂ : State} (h : SameControl s₁ s₂) (c : CmdWord) :
    SameControl (rejectReserved c s₁) (rejectReserved c s₂) := by
  by_cases he : s₁.err = .none
  · rw [Laws.rejectReserved_clear c s₁ he, Laws.rejectReserved_clear c s₂ (h.err ▸ he)]
    exact h.enterError _ _ _
  · rw [Laws.rejectReserved_latched c s₁ he, Laws.rejectReserved_latched c s₂ (h.err ▸ he)]
    exact h

theorem SameControl.runSample {p : PortSample} {s₁ s₂ t₁ t₂ : State} (h : SameControl s₁ s₂)
    (hx₁ : Machine.runSample Machine.exec p s₁ = .next t₁) (hx₂ : Machine.runSample Machine.exec p s₂ = .next t₂) :
    SameControl t₁ t₂ := by
  unfold Machine.runSample at hx₁ hx₂
  split_ifs at hx₁ hx₂
  · cases hx₁
    cases hx₂
    exact h.resetBlock
  · rw [runWord] at hx₁ hx₂
    cases hd : decode p.cmd with
    | ok i =>
      rw [hd] at hx₁ hx₂
      exact h.exec hx₁ hx₂
    | error e =>
      rw [hd] at hx₁ hx₂
      cases hx₁
      cases hx₂
      exact h.rejectReserved p.cmd
  · cases hx₁
    cases hx₂
    exact h

/-- Settles O44: with one list of inputs both states take the same sample, and then agree on all that control reads. -/
theorem controlIgnoresData : Obligations.ControlIgnoresData := by
  unfold Obligations.ControlIgnoresData
  intro s₁ s₂ t₁ t₂ hph herr hesub hecmd hhlen hvalid hparams hinputs hx₁ hx₂
  cases hin : s₂.inputs with
  | nil =>
    rw [Laws.step_nil s₁ (hinputs.trans hin)] at hx₁
    rw [Laws.step_nil s₂ hin] at hx₂
    cases hx₁
    cases hx₂
    exact ⟨hph, herr, hesub, hecmd, hhlen, hvalid⟩
  | cons p rest =>
    rw [Laws.step_cons s₁ p rest (hinputs.trans hin)] at hx₁
    rw [Laws.step_cons s₂ p rest hin] at hx₂
    have h : SameControl (takeSample p rest s₁) (takeSample p rest s₂) :=
      ⟨hph, herr, hesub, hecmd, hhlen, hvalid, hparams, rfl⟩
    have ht := h.runSample hx₁ hx₂
    exact ⟨ht.ph, ht.err, ht.esub, ht.ecmd, ht.hlen, ht.frameValid⟩

/-! ### The canonical form of the memories -/

/-- Both cell lists are in canonical form (log 5). -/
def CanonicalMemories (s : State) : Prop := Memory.wf s.eth = true ∧ Memory.wf s.buf = true

theorem canonical_exec {i : Instr} {s t : State} (h : CanonicalMemories s) (hx : exec i s = .next t) :
    CanonicalMemories t := by
  obtain ⟨heth, hbuf⟩ := h
  cases effect_of_exec hx with
  | cleared => exact Laws.reset_wf
  | latched | refused | full | tooWide => exact ⟨heth, hbuf⟩
  | loaded f v =>
    rw [CanonicalMemories, Laws.writeField_eth, Laws.writeField_buf]
    exact ⟨heth, hbuf⟩
  | built =>
    rw [CanonicalMemories, Laws.built_eth, Laws.built_buf]
    exact ⟨Laws.writeBytes_wf _ _ _ heth, Laws.writeBytes_wf _ _ _ hbuf⟩
  | appended v => exact ⟨heth, Laws.write_wf _ _ _ hbuf⟩
  | lengthPatched => exact ⟨heth, Laws.writeBytes_wf _ _ _ hbuf⟩
  | checksummed S => exact ⟨heth, hbuf⟩
  | checksumPatched => exact ⟨heth, Laws.writeBytes_wf _ _ _ hbuf⟩
  | handedOver =>
    obtain ⟨-, -, -, heth', hbuf'⟩ := answered_packet s
    rw [CanonicalMemories, heth', hbuf']
    exact ⟨heth, hbuf⟩

/-- Settles O47: every store keeps the offsets rising, and a reset empties both lists. -/
theorem stepKeepsMemoryCanonical : Obligations.StepKeepsMemoryCanonical := by
  unfold Obligations.StepKeepsMemoryCanonical
  intro s t heth hbuf hx
  obtain ⟨-, hs⟩ | ⟨p, rest, -, ⟨-, hs⟩ | ⟨-, -, hs⟩ | ⟨-, -, ⟨e, -, hs⟩ | ⟨i, -, hs⟩⟩⟩ := Laws.step_cases s <;>
    rw [hs] at hx
  · cases hx
    exact ⟨heth, hbuf⟩
  · cases hx
    exact Laws.reset_wf
  · cases hx
    exact ⟨heth, hbuf⟩
  · cases hx
    obtain ⟨-, -, heth', hbuf'⟩ := samePacket_rejectReserved p.cmd (takeSample p rest s)
    rw [heth', hbuf']
    exact ⟨heth, hbuf⟩
  · exact canonical_exec (s := takeSample p rest s) ⟨heth, hbuf⟩ hx

end Sys2Proof.Proofs
end

section
/-! PROOF. Where the model stops (`20_memory.md` R41, `93_implementation_defined.md` U8): `CKS` over a byte that holds
no value, and a store beyond the capacity of `BUF`. Neither happens in a state of the invariant. -/

namespace Sys2Proof.Proofs

open Sys2Proof.Machine

/-! ### A sum over a missing byte -/

theorem readBytes_eq_none {m : Memory} {a n k : Nat} (hk : k < n) (h : Memory.read m (a + k) = none) :
    Memory.readBytes m a n = none := by
  rw [Option.eq_none_iff_forall_ne_some]
  intro bs hbs
  obtain ⟨hl, hread⟩ := (Laws.readBytes_eq_some m a n bs).1 hbs
  cases h.symm.trans (hread k (hl ▸ hk))

/-- R43: a word needs each of its bytes. -/
theorem word_eq_none {m : Memory} {n a : Nat} (ha : a < n) (h : Memory.read m a = none) : word m n (a / 2) = none := by
  have hsplit : a = 2 * (a / 2) + a % 2 := (Nat.div_add_mod a 2).symm
  rw [hsplit] at h
  unfold word Memory.readValue
  split_ifs with htwo
  · rw [readBytes_eq_none (Nat.mod_lt a Nat.two_pos) h, Option.map_none]
  · have hlow : a % 2 = 0 := by omega
    rw [hlow] at h
    rw [readBytes_eq_none Nat.one_pos h, Option.map_none, Option.map_none]

theorem sumWords_eq_none {m : Memory} {n k i : Nat} (hi : i < k) (h : word m n i = none) : sumWords m n k = none := by
  induction k with
  | zero => exact absurd hi (Nat.not_lt_zero i)
  | succ k ih =>
    rw [sumWords_succ]
    obtain hlt | rfl := Nat.lt_succ_iff_lt_or_eq.1 hi
    · rw [ih hlt, Option.map₂_none_left]
    · rw [h, Option.map₂_none_right]

/-- R90, U8: the sum has no value exactly when a byte below the length has none. -/
theorem wordSum_eq_none_iff (m : Memory) (n : Nat) : wordSum m n = none ↔ ∃ a < n, Memory.read m a = none := by
  constructor
  · intro h
    by_contra hall
    obtain ⟨S, hS⟩ := exists_wordSum (m := m) (n := n) fun a ha =>
      Option.isSome_iff_ne_none.2 fun hnone => hall ⟨a, ha, hnone⟩
    cases h.symm.trans hS
  · rintro ⟨a, ha, hnone⟩
    exact sumWords_eq_none (by unfold wordCount; omega) (word_eq_none ha hnone)

/-! ### The stop of each command -/

theorem storeBytes_outside {sp : Space} {a : Nat} {bs : List Byte} {s : State} (h : s.spaceSize sp < a + bs.length) :
    storeBytes sp a bs s = .fault (.outsideSpace sp a) :=
  if_neg (Nat.not_le.2 h)

theorem memWrite_outside {sp : Space} {a n v : Nat} {s : State} (h : s.spaceSize sp < a + n) :
    memWrite sp a n v s = .fault (.outsideSpace sp a) :=
  storeBytes_outside (by simpa using h)

theorem execBld_outside {s : State} (he : s.err = .none) (hp : s.ph = .idle) (hc : s.params.hdrCap < 20) :
    exec .bld s = .fault (.outsideSpace .buf 0) := by
  show execBld s = _
  rw [execBld, Laws.whenAdmitted_admitted _ _ _ _ he (by simp [hp]), Laws.storeBytes_inside .eth 0 _ s (by simp),
    Laws.andThen_next, storeBytes_outside (by simpa using hc), Laws.andThen_fault]

theorem execApb_outside {s : State} {v : Nat} (he : s.err = .none) (hp : s.ph = .built) (hv : v < 2 ^ 8)
    (hc : s.params.hdrCap < s.hlen.toNat) : exec (.apb v) s = .fault (.outsideSpace .buf s.hlen.toNat) := by
  show execApb v s = _
  rw [execApb, Laws.whenAdmitted_admitted _ _ _ _ he (by simp [hp]), if_neg (Nat.ne_of_gt hc),
    Laws.whenFits_fits _ _ _ _ _ hv, storeBytes_outside (Nat.lt_succ_of_lt hc), Laws.andThen_fault,
    appendOffset]

theorem execPln_outside {s : State} (he : s.err = .none) (hp : s.ph = .built) (hc : s.params.hdrCap < 4) :
    exec .pln s = .fault (.outsideSpace .buf 2) := by
  show execPln s = _
  rw [execPln, Laws.whenAdmitted_admitted _ _ _ _ he (by simp [hp]), memWrite_outside hc, Laws.andThen_fault,
    totalLengthOffset]

theorem execPck_outside {s : State} (he : s.err = .none) (hp : s.ph = .summed) (hc : s.params.hdrCap < 12) :
    exec .pck s = .fault (.outsideSpace .buf 10) := by
  show execPck s = _
  rw [execPck, Laws.whenAdmitted_admitted _ _ _ _ he (by simp [hp]), memWrite_outside hc, Laws.andThen_fault,
    checksumOffset]

theorem execCks_unwritten {s : State} (he : s.err = .none) (hp : s.ph = .lenp ∨ s.ph = .done)
    (hS : wordSum s.buf s.hlen.toNat = none) : exec .cks s = .refused .unwrittenByte := by
  show execCks s = _
  rw [execCks, Laws.whenAdmitted_admitted _ _ _ _ he (by simpa using hp), hS]

/-! ### Everything a command can stop with -/

/-- The stops of the model, each with its cause; the last one needs a capacity that R7 does not allow. -/
inductive Stop (i : Instr) (s : State) : Result → Prop where
  | unwritten (hi : i = .cks) (hp : s.ph = .lenp ∨ s.ph = .done) (hS : wordSum s.buf s.hlen.toNat = none) :
      Stop i s (.refused .unwrittenByte)
  | beyondCapacity (v : Nat) (hi : i = .apb v) (hp : s.ph = .built) (hc : s.params.hdrCap < s.hlen.toNat) :
      Stop i s (.fault (.outsideSpace .buf s.hlen.toNat))
  | illegalCapacity (e : Fault) (hc : s.params.hdrCap < Config.ipHdrLen) : Stop i s (.fault e)

/-- An admitted command answers a next state or has one of the stops. -/
theorem exec_next_or_stop_of_admitted {i : Instr} {s : State} (he : s.err = .none) (ha : s.ph.admits i = true) :
    (∃ t, exec i s = .next t) ∨ Stop i s (exec i s) := by
  obtain ⟨f, v, rfl⟩ | rfl | ⟨v, rfl⟩ | rfl | rfl | rfl | rfl | rfl := Laws.instr_cases i
  · -- the eleven loads
    have hp := (admits_load_iff _ f v).1 ha
    by_cases hv : v < 2 ^ f.width
    · exact .inl ⟨_, exec_load_fits he hp hv⟩
    · exact .inl ⟨_, exec_load_tooWide he hp (Nat.not_lt.1 hv)⟩
  · -- `BLD`
    have hp := (admits_bld_iff _).1 ha
    by_cases hc : 20 ≤ s.params.hdrCap
    · exact .inl ⟨_, Laws.execBld_admitted s he hp hc⟩
    · rw [execBld_outside he hp (Nat.not_le.1 hc)]
      exact .inr (.illegalCapacity _ (Nat.not_le.1 hc))
  · -- `APB`
    have hp := (admits_apb_iff _ v).1 ha
    by_cases hfull : s.hlen.toNat = s.params.hdrCap
    · exact .inl ⟨_, exec_full he ha rfl hfull⟩
    by_cases hv : v < 2 ^ 8
    · obtain hc | hc := Nat.lt_or_gt_of_ne hfull
      · exact .inl ⟨_, Laws.execApb_admitted v s he hp hc hv⟩
      · rw [execApb_outside he hp hv hc]
        exact .inr (.beyondCapacity v rfl hp hc)
    · exact .inl ⟨_, exec_tooWide he ha (fun _ => hfull) rfl (Nat.not_lt.1 hv)⟩
  · -- `PLN`
    have hp := (admits_pln_iff _).1 ha
    by_cases hc : 4 ≤ s.params.hdrCap
    · exact .inl ⟨_, Laws.execPln_admitted s he hp hc⟩
    · rw [execPln_outside he hp (Nat.not_le.1 hc)]
      exact .inr (.illegalCapacity _ ((Nat.not_le.1 hc).trans (by decide)))
  · -- `CKS`
    have hp := (admits_cks_iff _).1 ha
    cases hS : wordSum s.buf s.hlen.toNat with
    | none =>
      rw [execCks_unwritten he hp hS]
      exact .inr (.unwritten rfl hp hS)
    | some S => exact .inl ⟨_, Laws.execCks_admitted s S he hp hS⟩
  · -- `PCK`
    have hp := (admits_pck_iff _).1 ha
    by_cases hc : 12 ≤ s.params.hdrCap
    · exact .inl ⟨_, Laws.execPck_admitted s he hp hc⟩
    · rw [execPck_outside he hp (Nat.not_le.1 hc)]
      exact .inr (.illegalCapacity _ ((Nat.not_le.1 hc).trans (by decide)))
  · -- `EMT`
    exact .inl ⟨_, exec_emt_done he ((admits_emt_iff _).1 ha)⟩
  · -- `CLR`
    exact .inl ⟨_, Laws.execClr_eq s⟩

/-- Every command answers a next state, or stops with no error latched. -/
theorem exec_next_or_stop (i : Instr) (s : State) :
    (∃ t, exec i s = .next t) ∨ (s.err = .none ∧ Stop i s (exec i s)) := by
  by_cases hi : i = .clr
  · subst hi
    exact .inl ⟨_, Laws.execClr_eq s⟩
  by_cases he : s.err = .none
  · by_cases ha : s.ph.admits i = true
    · exact (exec_next_or_stop_of_admitted he ha).imp_right fun h => ⟨he, h⟩
    · exact .inl ⟨_, exec_refused he (Bool.eq_false_iff.2 ha)⟩
  · exact .inl ⟨_, exec_latched he hi⟩

/-- A refusal is the one of `CKS`, over a byte that holds no value. -/
theorem unwritten_of_refused {i : Instr} {s : State} {r : Refusal} (hx : exec i s = .refused r) :
    i = .cks ∧ r = .unwrittenByte ∧ s.err = .none ∧ (s.ph = .lenp ∨ s.ph = .done) ∧
      ∃ a < s.hlen.toNat, s.readByte .buf a = none := by
  obtain ⟨t, ht⟩ | ⟨he, hstop⟩ := exec_next_or_stop i s
  · cases hx.symm.trans ht
  · rw [hx] at hstop
    cases hstop with
    | unwritten hi hp hS => exact ⟨hi, rfl, he, hp, (wordSum_eq_none_iff _ _).1 hS⟩

/-- With a legal capacity a fault is the one of `APB`. -/
theorem beyondCapacity_of_fault {i : Instr} {s : State} {e : Fault} (hx : exec i s = .fault e)
    (hlegal : s.params.legal) :
    ∃ v, i = .apb v ∧ e = .outsideSpace .buf s.hlen.toNat ∧ s.ph = .built ∧ s.params.hdrCap < s.hlen.toNat := by
  obtain ⟨t, ht⟩ | ⟨-, hstop⟩ := exec_next_or_stop i s
  · cases hx.symm.trans ht
  · rw [hx] at hstop
    cases hstop with
    | beyondCapacity v hi hp hc => exact ⟨v, hi, rfl, hp, hc⟩
    | illegalCapacity _ hc => exact absurd hlegal.1 (Nat.not_le.2 hc)

/-- Settles O45: the stops of `Stop`, read in both directions. -/
theorem stopsOnlyOutsideTheSpec : Obligations.StopsOnlyOutsideTheSpec := by
  unfold Obligations.StopsOnlyOutsideTheSpec
  refine ⟨fun i s r => ⟨unwritten_of_refused, ?_⟩, fun i s e hx hlegal => beyondCapacity_of_fault hx hlegal,
    fun v s he hp hv hc => execApb_outside he hp hv hc⟩
  rintro ⟨rfl, rfl, he, hp, hbyte⟩
  exact execCks_unwritten he hp ((wordSum_eq_none_iff _ _).2 hbyte)

/-! ### No stop in a state of the invariant -/

theorem exec_completes {s : State} (h : s.Inv) (i : Instr) : ∃ t, exec i s = .next t := by
  obtain hnext | ⟨-, hstop⟩ := exec_next_or_stop i s
  · exact hnext
  · generalize exec i s = r at hstop
    cases hstop with
    | unwritten _ _ hS =>
      obtain ⟨S, hS'⟩ := Laws.wordSum_of_range s.buf s.hlen.toNat h.spaces.2
      cases hS.symm.trans hS'
    | beyondCapacity _ _ hp hc => exact absurd (h.length.2 (by simp [hp])).2 (Nat.not_le.2 hc)
    | illegalCapacity _ hc => exact absurd h.params.1 (Nat.not_le.2 hc)

/-- Settles O9: a step that runs no command always answers, and a command does in every state of the invariant. -/
theorem stepAlwaysCompletes : Obligations.StepAlwaysCompletes := by
  unfold Obligations.StepAlwaysCompletes
  intro s h
  obtain ⟨-, hs⟩ | ⟨p, rest, -, ⟨-, hs⟩ | ⟨-, -, hs⟩ | ⟨-, -, ⟨e, -, hs⟩ | ⟨i, -, hs⟩⟩⟩ := Laws.step_cases s
  · exact ⟨_, hs⟩
  · exact ⟨_, hs⟩
  · exact ⟨_, hs⟩
  · exact ⟨_, hs⟩
  · rw [hs]
    exact exec_completes (inv_takeSample p rest h) i

end Sys2Proof.Proofs
end

section
/-! PROOF. The way out of the error state (`60_exceptions.md` R114, R115), and the frame over steps and runs
(`43_control.md` R104, `60_exceptions.md` R117). -/

namespace Sys2Proof.Proofs

open Sys2Proof.Machine

/-! ### What the host presents -/

/-- R66: a step is a reset, takes a sample without a command, or has a command word presented. -/
theorem step_port_cases {s t : State} (hx : step s = .next t) :
    (∃ s', s.PresentsReset s' ∧ t = resetBlock s') ∨ (∃ inputs tx, t = { s with inputs := inputs, tx := tx }) ∨
      ∃ c s', s.Presents c s' := by
  obtain ⟨-, hs⟩ | ⟨p, rest, hin, ⟨hrst, hs⟩ | ⟨-, -, hs⟩ | ⟨hrst, hvalid, -⟩⟩ := Laws.step_cases s
  · cases hs.symm.trans hx
    exact .inr (.inl ⟨s.inputs, s.tx, rfl⟩)
  · cases hs.symm.trans hx
    exact .inl ⟨_, presentsReset_cons hin hrst, rfl⟩
  · cases hs.symm.trans hx
    exact .inr (.inl ⟨rest, p.tx, rfl⟩)
  · exact .inr (.inr ⟨_, _, presents_cons hin hrst hvalid⟩)

theorem ph_of_presents {s s' : State} {c : CmdWord} (hp : s.Presents c s') : s'.ph = s.ph := by
  obtain ⟨p, rest, -, -, -, -, rfl⟩ := hp
  rfl

theorem decode_of_clr_byte {c : CmdWord} (hb : cmdByte c = 0x80#8) : decode c = .ok .clr :=
  decode_eq_ok hb.symm (absurd rfl)

/-- R102, R125: the reset state keeps the parameters, which are not part of it. -/
theorem resetBlock_of_presentsReset {s s' : State} (hr : s.PresentsReset s') :
    resetBlock s' = { State.reset with params := s.params, tx := s'.tx, inputs := s'.inputs } := by
  obtain ⟨p, rest, -, -, rfl⟩ := hr
  rfl

theorem resetBlock_of_presents {s s' : State} {c : CmdWord} (hp : s.Presents c s') :
    resetBlock s' = { State.reset with params := s.params, tx := s'.tx, inputs := s'.inputs } := by
  obtain ⟨p, rest, -, -, -, -, rfl⟩ := hp
  rfl

/-- Settles O39: no word but that of `CLR` changes a latched error, and `CLR` and `RST` take the whole reset state. -/
theorem onlyClearLeavesErrorState : Obligations.OnlyClearLeavesErrorState := by
  unfold Obligations.OnlyClearLeavesErrorState
  refine ⟨fun s t he hx => ?_, fun s s' hout => ?_⟩
  · obtain ⟨s', hr, rfl⟩ | ⟨inputs, tx, rfl⟩ | ⟨c, s', hp⟩ := step_port_cases hx
    · exact .inr ⟨resetBlock_of_presentsReset hr, .inl ⟨s', hr⟩⟩
    · exact .inl ⟨rfl, rfl, rfl⟩
    · by_cases hb : cmdByte c = 0x80#8
      · rw [step_of_decode_clr hp (decode_of_clr_byte hb)] at hx
        cases hx
        exact .inr ⟨resetBlock_of_presents hp, .inr ⟨c, s', hp, hb⟩⟩
      · exact .inl (latch_of_presents hp hx he fun hd => hb (commandByte_of_decode hd).symm)
  · obtain hr | ⟨c, hp, hb⟩ := hout
    · rw [step_of_presentsReset hr, resetBlock_of_presentsReset hr]
    · rw [step_of_decode_clr hp (decode_of_clr_byte hb), resetBlock_of_presents hp]

/-! ### The frame rises -/

theorem frame_isSome {s : State} (h : s.Inv) (hv : s.frameValid = true) : s.frame.isSome = true := by
  obtain ⟨bs, hbs, -⟩ := frameIsEthThenBuf.2 s h hv
  rw [hbs, Option.isSome_some]

/-- R101: the flag is raised by an `EMT` that the phase admits, with no error latched. -/
theorem emt_of_frame_raised {s t : State} (hx : step s = .next t) (hs : s.frameValid = false)
    (ht : t.frameValid = true) :
    s.err = .none ∧ s.ph = .done ∧ t.ph = .sent ∧ ∃ c s', s.Presents c s' ∧ decode c = .ok .emt := by
  obtain ⟨s', -, rfl⟩ | ⟨inputs, tx, rfl⟩ | ⟨c, s', hp⟩ := step_port_cases hx
  · exact absurd ht nofun
  · exact absurd (hs.symm.trans ht) nofun
  · have hchanged : ¬ Register.frameValid.Unchanged s t := fun h => absurd (hs.symm.trans (h.symm.trans ht)) nofun
    obtain ⟨i, hd, hx', rfl | rfl⟩ := writer_of_changed hp hx hchanged
    · cases hx'
      exact absurd ht nofun
    · obtain hn | ⟨he, hdone, -⟩ := Laws.execEmt_eq_next hx'
      · obtain ⟨e, sub, b, rfl⟩ := enterError_of_noEffect hn
        exact absurd ((unchanged_of_presents hp .frameValid).1 (unchanged_enterError e sub b s' _)) hchanged
      · rw [exec_emt_done he hdone] at hx'
        cases hx'
        exact ⟨(err_of_presents hp).symm.trans he, (ph_of_presents hp).symm.trans hdone, (answered_packet s').1,
          c, s', hp, hd⟩

/-! ### The frame stays -/

/-- R21, R104: in SENT a presented word clears, or writes the latch registers at most. -/
theorem step_sent_cases {s s' t : State} {c : CmdWord} (hp : s.Presents c s') (hx : step s = .next t)
    (hs : s'.ph = .sent) : t = resetBlock s' ∨ ∃ e sub b, t = enterError e sub b s' := by
  obtain herr | ⟨i, -, hx'⟩ := step_presents_cases hp hx
  · exact .inr herr
  · by_cases hi : i = .clr
    · subst hi
      cases hx'
      exact .inl rfl
    · obtain ⟨ps, r, hsent, hr⟩ := exec_eq_whenAdmitted i s' hi
      obtain hn | ⟨-, hmem, -⟩ := Laws.whenAdmitted_eq_next (hr ▸ hx')
      · exact .inr (enterError_of_noEffect hn)
      · exact absurd (hs ▸ hmem) hsent

/-- R104: once out, the frame stands until a clear or a reset. -/
theorem frame_stays {s t : State} (hx : step s = .next t) (hv : s.frameValid = true) (hs : s.ph = .sent) :
    (t.frameValid = true ∧ t.frame = s.frame ∧ t.ph = .sent) ∨
      t = { State.reset with params := s.params, tx := t.tx, inputs := t.inputs } := by
  obtain ⟨s', hr, rfl⟩ | ⟨inputs, tx, rfl⟩ | ⟨c, s', hp⟩ := step_port_cases hx
  · exact .inr (resetBlock_of_presentsReset hr)
  · exact .inl ⟨hv, rfl, hs⟩
  · have hpacket : s'.frameValid = s.frameValid ∧ s'.frame = s.frame ∧ s'.ph = s.ph := by
      obtain ⟨p, rest, -, -, -, -, rfl⟩ := hp
      exact ⟨rfl, rfl, rfl⟩
    obtain ⟨hv', hf', hs'⟩ := hpacket
    obtain rfl | ⟨e, sub, b, rfl⟩ := step_sent_cases hp hx (hs'.trans hs)
    · exact .inr (resetBlock_of_presents hp)
    · exact .inl ⟨hv'.trans hv, hf', hs'.trans hs⟩

/-- Settles O40: the flag rises by a hand-off into SENT, where the invariant says that the sum verifies and the length
is patched; there no command but `CLR` is admitted. -/
theorem frameRisesOnceVerified : Obligations.FrameRisesOnceVerified := by
  unfold Obligations.FrameRisesOnceVerified
  refine fun s t h hx => ⟨fun hs ht => ?_, fun hv => frame_stays hx hv (h.frameSent.1 hv)⟩
  obtain ⟨he, hdone, hsent, hword⟩ := emt_of_frame_raised hx hs ht
  have hI : t.Inv := inv_step h hx
  exact ⟨he, hdone, hsent, hword, hI.verified (.inr hsent), hI.totalLength.2 (by simp [hsent]) (by simp [hsent]),
    frame_isSome hI ht⟩

/-! ### No partial success -/

/-- R34 item 6, R107, R108: the errors that can stand beside a frame. -/
theorem err_of_sent {s : State} (h : s.Inv) (hs : s.ph = .sent) :
    (s.err = .none ∨ s.err = .transmissionFailure) ∨
      (s.err = .illegalCommand ∧ (s.esub = .reserved ∨ s.esub = .phase)) := by
  cases he : s.err with
  | none => exact .inl (.inl rfl)
  | transmissionFailure => exact .inl (.inr rfl)
  | invalidFieldWidth =>
    obtain ⟨hp | hp, -⟩ := h.errorPhases.1 he <;> cases hs.symm.trans hp
  | illegalCommand =>
    refine .inr ⟨rfl, ?_⟩
    cases hsub : s.esub with
    | none => exact absurd hsub (h.latch.1.1 he)
    | reserved => exact .inl rfl
    | phase => exact .inr rfl
    | capacity => cases hs.symm.trans (h.capacity hsub).1

/-- With an error latched no step presents a frame. -/
theorem frameValid_of_latched {s t : State} (hx : step s = .next t) (he : s.err ≠ .none) (hv : s.frameValid = false) :
    t.frameValid = false := by
  obtain hreset | hsame := step_closed hx (.inl he)
  · rw [hreset]
    rfl
  · rw [hsame.frameValid, hv]

/-- Settles O51: the flag decides the case, and the invariant of a run gives the rest. -/
theorem noPartialSuccess : Obligations.NoPartialSuccess := by
  unfold Obligations.NoPartialSuccess
  intro s hs
  have h : s.Inv := inv_reachable hs
  cases hv : s.frameValid with
  | false => exact .inl ⟨rfl, frameIsEthThenBuf.1 s hv, fun he t hx => frameValid_of_latched hx he hv⟩
  | true =>
    have hsent : s.ph = .sent := h.frameSent.1 hv
    exact .inr ⟨rfl, hsent, frame_isSome h hv, h.verified (.inr hsent), err_of_sent h hsent⟩

end Sys2Proof.Proofs
end

section
/-! PROOF. Programs as lists of commands (`30_encoding.md` R64), byte sequences in a buffer, and the word sum of an IPv4
header on the wire (`20_memory.md` R38, R43, `41_header_build.md` R82, `42_checksum_patch.md` R90). -/

namespace Sys2Proof.Proofs

open Sys2Proof.Machine

/-! ### Commands one after the other -/

theorem andThen_assoc (r : Result) (f g : State → Result) :
    andThen (andThen r f) g = andThen r fun s => andThen (f s) g := by
  cases r <;> rfl

theorem execAll_append (is js : List Instr) (s : State) :
    execAll (is ++ js) s = andThen (execAll is s) (execAll js) := by
  induction is generalizing s with
  | nil => rfl
  | cons i is ih =>
    rw [List.cons_append, execAll, execAll, andThen_assoc]
    exact congrArg _ (funext ih)

theorem execAll_cons {i : Instr} {s t : State} (is : List Instr) (hx : exec i s = .next t) :
    execAll (i :: is) s = execAll is t := by
  rw [execAll, hx, Laws.andThen_next]

theorem inv_execAll {is : List Instr} {s t : State} (h : s.Inv) (hx : execAll is s = .next t) : t.Inv := by
  induction is generalizing s with
  | nil =>
    cases hx
    exact h
  | cons i is ih =>
    obtain ⟨u, hu, hx⟩ := Laws.andThen_eq_next hx
    exact ih (inv_exec h hu) hx

/-- R103, R113: with an error latched the rest of a program is ignored. -/
theorem execAll_latched {is : List Instr} {s : State} (he : s.err ≠ .none) (hclr : .clr ∉ is) :
    execAll is s = .next s := by
  induction is with
  | nil => rfl
  | cons i is ih =>
    rw [List.mem_cons, not_or] at hclr
    rw [execAll_cons is (exec_latched he (Ne.symm hclr.1)), ih hclr.2]

/-! ### Byte sequences in a buffer -/

/-- Two sequences read one behind the other are one sequence. -/
theorem readBytes_add {m : Memory} {a n k : Nat} {xs ys : List Byte} (hx : Memory.readBytes m a n = some xs)
    (hy : Memory.readBytes m (a + n) k = some ys) : Memory.readBytes m a (n + k) = some (xs ++ ys) := by
  obtain ⟨hxl, hxr⟩ := (Laws.readBytes_eq_some m a n xs).1 hx
  obtain ⟨hyl, hyr⟩ := (Laws.readBytes_eq_some m (a + n) k ys).1 hy
  rw [Laws.readBytes_eq_some]
  refine ⟨by rw [List.length_append, hxl, hyl], fun j hj => ?_⟩
  rw [List.length_append] at hj
  by_cases hlow : j < xs.length
  · rw [hxr j hlow, List.getElem_append_left hlow]
  · have hhigh := hyr (j - xs.length) (by omega)
    rw [show a + n + (j - xs.length) = a + j by omega] at hhigh
    rw [hhigh, List.getElem_append_right (Nat.not_lt.1 hlow)]

/-- A part of a sequence that was read. -/
theorem readBytes_part {m : Memory} {n a k : Nat} {bs : List Byte} (h : Memory.readBytes m 0 n = some bs)
    (hk : a + k ≤ n) : Memory.readBytes m a k = some ((bs.drop a).take k) := by
  obtain ⟨hl, hread⟩ := (Laws.readBytes_eq_some m 0 n bs).1 h
  rw [Laws.readBytes_eq_some]
  refine ⟨by rw [List.length_take, List.length_drop]; omega, fun j hj => ?_⟩
  rw [List.length_take] at hj
  have hbyte := hread (a + j) (by omega)
  rw [Nat.zero_add] at hbyte
  rw [hbyte, List.getElem_take, List.getElem_drop]

/-- A store inside a sequence that was read replaces a part of it. -/
theorem readBytes_writeBytes_inside {m : Memory} {n a : Nat} {bs ps : List Byte} (h : Memory.readBytes m 0 n = some bs)
    (hfit : a + ps.length ≤ n) :
    Memory.readBytes (Memory.writeBytes m a ps) 0 n = some (bs.take a ++ ps ++ bs.drop (a + ps.length)) := by
  obtain ⟨hl, -⟩ := (Laws.readBytes_eq_some m 0 n bs).1 h
  have hbefore : Memory.readBytes (Memory.writeBytes m a ps) 0 a = some (bs.take a) :=
    (Laws.readBytes_congr _ _ _ _ fun k hk => Laws.read_writeBytes_outside _ _ _ _ (by omega)).trans
      (readBytes_part h (by omega))
  have hinside : Memory.readBytes (Memory.writeBytes m a ps) (0 + a) ps.length = some ps := by
    rw [Nat.zero_add, Laws.readBytes_writeBytes_same]
  have hafter : Memory.readBytes (Memory.writeBytes m a ps) (0 + (a + ps.length)) (n - (a + ps.length)) =
      some (bs.drop (a + ps.length)) := by
    rw [Nat.zero_add, Laws.readBytes_congr _ _ _ _ fun k hk => Laws.read_writeBytes_outside _ _ _ _ (by omega),
      readBytes_part h (by omega), List.take_of_length_le (by rw [List.length_drop]; omega)]
  have hall := readBytes_add (readBytes_add hbefore hinside) hafter
  rwa [Nat.add_sub_cancel' hfit] at hall

/-! ### The word sum of a header on the wire -/

/-- The two bytes of a register stand for its value (R10). -/
theorem toNat_bytes16 (r : BitVec 16) : (r.extractLsb' 8 8).toNat * 256 + (r.extractLsb' 0 8).toNat = r.toNat := by
  have := r.isLt
  rw [BitVec.extractLsb'_toNat, BitVec.extractLsb'_toNat, Nat.shiftRight_eq_div_pow, Nat.shiftRight_eq_div_pow]
  omega

/-- The upper word of an address. -/
theorem toNat_bytes32_high (r : BitVec 32) :
    (r.extractLsb' 24 8).toNat * 256 + (r.extractLsb' 16 8).toNat = r.toNat / 0x10000 := by
  have := r.isLt
  rw [BitVec.extractLsb'_toNat, BitVec.extractLsb'_toNat, Nat.shiftRight_eq_div_pow, Nat.shiftRight_eq_div_pow]
  omega

/-- The lower word of an address. -/
theorem toNat_bytes32_low (r : BitVec 32) :
    (r.extractLsb' 8 8).toNat * 256 + (r.extractLsb' 0 8).toNat = r.toNat % 0x10000 := by
  have := r.isLt
  rw [BitVec.extractLsb'_toNat, BitVec.extractLsb'_toNat, Nat.shiftRight_eq_div_pow, Nat.shiftRight_eq_div_pow]
  omega

/-- The word of `FLAGS` and `FRAG_OFF` (R82). -/
theorem toNat_bytes_flags (f : BitVec 3) (o : BitVec 13) :
    (f ++ o.extractLsb' 8 5 : BitVec 8).toNat * 256 + (o.extractLsb' 0 8).toNat = f.toNat * 0x2000 + o.toNat := by
  have ho := o.isLt
  have hhigh : (o.extractLsb' 8 5).toNat = o.toNat / 256 := by
    rw [BitVec.extractLsb'_toNat, Nat.shiftRight_eq_div_pow]
    omega
  have hlow : (o.extractLsb' 0 8).toNat = o.toNat % 256 := by
    rw [BitVec.extractLsb'_toNat, Nat.shiftRight_eq_div_pow]
    omega
  rw [BitVec.toNat_append, Laws.shiftLeft_or _ _ _ (BitVec.isLt _), hhigh, hlow]
  omega

/-- The word of `VERSION`, `IHL` and `DSCP_ECN` (R82). -/
theorem toNat_bytes_version (v : BitVec 4) :
    (v ++ 0x5#4 : BitVec 8).toNat * 256 + (0x00#8).toNat = v.toNat * 0x1000 + 0x0500 := by
  rw [← versionAndIhl_eq_append, Laws.versionAndIhl_toNat, BitVec.toNat_ofNat]
  omega

/-- R43: a word of a sequence that was read. -/
theorem word_of_readBytes {m : Memory} {n i : Nat} {bs : List Byte} {x y : Byte} (h : Memory.readBytes m 0 n = some bs)
    (hx : bs[2 * i]? = some x) (hy : bs[2 * i + 1]? = some y) : word m n i = some (x.toNat * 256 + y.toNat) := by
  obtain ⟨hl, -⟩ := (Laws.readBytes_eq_some m 0 n bs).1 h
  have hi : 2 * i + 1 < n := hl ▸ (List.getElem?_eq_some_iff.1 hy).1
  have hread : ∀ k < n, bs[k]? = Memory.read m k := fun k hk => by
    simpa only [Nat.zero_add] using getElem?_of_readBytes h k hk
  exact Laws.word_inside m n i x y hi ((hread _ (by omega)).symm.trans hx) ((hread _ hi).symm.trans hy)

/-- R38, R82: the ten words of the header with totalLength 20. -/
theorem words_of_wireIp4 {s : State} {m : Memory} {ck : BitVec 16}
    (h : Memory.readBytes m 0 20 = some (s.wireIp4 20#16 ck)) :
    (List.range 10).map (word m 20) =
      [some (s.version.toNat * 0x1000 + 0x0500), some 20, some s.ident.toNat,
        some (s.flags.toNat * 0x2000 + s.fragOff.toNat), some (s.ttl.toNat * 256 + s.proto.toNat), some ck.toNat,
        some (s.srcAddr.toNat / 0x10000), some (s.srcAddr.toNat % 0x10000),
        some (s.dstAddr.toNat / 0x10000), some (s.dstAddr.toNat % 0x10000)] := by
  rw [← toNat_bytes_version, ← toNat_bytes16 s.ident, ← toNat_bytes_flags, ← toNat_bytes16 ck,
    ← toNat_bytes32_high s.srcAddr, ← toNat_bytes32_low s.srcAddr, ← toNat_bytes32_high s.dstAddr,
    ← toNat_bytes32_low s.dstAddr]
  have hword : ∀ i x y, (s.wireIp4 20#16 ck)[2 * i]? = some x → (s.wireIp4 20#16 ck)[2 * i + 1]? = some y →
      word m 20 i = some (x.toNat * 256 + y.toNat) := fun _ _ _ => word_of_readBytes h
  simp only [List.range, List.range.loop, List.map_cons, List.map_nil]
  rw [hword 0 _ _ rfl rfl, hword 1 _ _ rfl rfl, hword 2 _ _ rfl rfl, hword 3 _ _ rfl rfl, hword 4 _ _ rfl rfl,
    hword 5 _ _ rfl rfl, hword 6 _ _ rfl rfl, hword 7 _ _ rfl rfl, hword 8 _ _ rfl rfl, hword 9 _ _ rfl rfl]
  rfl

/-- R90 on the header of R82 with totalLength 20: the sum of the field registers, and the checksum field. -/
theorem wordSum_of_wireIp4 {s : State} {m : Memory} {ck : BitVec 16}
    (h : Memory.readBytes m 0 20 = some (s.wireIp4 20#16 ck)) : wordSum m 20 = some (s.headerSum + ck.toNat) := by
  rw [wordSum, sumWords_eq_foldl, show wordCount 20 = 10 from rfl, words_of_wireIp4 h]
  simp only [List.foldl_cons, List.foldl_nil, Option.map₂_some_some, State.headerSum, Option.some.injEq]
  omega

end Sys2Proof.Proofs
end

section
/-! PROOF. The programs `RUN` and `SEND`, and a packet with appended bytes: the bytes handed over are computed from the
field registers through the stores of `BLD`, `APB`, `PLN` and `PCK` (`30_encoding.md` R64, `41_header_build.md` R81 to
R84, `42_checksum_patch.md` R88 to R95, `43_control.md` R101, R103). -/

namespace Sys2Proof.Proofs

open Sys2Proof.Machine

/-! ### The two patches of a built header -/

/-- The state `PLN`, `CKS` and `PCK` leave, where the buffer sums up to `S` once its length is patched (R88, R89,
R93). -/
def patched (S : Nat) (s : State) : State := Laws.checksumPatched (Laws.checksummed S (Laws.lengthPatched s))

@[simp] theorem patched_ph (S : Nat) (s : State) : (patched S s).ph = .done := rfl
@[simp] theorem patched_err (S : Nat) (s : State) : (patched S s).err = s.err := rfl
@[simp] theorem patched_hlen (S : Nat) (s : State) : (patched S s).hlen = s.hlen := rfl
@[simp] theorem patched_eth (S : Nat) (s : State) : (patched S s).eth = s.eth := rfl
@[simp] theorem patched_tx (S : Nat) (s : State) : (patched S s).tx = s.tx := rfl
theorem patched_buf (S : Nat) (s : State) :
    (patched S s).buf =
      Memory.writeBytes (Laws.lengthPatched s).buf 10 (beBytes 2 (complement16 (fold S)).toNat) := rfl

/-- The three commands complete on a built header, and any others follow on the patched one. -/
theorem execAll_patches {s : State} {S : Nat} (is : List Instr) (he : s.err = .none) (hp : s.ph = .built)
    (hlegal : s.params.legal) (hS : wordSum (Laws.lengthPatched s).buf s.hlen.toNat = some S) :
    execAll (.pln :: .cks :: .pck :: is) s = execAll is (patched S s) := by
  have h4 : 4 ≤ s.params.hdrCap := le_trans (by decide) hlegal.1
  have h12 : 12 ≤ s.params.hdrCap := le_trans (by decide) hlegal.1
  rw [execAll_cons _ (Laws.execPln_admitted s he hp h4),
    execAll_cons _ (Laws.execCks_admitted (Laws.lengthPatched s) S he (.inl rfl) hS),
    execAll_cons _ (Laws.execPck_admitted (Laws.checksummed S (Laws.lengthPatched s)) he rfl h12), patched]

/-- R38, R88: a store at offset 2 replaces totalLength. -/
theorem wireIp4_replace_totalLength (s : State) (l r ck : BitVec 16) :
    (s.wireIp4 l ck).take 2 ++ beBytes 2 r.toNat ++ (s.wireIp4 l ck).drop 4 = s.wireIp4 r ck := rfl

/-- R38, R93: a store at offset 10 replaces headerChecksum. -/
theorem wireIp4_replace_checksum (s : State) (l ck r : BitVec 16) :
    (s.wireIp4 l ck).take 10 ++ beBytes 2 r.toNat ++ (s.wireIp4 l ck).drop 12 = s.wireIp4 l r := rfl

/-- R88: the header with totalLength patched. -/
theorem readBytes_lengthPatched_built (s : State) :
    Memory.readBytes (Laws.lengthPatched (Laws.built s)).buf 0 20 = some (s.wireIp4 20#16 0#16) := by
  have hbuilt := readBytes_buf_built s
  rw [ip4Bytes_eq_wireIp4] at hbuilt
  rw [Laws.lengthPatched_buf, readBytes_writeBytes_inside hbuilt (by simp), Laws.length_beBytes, Laws.built_hlen,
    wireIp4_replace_totalLength]

/-- R90: its sum. -/
theorem wordSum_lengthPatched_built (s : State) :
    wordSum (Laws.lengthPatched (Laws.built s)).buf 20 = some s.headerSum := by
  simpa using wordSum_of_wireIp4 (readBytes_lengthPatched_built s)

/-- R92, R95: the checksum of the header, by the closed form. -/
theorem complement16_fold {S : Nat} (hS : 0 < S) :
    complement16 (fold S) = BitVec.ofNat 16 (0xFFFF - ((S - 1) % 0xFFFF + 1)) := by
  apply BitVec.eq_of_toNat_eq
  rw [Laws.complement16_toNat _ (Laws.fold_le S), BitVec.toNat_ofNat, fold_eq_closedForm hS]
  omega

theorem headerSum_pos (s : State) : 0 < s.headerSum := by
  unfold State.headerSum
  omega

/-- R93: the header with both patches. -/
theorem readBytes_patched_built (s : State) :
    Memory.readBytes (patched s.headerSum (Laws.built s)).buf 0 20 =
      some (s.wireIp4 20#16 (complement16 (fold s.headerSum))) := by
  rw [patched_buf, readBytes_writeBytes_inside (readBytes_lengthPatched_built s) (by simp), Laws.length_beBytes,
    wireIp4_replace_checksum]

/-- R94: the patched header verifies. -/
theorem foldedSum_patched_built (s : State) : (patched s.headerSum (Laws.built s)).foldedSum = some 0xFFFF := by
  have hle := Laws.fold_le s.headerSum
  have hmod := Laws.fold_mod s.headerSum
  have hpos := headerSum_pos s
  have hsum : wordSum (patched s.headerSum (Laws.built s)).buf 20 =
      some (s.headerSum + (0xFFFF - fold s.headerSum)) := by
    rw [wordSum_of_wireIp4 (readBytes_patched_built s), Laws.complement16_toNat _ hle]
  have hfold : fold (s.headerSum + (0xFFFF - fold s.headerSum)) = 0xFFFF := fold_of_mod_eq_zero (by omega) (by omega)
  exact (congrArg (Option.map fold) hsum).trans (congrArg some hfold)

/-- R31: the frame of the patched header. -/
theorem frameBytes_patched_built (s : State) :
    (patched s.headerSum (Laws.built s)).frameBytes =
      some (s.wireEth ++ s.wireIp4 20#16 (complement16 (fold s.headerSum))) := by
  have hlen : (20#16).toNat = 20 := rfl
  rw [State.frameBytes, patched_eth, Config.ethLen, readBytes_eth_built, ethBytes_eq_wireEth, patched_hlen,
    Laws.built_hlen, hlen, readBytes_patched_built]

theorem err_patched_built (S : Nat) (s : State) : (patched S (Laws.built s)).err = s.err := by
  rw [patched_err, Laws.built_err]

theorem tx_patched_built (S : Nat) (s : State) : (patched S (Laws.built s)).tx = s.tx := by
  rw [patched_tx, Laws.built_tx]

theorem hlen_patched_built (S : Nat) (s : State) : (patched S (Laws.built s)).hlen = 20#16 := by
  rw [patched_hlen, Laws.built_hlen]

/-! ### `RUN` and `SEND` -/

section
variable {s : State} (he : s.err = .none) (hp : s.ph = .idle) (hlegal : s.params.legal)
include he hp hlegal

theorem execAll_run_append (is : List Instr) :
    execAll (Pseudo.run.expand ++ is) s = execAll is (patched s.headerSum (Laws.built s)) := by
  show execAll (.bld :: .pln :: .cks :: .pck :: is) s = _
  rw [execAll_cons _ (Laws.execBld_admitted s he hp hlegal.1),
    execAll_patches is (s := Laws.built s) he rfl hlegal (wordSum_lengthPatched_built s)]

theorem execAll_run : execAll Pseudo.run.expand s = .next (patched s.headerSum (Laws.built s)) := by
  rw [← List.append_nil Pseudo.run.expand, execAll_run_append he hp hlegal, execAll]

theorem execAll_send :
    execAll Pseudo.send.expand s = .next (answered (patched s.headerSum (Laws.built s))) := by
  have hsplit : Pseudo.send.expand = Pseudo.run.expand ++ [Instr.emt] := rfl
  rw [hsplit, execAll_run_append he hp hlegal,
    execAll_cons [] (exec_emt_done ((err_patched_built _ s).trans he) (patched_ph _ _)), execAll]

end

/-- R103: from another phase the first command is refused and the rest is ignored. -/
theorem execAll_bld_refused {s : State} {is : List Instr} (he : s.err = .none) (hp : s.ph ≠ .idle)
    (hclr : .clr ∉ is) : execAll (.bld :: is) s = .next (enterError .illegalCommand .phase 0x20#8 s) := by
  have hrefused := exec_refused (i := .bld) he (Bool.eq_false_iff.2 (mt (admits_bld_iff s.ph).1 hp))
  have hlatched : (enterError .illegalCommand .phase 0x20#8 s).err ≠ .none := nofun
  exact (execAll_cons is hrefused).trans (execAll_latched hlatched hclr)

/-- R101: `Sent(n)` latches nothing, and its count is returned. -/
theorem answered_of_sent {s : State} {n : BitVec 32} (he : s.err = .none) (htx : s.tx = .sent n) :
    (answered s).err = .none ∧ (answered s).returnedCount = some n := by
  rw [answered_sent htx, Laws.handedOff_err, State.returnedCount, Laws.handedOff_tx, htx]
  exact ⟨he, rfl⟩

/-- R101: `Fail` is latched. -/
theorem answered_of_fail {s : State} (htx : s.tx = .fail) : (answered s).err = .transmissionFailure := by
  rw [answered_fail htx, Laws.enterError_err]

/-- Settles O29: `RUN` leaves the two headers with both patches, whose checksum is the closed form, and `SEND` presents
them whatever the answer. -/
theorem sendEmitsVerifiedPacket : Obligations.SendEmitsVerifiedPacket := by
  unfold Obligations.SendEmitsVerifiedPacket
  refine ⟨fun s he hp hlegal => ?_,
    fun s he hp => ⟨execAll_bld_refused he hp (by decide), execAll_bld_refused he hp (by decide)⟩⟩
  have herr := (err_patched_built s.headerSum s).trans he
  have htx := tx_patched_built s.headerSum s
  refine ⟨⟨_, execAll_run he hp hlegal, patched_ph _ _, herr, hlen_patched_built _ s, foldedSum_patched_built s⟩,
    ⟨_, execAll_send he hp hlegal, (answered_packet _).1, ?_, fun n hsent => answered_of_sent herr (htx.trans hsent),
      fun hfail => answered_of_fail (htx.trans hfail)⟩⟩
  rw [frame_answered, frameBytes_patched_built, complement16_fold (headerSum_pos s)]

/-! ### A packet with appended bytes -/

/-- The state the appends of a byte list leave (R84). -/
def appendedAll (bs : List Byte) (s : State) : State :=
  { s with buf := Memory.writeBytes s.buf s.hlen.toNat bs, hlen := s.hlen + BitVec.ofNat 16 bs.length }

@[simp] theorem appendedAll_ph (bs : List Byte) (s : State) : (appendedAll bs s).ph = s.ph := rfl
@[simp] theorem appendedAll_err (bs : List Byte) (s : State) : (appendedAll bs s).err = s.err := rfl
@[simp] theorem appendedAll_hlen (bs : List Byte) (s : State) :
    (appendedAll bs s).hlen = s.hlen + BitVec.ofNat 16 bs.length := rfl
@[simp] theorem appendedAll_eth (bs : List Byte) (s : State) : (appendedAll bs s).eth = s.eth := rfl
@[simp] theorem appendedAll_buf (bs : List Byte) (s : State) :
    (appendedAll bs s).buf = Memory.writeBytes s.buf s.hlen.toNat bs := rfl

/-- One append, then the rest. -/
theorem appendedAll_appended {s : State} (b : Byte) (bs : List Byte) (hlegal : s.params.legal)
    (hc : s.hlen.toNat < s.params.hdrCap) :
    appendedAll bs (Laws.appended b.toNat s) = appendedAll (b :: bs) s := by
  have hlen : s.hlen + 1#16 + BitVec.ofNat 16 bs.length = s.hlen + BitVec.ofNat 16 (b :: bs).length := by
    rw [List.length_cons, BitVec.add_assoc, ← BitVec.ofNat_add, Nat.add_comm]
  rw [appendedAll, toNat_hlen_appended _ hlegal hc, Laws.appended_hlen, hlen, Laws.appended_buf, BitVec.ofNat_toNat,
    BitVec.setWidth_eq, appendedAll, Memory.writeBytes]
  rfl

theorem execAll_apb {s : State} {bs : List Byte} (he : s.err = .none) (hp : s.ph = .built) (hlegal : s.params.legal)
    (hfit : s.hlen.toNat + bs.length ≤ s.params.hdrCap) :
    execAll (bs.map fun b => .apb b.toNat) s = .next (appendedAll bs s) := by
  induction bs generalizing s with
  | nil => simp [execAll, appendedAll, Memory.writeBytes]
  | cons b bs ih =>
    rw [List.length_cons] at hfit
    have hc : s.hlen.toNat < s.params.hdrCap := by omega
    have hrest : (Laws.appended b.toNat s).hlen.toNat + bs.length ≤ s.params.hdrCap := by
      rw [toNat_hlen_appended _ hlegal hc]
      omega
    rw [List.map_cons, execAll_cons _ (Laws.execApb_admitted b.toNat s he hp hc b.isLt),
      ih (s := Laws.appended b.toNat s) he hp hlegal hrest, appendedAll_appended b bs hlegal hc]

/-- R131: the patches lie in the header, so the appended bytes stand behind it as they were given. -/
theorem readBytes_patched_appended (S : Nat) (bs : List Byte) (s : State) :
    Memory.readBytes (patched S (appendedAll bs (Laws.built s))).buf 20 bs.length = some bs := by
  have hlen : (20#16).toNat = 20 := rfl
  have happended : Memory.readBytes (appendedAll bs (Laws.built s)).buf 20 bs.length = some bs := by
    rw [appendedAll_buf, Laws.built_hlen, hlen, Laws.readBytes_writeBytes_same]
  rw [← happended]
  refine Laws.readBytes_congr _ _ _ _ fun k hk => ?_
  rw [patched_buf, read_writeBytes_two (.inr (by omega)), Laws.lengthPatched_buf,
    read_writeBytes_two (.inr (by omega))]

section
variable {s : State} {bs : List Byte} (h : s.Inv) (hfit : Config.ipHdrLen + bs.length ≤ s.params.hdrCap)
include h hfit

theorem toNat_hlen_appendedAll : (appendedAll bs (Laws.built s)).hlen.toNat = 20 + bs.length := by
  have hcap : s.params.hdrCap ≤ 65535 := h.params.2
  rw [Config.ipHdrLen] at hfit
  rw [appendedAll_hlen, Laws.built_hlen, BitVec.toNat_add, BitVec.toNat_ofNat, BitVec.toNat_ofNat]
  omega

variable (he : s.err = .none) (hp : s.ph = .idle)
include he hp

/-- The first commands of the program: `BLD` and the appends. -/
theorem execAll_bld_apb :
    execAll ([Instr.bld] ++ bs.map fun b => Instr.apb b.toNat) s = .next (appendedAll bs (Laws.built s)) := by
  rw [execAll_append, execAll_cons [] (Laws.execBld_admitted s he hp h.params.1), execAll, Laws.andThen_next]
  exact execAll_apb (s := Laws.built s) he (Laws.built_ph s) h.params hfit

/-- The whole program: some sum is found, and the patched buffer is handed over. -/
theorem execAll_packet : ∃ S,
    (patched S (appendedAll bs (Laws.built s))).Inv ∧
      execAll ([Instr.bld] ++ (bs.map fun b => Instr.apb b.toNat) ++ [Instr.pln, .cks, .pck, .emt]) s =
        .next (answered (patched S (appendedAll bs (Laws.built s)))) := by
  have hx := execAll_bld_apb h hfit he hp
  have hI : (appendedAll bs (Laws.built s)).Inv := inv_execAll h hx
  have herr : (appendedAll bs (Laws.built s)).err = .none := by rw [appendedAll_err, Laws.built_err, he]
  have hbuilt : (appendedAll bs (Laws.built s)).ph = .built := by rw [appendedAll_ph, Laws.built_ph]
  obtain ⟨S, hS⟩ := Laws.wordSum_of_range _ _ (inv_lengthPatched hI herr hbuilt).spaces.2
  have hpatches := fun is => execAll_patches is herr hbuilt hI.params hS
  refine ⟨S, inv_execAll hI (hpatches []), ?_⟩
  rw [execAll_append, hx, Laws.andThen_next, hpatches,
    execAll_cons [] (exec_emt_done ((patched_err S _).trans herr) (patched_ph S _)), execAll]

end

/-- R31, R131: the 14 bytes of `ETH`, the 20 of the header, and the appended ones. -/
theorem frameBytes_patched_appended {S : Nat} {bs : List Byte} {s : State}
    (hI : (patched S (appendedAll bs (Laws.built s))).Inv)
    (hlen : (appendedAll bs (Laws.built s)).hlen.toNat = 20 + bs.length) :
    ∃ header, header.length = 20 ∧
      (patched S (appendedAll bs (Laws.built s))).frameBytes = some (s.wireEth ++ (header ++ bs)) := by
  obtain ⟨header, hread, hl⟩ := Laws.readBytes_of_range _ _ 0 20 hI.spaces.2 (by rw [patched_hlen, hlen]; omega)
  refine ⟨header, hl, ?_⟩
  rw [State.frameBytes, patched_eth, appendedAll_eth, Config.ethLen, readBytes_eth_built, ethBytes_eq_wireEth,
    patched_hlen, hlen, readBytes_add hread (readBytes_patched_appended S bs s)]

/-- Settles O30: the invariant gives the length field and the sum that verifies, and the frame is the built Ethernet
header, 20 bytes and the appended ones. -/
theorem appendedBytesAreSent : Obligations.AppendedBytesAreSent := by
  unfold Obligations.AppendedBytesAreSent
  intro s bs h he hp hfit
  have hlen := toNat_hlen_appendedAll h hfit
  obtain ⟨S, hI, hx⟩ := execAll_packet h hfit he hp
  obtain ⟨header, hheader, hframe⟩ := frameBytes_patched_appended hI hlen
  obtain ⟨hsent, -, huhlen, -, -⟩ := answered_packet (patched S (appendedAll bs (Laws.built s)))
  have hIu := inv_execAll h hx
  have hu : (answered (patched S (appendedAll bs (Laws.built s)))).hlen.toNat = 20 + bs.length := by
    rw [huhlen, patched_hlen, hlen]
  have heth : s.wireEth.length = 14 := rfl
  have htotal := hIu.totalLength.2 (by simp [hsent]) (by simp [hsent])
  rw [hu] at htotal
  refine ⟨_, _, hx, hsent, hu, (frame_answered _).trans hframe, ?_, List.take_left' heth, ?_, htotal,
    hIu.verified (.inr hsent)⟩
  · rw [List.length_append, List.length_append, heth, hheader]
    omega
  · rw [← List.append_assoc]
    exact List.drop_left' (by rw [List.length_append, heth, hheader])

end Sys2Proof.Proofs
end
